-- ==== Sys2Proof/Word.lean ====
section
/-! DEFINITION. The word types of the HCE: every register, table word and command word is a 32-bit
unsigned value (spec/00_scope.md R7); symbols are 8 bits and node indices 9 bits (R6). -/

namespace Sys2Proof

/-- A register, table word, payload word or command word (R7). -/
abbrev Word := BitVec 32

/-- A symbol, SYM_W = 8 bits (R6). -/
abbrev Sym := BitVec 8

/-- An index into the node table, NODE_W = 9 bits (R6). -/
abbrev NodeIndex := BitVec 9

/-- A byte offset from BASE in the 16 KiB window: 0 ≤ off < 0x4000 exactly (R60). -/
abbrev Offset := BitVec 14

end Sys2Proof
end

