-- ==== Sys2Proof/Syntax.lean ====
section
/-! DEFINITION. The instructions of the HCE: its eight commands (spec/30_encoding.md R96), one constructor
per row of spec/opcode_table.json. Operand fields have exactly the width their format gives them
(R93, R94), so every term is a legal encoding. -/

namespace Sys2Proof

/-- A command of the HCE (R96). -/
inductive Instr where
  /-- NOP (R121). -/
  | nop
  /-- CLR (R122). -/
  | clr
  /-- ENC_START (R144). -/
  | encStart
  /-- ENC_SYM S (R145): format FS, S = w[7:0]. -/
  | encSym (s : Sym)
  /-- ENC_END (R146). -/
  | encEnd
  /-- DEC_START (R172). -/
  | decStart
  /-- DEC_BITS N (R173): format FN, N = w[5:0], 0..63; 0 and 33..63 decode too (R93). -/
  | decBits (n : BitVec 6)
  /-- DEC_END (R174). -/
  | decEnd
  deriving DecidableEq, Repr

end Sys2Proof
end

