-- ==== Sys2Proof/Decode.lean ====
section
/-! DEFINITION. Command words (spec/30_encoding.md): a total decoder (R97), the encoder written from the same
formats (R92 to R94), and the opcode map as mask and match rows (R96). -/

namespace Sys2Proof

/-- Why a word is ILLEGAL (R98). Both kinds execute as ILLEGAL_COMMAND. -/
inductive IllegalWord where
  /-- OP is one of the reserved opcodes 0x8..0xF. -/
  | reservedOpcode
  /-- A bit the opcode's format reserves is not zero (R91). -/
  | reservedBitSet
  deriving DecidableEq, Repr

/-- The opcode field OP = w[31:28] (R91). -/
def opField (w : Word) : BitVec 4 := w.extractLsb' 28 4

/-- The operand S = w[7:0] of format FS (R94). -/
def symField (w : Word) : Sym := w.extractLsb' 0 8

/-- The operand N = w[5:0] of format FN (R93). -/
def countField (w : Word) : BitVec 6 := w.extractLsb' 0 6

/-- A format's zero check: `i` if the format's reserved bits are all zero, else ILLEGAL (R97). -/
def ifReservedZero (zero : Bool) (i : Instr) : Except IllegalWord Instr :=
  if zero then .ok i else .error .reservedBitSet

/-- R97, case by case: a total function of the 32-bit word. -/
def decode (w : Word) : Except IllegalWord Instr :=
  if opField w = 0x0 then ifReservedZero (w.extractLsb' 0 28 == 0) .nop
  else if opField w = 0x1 then ifReservedZero (w.extractLsb' 0 28 == 0) .clr
  else if opField w = 0x2 then ifReservedZero (w.extractLsb' 0 28 == 0) .encStart
  else if opField w = 0x3 then ifReservedZero (w.extractLsb' 8 20 == 0) (.encSym (symField w))
  else if opField w = 0x4 then ifReservedZero (w.extractLsb' 0 28 == 0) .encEnd
  else if opField w = 0x5 then ifReservedZero (w.extractLsb' 0 28 == 0) .decStart
  else if opField w = 0x6 then ifReservedZero (w.extractLsb' 6 22 == 0) (.decBits (countField w))
  else if opField w = 0x7 then ifReservedZero (w.extractLsb' 0 28 == 0) .decEnd
  else .error .reservedOpcode

/-- The command word of an instruction, built field by field from its format: OP, zeros, operand (R92 to
R94, R96). -/
def encode : Instr → Word
  | .nop => 0x0#4 ++ 0#28
  | .clr => 0x1#4 ++ 0#28
  | .encStart => 0x2#4 ++ 0#28
  | .encSym s => 0x3#4 ++ (0#20 ++ s)
  | .encEnd => 0x4#4 ++ 0#28
  | .decStart => 0x5#4 ++ 0#28
  | .decBits n => 0x6#4 ++ (0#22 ++ n)
  | .decEnd => 0x7#4 ++ 0#28

/-- A row of the opcode map (R96): a word selects it when `(w & mask) = pattern`. -/
structure OpcodeRow where
  mnemonic : String
  pattern : Word
  mask : Word
  deriving DecidableEq, Repr

/-- Does the word select the row? -/
def OpcodeRow.selects (r : OpcodeRow) (w : Word) : Bool := w &&& r.mask == r.pattern

/-- The row of each instruction (R96). -/
def Instr.row : Instr → OpcodeRow
  | .nop => ⟨"NOP", 0x00000000, 0xFFFFFFFF⟩
  | .clr => ⟨"CLR", 0x10000000, 0xFFFFFFFF⟩
  | .encStart => ⟨"ENC_START", 0x20000000, 0xFFFFFFFF⟩
  | .encSym _ => ⟨"ENC_SYM", 0x30000000, 0xFFFFFF00⟩
  | .encEnd => ⟨"ENC_END", 0x40000000, 0xFFFFFFFF⟩
  | .decStart => ⟨"DEC_START", 0x50000000, 0xFFFFFFFF⟩
  | .decBits _ => ⟨"DEC_BITS", 0x60000000, 0xFFFFFFC0⟩
  | .decEnd => ⟨"DEC_END", 0x70000000, 0xFFFFFFFF⟩

/-- The opcode map's eight rows, in the table's order (R96). -/
def opcodeRows : List OpcodeRow :=
  [Instr.row .nop, Instr.row .clr, Instr.row .encStart, Instr.row (.encSym 0), Instr.row .encEnd,
    Instr.row .decStart, Instr.row (.decBits 0), Instr.row .decEnd]

/-- The instruction the decoder reads from a table word of `nbits` bits (bits above are 0). A command is
one 32-bit word (R90), so the table's bit numbers are the word's own. -/
def decodeTableWord (nbits w : Nat) : Option Instr :=
  match decode (BitVec.ofNat 32 (w % 2 ^ nbits)) with
  | .ok i => some i
  | .error _ => none

end Sys2Proof
end

