-- ==== Sys2Proof/Config.lean ====
section
/-! DEFINITION. The implementation parameters of spec/00_scope.md R6. The numbered ones are the spec's
own values; BASE, BUS_BYTE_ORDER and BUS_ERROR_RESPONSE are OPEN there, so they are constants with no
body here (notes/assumptions/1, 2 and 3): nothing can be proved that depends on a value of theirs. -/

namespace Sys2Proof

/-- SYMQ_DEPTH (R6, R35): entries of the decoded-symbol queue. -/
abbrev Config.symqDepth : Nat := 64

/-- WORDQ_DEPTH (R6, R36): entries of the encoded-word queue. -/
abbrev Config.wordqDepth : Nat := 16

/-- N_MAX (R6, R93): the most payload bits one DEC_BITS consumes. -/
abbrev Config.nMax : Nat := 32

/-- N_NODES (R6, R30): entries of NODE. -/
abbrev Config.nNodes : Nat := 512

/-- N_SYM (R6): distinct symbols, and so entries of CODE_LEN (R33). -/
abbrev Config.nSym : Nat := 256

/-- CODE_WORDS (R6, R34): 32-bit words of code bits per symbol. -/
abbrev Config.codeWords : Nat := 8

/-- L_MAX (R6): the longest code the code table holds, in bits. -/
abbrev Config.lMax : Nat := 255

/-- The largest value of a CNT_W = 32 bit counter (R6, R7 `sat32`). -/
abbrev Config.cntMax : Nat := 2 ^ 32 - 1

/-- ROOT (R6, R32): the node index of the tree root. -/
abbrev Config.root : NodeIndex := 0

/-- WIN_SIZE (R6, R60): the window's size in bytes. -/
abbrev Config.winSize : Nat := 0x4000

/-- Which 16 KiB block of the bus address space the window is: OPEN (R60, 92 D24). -/
opaque Config.baseBlock : Nat

/-- BASE (R60): the bus address of window offset 0, "aligned to 16 KiB". -/
def Config.base : Nat := Config.winSize * Config.baseBlock

/-- The two byte-lane orders a 32-bit bus can have. -/
inductive ByteOrder where
  | littleEndian
  | bigEndian
  deriving DecidableEq, Repr, Inhabited

/-- BUS_BYTE_ORDER: OPEN (R63, 92 D25); no rule depends on it. -/
opaque Config.busByteOrder : ByteOrder

/-- BUS_ERROR_RESPONSE: OPEN (R62, 92 D40). An uninterpreted code for what the platform shows the host
on a refused access. -/
opaque Config.busErrorResponse : Nat

end Sys2Proof
end

