-- ==== Sys2Proof/Machine/State.lean ====
section
/-! DEFINITION. The state of the HCE: exactly the record of spec/10_state.md R20, and beside it the model's own
two fields for the host's side of the bus (what the host does next, what it has been answered;
notes/assumptions/4 and 5). All plain data. -/

namespace Sys2Proof.Machine

/-- SESSION (R24). The fourth value of the 2-bit field "never occurs" and has no constructor. -/
inductive Session where
  | idle
  | enc
  | dec
  deriving DecidableEq, Repr

/-- ERR (R26, R200): "A model's error type has exactly the ten values 0..9". -/
inductive ErrCode where
  /-- 0: no error recorded. -/
  | none
  /-- 1: the word decodes as ILLEGAL. -/
  | illegalCommand
  /-- 2: the command is not allowed in the current SESSION. -/
  | sequence
  /-- 3: DEC_BITS with N = 0 or N > 32. -/
  | badArg
  /-- 4: the output queue lacks room. -/
  | overflow
  /-- 5: a table write while SESSION ≠ IDLE. -/
  | tableLocked
  /-- 6: the walk met an invalid node or a child index of 0. -/
  | treeInvalid
  /-- 7: UnknownSymbolError. -/
  | unknownSymbol
  /-- 8: MalformedPayloadError. -/
  | malformedPayload
  /-- 9: EmptyInputError. -/
  | emptyInput
  deriving DecidableEq, Repr

/-- A table of 32-bit words (NODE, CODE_LEN or CODE_BITS) as a list of (entry index, word) pairs in one
canonical form: indices strictly rising, no word 0. An unlisted entry reads as 0, its value after reset
(R46). The cell is the 32-bit word: no smaller access is admitted and the byte order is OPEN (R62, R63;
notes/assumptions/6). -/
abbrev Memory := List (Nat × Word)

/-- The canonical form of a table with `size` entries. -/
abbrev Memory.wf (size : Nat) (m : Memory) : Prop :=
  m.Pairwise (fun a b => a.1 < b.1) ∧ ∀ c ∈ m, c.1 < size ∧ c.2 ≠ 0

/-- One host bus access (R5, R9): a read or write of `size` bytes at an offset in the window. The value of a
write that R62 refuses for its size is never used (notes/assumptions/14 and 15). -/
inductive Access where
  | read (size : Nat) (off : Offset)
  | write (size : Nat) (off : Offset) (v : Word)
  deriving DecidableEq, Repr

/-- What the outside does to the HCE next: one access, one burst of accesses (R62), or reset (R230). -/
inductive BusEvent where
  | access (a : Access)
  | burst (beats : List Access)
  | reset
  deriving DecidableEq, Repr

/-- What the HCE answers an access with (R5: "read data or bus error"). A refused read returns no data. -/
inductive Response where
  /-- An admitted read's data. -/
  | data (v : Word)
  /-- An admitted write is done. -/
  | done
  /-- The access is refused (R62). -/
  | busError
  deriving DecidableEq, Repr

/-- The state. The first fifteen fields are the record of R20, in its order. -/
structure State where
  /-- DATA (R22): host-written operand register. -/
  data : Word
  /-- SESSION (R24). -/
  session : Session
  /-- DONE (R25). -/
  done : Bool
  /-- ERR (R26). -/
  err : ErrCode
  /-- ERR_INFO (R26). -/
  errInfo : Word
  /-- WALK (R27): decoder walk position. -/
  walk : NodeIndex
  /-- ACC (R28): encoder bit accumulator. -/
  acc : Word
  /-- ACC_N (R28): bits held in ACC, 0..31. -/
  accN : BitVec 5
  /-- IN_CNT (R29), saturating. -/
  inCnt : Word
  /-- OUT_CNT (R29), saturating. -/
  outCnt : Word
  /-- NODE (R30): 512 entries, keyed by node index. -/
  node : Memory
  /-- CODE_LEN (R33): 256 entries, keyed by symbol. -/
  codeLen : Memory
  /-- CODE_BITS (R34): 256 × 8 entries, entry (s, k) keyed by 8·s + k. -/
  codeBits : Memory
  /-- SYMQ (R35): decoded-symbol queue, head first. -/
  symq : List Sym
  /-- WORDQ (R36): encoded-word queue, head first. -/
  wordq : List Word
  /-- MODEL'S OWN: the bus events still to come, next one first. -/
  pending : List BusEvent
  /-- MODEL'S OWN: the answers given so far, oldest first. -/
  responses : List Response
  deriving DecidableEq, Repr

/-- Reasons for a step to stop with a fault. NONE: the spec gives every event an outcome after which the HCE
goes on. A command's error is a status change (R204), and a bus error is an answer that leaves the state unchanged (R62;
DESIGN CHOICE, notes/assumptions/9). -/
inductive Fault : Type where
  deriving DecidableEq, Repr

/-- Reasons for an instruction to have no meaning. -/
inductive Refusal where
  /-- The instruction has no meaning in the model: raised by exec's arm alone (safe). No arm raises it. -/
  | notModelled (mnemonic : String)
  deriving DecidableEq, Repr

/-- The state right after reset: every element at its value in R46; the model's own two fields empty. -/
def State.reset : State where
  data := 0
  session := .idle
  done := false
  err := .none
  errInfo := 0
  walk := 0
  acc := 0
  accN := 0
  inCnt := 0
  outCnt := 0
  node := []
  codeLen := []
  codeBits := []
  symq := []
  wordq := []
  pending := []
  responses := []

end Sys2Proof.Machine
end

