-- ==== Sys2Proof/Machine/Operands.lean ====
section
/-! DEFINITION. Operand forms: a table's entries, the fields of a node word (R30), a symbol's code (R33, R34),
the payload bits of DATA (R95), and bit sequences packed first bit in bit 31 (R40). -/

namespace Sys2Proof.Machine

/-- `zext_32` (R7). -/
def zext32 (v : BitVec n) : Word := v.setWidth 32

/-- The word a table entry holds; an unlisted entry holds 0 (R31, R46). -/
def Memory.read : Memory → Nat → Word
  | [], _ => 0
  | (a, w) :: rest, i => if a = i then w else Memory.read rest i

/-- Store a word, keeping the canonical form: storing 0 removes the entry. -/
def Memory.write : Memory → Nat → Word → Memory
  | [], i, v => if v = 0 then [] else [(i, v)]
  | (a, w) :: rest, i, v =>
    if a < i then (a, w) :: Memory.write rest i v
    else if a = i then (if v = 0 then rest else (i, v) :: rest)
    else (if v = 0 then (a, w) :: rest else (i, v) :: (a, w) :: rest)

/-- `NODE[i]` (R9, R75). -/
def State.nodeWord (s : State) (i : NodeIndex) : Word := s.node.read i.toNat

/-- `CODE_LEN[c]` (R9, R75). -/
def State.codeLenWord (s : State) (c : Sym) : Word := s.codeLen.read c.toNat

/-- The key of CODE_BITS entry (c, k): its place in the table (R34, R61). -/
def codeBitsKey (c : Sym) (k : Nat) : Nat := Config.codeWords * c.toNat + k

/-- `CODE_BITS[c][k]` (R9, R75). -/
def State.codeBitsWord (s : State) (c : Sym) (k : Nat) : Word := s.codeBits.read (codeBitsKey c k)

/-- KIND, bits 31:30 of a node word (R30). -/
inductive NodeKind where
  | empty
  | leaf
  | internal
  | reserved
  deriving DecidableEq, Repr

/-- The KIND of a node word: 0b00 EMPTY, 0b01 LEAF, 0b10 INTERNAL, 0b11 reserved (R30). -/
def nodeKind (n : Word) : NodeKind :=
  if n.extractLsb' 30 2 = 0b00#2 then .empty
  else if n.extractLsb' 30 2 = 0b01#2 then .leaf
  else if n.extractLsb' 30 2 = 0b10#2 then .internal
  else .reserved

/-- LEFT, bits 8:0, of an INTERNAL node (R30). -/
def nodeLeft (n : Word) : NodeIndex := n.extractLsb' 0 9

/-- RIGHT, bits 24:16, of an INTERNAL node (R30). -/
def nodeRight (n : Word) : NodeIndex := n.extractLsb' 16 9

/-- SYM, bits 7:0, of a LEAF (R30). -/
def nodeSym (n : Word) : Sym := n.extractLsb' 0 8

/-- The child a payload bit selects: "0 → left child, 1 → right child" (R95, R170). -/
def nodeChild (n : Word) (b : Bool) : NodeIndex := if b then nodeRight n else nodeLeft n

/-- LEN, bits 7:0 of a CODE_LEN entry: the length of the symbol's code, 0 = "no entry" (R33). -/
def State.codeLength (s : State) (c : Sym) : Nat :=
  ((s.codeLenWord c).extractLsb' 0 8).toNat

/-- Code bit j of a symbol: `CODE_BITS[c][j div 32][31 − (j mod 32)]` (R34). -/
def State.codeBit (s : State) (c : Sym) (j : Nat) : Bool :=
  (s.codeBitsWord c (j / 32)).getLsbD (31 - j % 32)

/-- The code the table holds for a symbol, first bit first (R34). -/
def State.codeOf (s : State) (c : Sym) : List Bool :=
  (List.range (s.codeLength c)).map (s.codeBit c)

/-- The first `n` bits of a word, first bit in bit 31: bit i is `w[31 − i]` (R40, R95). -/
def leadingBits (w : Word) (n : Nat) : List Bool :=
  (List.range n).map fun i => w.getLsbD (31 - i)

/-- The payload bits of DEC_BITS N: DATA[31], DATA[30], …, DATA[32 − N] (R95, R173). -/
def State.dataBits (s : State) (n : Nat) : List Bool := leadingBits s.data n

/-- Lay a bit sequence out from bit position `room − 1` downwards, the bits below it 0. -/
def packFrom : Nat → List Bool → Word
  | 0, _ => 0
  | _ + 1, [] => 0
  | room + 1, b :: bs => (if b then 1#32 <<< room else 0) ||| packFrom room bs

/-- `pack(p)` (R101): bit `31 − i` is p_i for i < len(p), every other bit 0. -/
def packWord (p : List Bool) : Word := packFrom 32 p

/-- `word_k(c)` (R101): the k-th 32-bit word of a bit sequence, zero-padded. -/
def packedWord (c : List Bool) (k : Nat) : Word := packWord ((c.drop (32 * k)).take 32)

/-- The payload words of a bit sequence (R40): ceil(len / 32) of them, the last one zero-padded. -/
def payloadWords (p : List Bool) : List Word :=
  (List.range ((p.length + 31) / 32)).map (packedWord p)

end Sys2Proof.Machine
end

