-- ==== Sys2Proof/Machine/Flags.lean ====
section
/-! DEFINITION. The status values: the saturating counters (R29), the SESSION and ERR codes (R24, R200), and the
words STATUS and FIFO_STATUS (R38, R39). -/

namespace Sys2Proof.Machine

/-- `sat32(v)` = min(v, 2^32 − 1) (R7). -/
def sat32 (v : Nat) : Word := BitVec.ofNat 32 (min v Config.cntMax)

/-- One count step of a counter: `X <- sat32(X + 1)` (R29). -/
def satInc (x : Word) : Word := sat32 (x.toNat + 1)

/-- SESSION as STATUS[1:0] (R24). -/
def Session.code : Session → Word
  | .idle => 0b00
  | .enc => 0b01
  | .dec => 0b10

/-- ERR as STATUS[7:4] (R200). -/
def ErrCode.code : ErrCode → Word
  | .none => 0
  | .illegalCommand => 1
  | .sequence => 2
  | .badArg => 3
  | .overflow => 4
  | .tableLocked => 5
  | .treeInvalid => 6
  | .unknownSymbol => 7
  | .malformedPayload => 8
  | .emptyInput => 9

/-- DONE as one bit (R25). -/
def doneBit (d : Bool) : Word := if d then 1 else 0

/-- STATUS (R38). -/
def State.statusWord (s : State) : Word :=
  (zext32 s.walk <<< 16) ||| (zext32 s.accN <<< 8) ||| (s.err.code <<< 4) |||
    (doneBit s.done <<< 2) ||| s.session.code

/-- FIFO_STATUS (R39). -/
def State.fifoStatusWord (s : State) : Word :=
  (BitVec.ofNat 32 s.wordq.length <<< 16) ||| BitVec.ofNat 32 s.symq.length

/-- PARAMS, "read-only and constant" (R37). -/
def paramsWord : Word := 0x10400908

end Sys2Proof.Machine
end

