-- ==== Sys2Proof/Machine/Ops.lean ====
section
/-! DEFINITION. The named operations every command is made of: recording an error (R201, the HCE's form of taking
an exception) and clearing it (R124, R205), dispatch (R120, R123), and the primitives of the queues,
counters and accumulator (R29, R142, R171). -/

namespace Sys2Proof.Machine

/-- `record(E, v)` (R201): the first error since the last clear is kept, the session ends, DONE is 0. An
error "transfers no control" and saves nothing else (R204). -/
def record (e : ErrCode) (v : Word) (s : State) : State :=
  { s with
    err := if s.err = .none then e else s.err
    errInfo := if s.err = .none then v else s.errInfo
    session := .idle
    done := false }

/-- How a command's pseudocode ends: it runs through, or it raises E(info) in the state it has reached; what
it did before the raise point stands (R10). -/
inductive CommandResult where
  | completed (s : State)
  | raised (s : State) (e : ErrCode) (info : Word)
  deriving DecidableEq, Repr

/-- R10: after a raise "the error-recording rule applies"; a raise is never silent. -/
def CommandResult.settle : CommandResult → State
  | .completed s => s
  | .raised s e info => record e info s

/-- `session_clear()` (R124): DATA, SESSION and the tables stay. This is also what clears a recorded error:
there is no other return from one (R205). -/
def sessionClear (s : State) : State :=
  { s with
    done := false
    err := .none
    errInfo := 0
    walk := Config.root
    acc := 0
    accN := 0
    inCnt := 0
    outCnt := 0
    symq := []
    wordq := [] }

/-- The session-permission matrix `allowed(c, SESSION)` (R123). -/
def allowed : Instr → Session → Bool
  | .nop, _ => true
  | .clr, _ => true
  | .encStart, x => x == .idle
  | .encSym _, x => x == .enc
  | .encEnd, x => x == .enc
  | .decStart, x => x == .idle
  | .decBits _, x => x == .dec
  | .decEnd, x => x == .dec

/-- R120 for a word that decodes: refuse the command with SEQUENCE where it is not allowed, else perform it,
`w` "still bound to the written word": the command's own word (DEDUCED, notes/assumptions/11). -/
def runCommand (i : Instr) (perform : Word → State → CommandResult) (s : State) :
    Host.Outcome State Fault Refusal :=
  .next <|
    if allowed i s.session then (perform (encode i) s).settle
    else record .sequence (encode i) s

/-- Count one input: `IN_CNT <- sat32(IN_CNT + 1)` (R29). -/
def countIn (s : State) : State := { s with inCnt := satInc s.inCnt }

/-- Count one output: `OUT_CNT <- sat32(OUT_CNT + 1)` (R29). -/
def countOut (s : State) : State := { s with outCnt := satInc s.outCnt }

/-- `push SYMQ c` (R9). -/
def pushSym (c : Sym) (s : State) : State := { s with symq := s.symq ++ [c] }

/-- `push WORDQ w` (R9). -/
def pushWord (w : Word) (s : State) : State := { s with wordq := s.wordq ++ [w] }

/-- `emit(c)` (R171): the decoder's output of one symbol. -/
def emit (c : Sym) (s : State) : State := countOut (pushSym c s)

/-- `v[i] <- b`. -/
def setBit (v : Word) (i : Nat) (b : Bool) : Word :=
  if b then v ||| (1#32 <<< i) else v &&& ~~~(1#32 <<< i)

/-- `append_bit(b)` (R142): the encoder's output of one payload bit. -/
def appendBit (s : State) (b : Bool) : State :=
  let t := countOut { s with acc := setBit s.acc (31 - s.accN.toNat) b }
  if s.accN = 31 then { pushWord t.acc t with acc := 0, accN := 0 }
  else { t with accN := s.accN + 1 }

/-- Append a code's bits in order (R145). -/
def appendBits (s : State) (bits : List Bool) : State := bits.foldl appendBit s

/-- `pushes(L) = (ACC_N + L) div 32`: the words one ENC_SYM with an L-bit code pushes (R143). -/
def State.pushes (s : State) (len : Nat) : Nat := (s.accN.toNat + len) / 32

/-- Push the held partial word, if there is one, and empty the accumulator (R146). -/
def flushPartial (s : State) : State :=
  if s.accN = 0 then s else { pushWord s.acc s with acc := 0, accN := 0 }

/-- A session's successful end: `SESSION <- IDLE; DONE <- 1` (R146, R174). -/
def endSession (s : State) : State := { s with session := .idle, done := true }

/-- `walk_step(b)` (R170): consume one payload bit. It raises before it has had any effect. -/
def walkStep (b : Bool) (s : State) : CommandResult :=
  let n := s.nodeWord s.walk
  match nodeKind n with
  | .empty => .raised s .treeInvalid (zext32 s.walk)
  | .reserved => .raised s .treeInvalid (zext32 s.walk)
  | .leaf =>
    if b then .raised s .malformedPayload 0x80000000
    else .completed (emit (nodeSym n) s)
  | .internal =>
    let c := nodeChild n b
    if c = 0 then .raised s .treeInvalid (0x80000000 ||| zext32 s.walk)
    else
      match nodeKind (s.nodeWord c) with
      | .empty => .raised s .treeInvalid (zext32 c)
      | .reserved => .raised s .treeInvalid (zext32 c)
      | .leaf => .completed { emit (nodeSym (s.nodeWord c)) s with walk := 0 }
      | .internal => .completed { s with walk := c }

/-- DEC_BITS' loop (R173): walk the bits in order, counting each one fully walked; "a raise stops the loop
here". -/
def walkBits : List Bool → State → CommandResult
  | [], s => .completed s
  | b :: bs, s =>
    match walkStep b s with
    | .completed t => walkBits bs (countIn t)
    | .raised t e info => .raised t e info

end Sys2Proof.Machine
end

