-- ==== Sys2Proof/Machine/Control.lean ====
section
/-! DEFINITION. The control commands NOP and CLR (spec/40_control.md R121, R122). -/

namespace Sys2Proof.Machine

/-- NOP (R121): nothing. -/
def execNop (s : State) : Host.Outcome State Fault Refusal :=
  runCommand .nop (fun _ t => .completed t) s

/-- CLR (R122): abandon any session and clear all session state. -/
def execClr (s : State) : Host.Outcome State Fault Refusal :=
  runCommand .clr (fun _ t => .completed { sessionClear t with session := .idle }) s

end Sys2Proof.Machine
end

