-- ==== Sys2Proof/Machine/DecodePath.lean ====
section
/-! DEFINITION. The decoder's commands DEC_START, DEC_BITS and DEC_END (spec/42_decode.md R172 to R174). -/

namespace Sys2Proof.Machine

/-- DEC_START (R172): open a decode session. -/
def execDecStart (s : State) : Host.Outcome State Fault Refusal :=
  runCommand .decStart (fun _ t => .completed { sessionClear t with session := .dec }) s

/-- DEC_BITS' pseudocode (R173). -/
def consumeBits (n : Nat) (w : Word) (s : State) : CommandResult :=
  if n = 0 ∨ n > Config.nMax then .raised s .badArg w
  else if s.symq.length + n > Config.symqDepth then .raised s .overflow w
  else walkBits (s.dataBits n) s

/-- DEC_BITS N (R173): consume N payload bits from DATA. -/
def execDecBits (n : BitVec 6) (s : State) : Host.Outcome State Fault Refusal :=
  runCommand (.decBits n) (consumeBits n.toNat) s

/-- DEC_END's pseudocode (R174): "ends mid-path" is MALFORMED_PAYLOAD; an empty payload is accepted
(spec/90_conflicts.md C1). -/
def finishDecoding (s : State) : CommandResult :=
  if s.walk ≠ 0 then .raised s .malformedPayload (zext32 s.walk)
  else .completed (endSession s)

/-- DEC_END (R174): finish the decode session. -/
def execDecEnd (s : State) : Host.Outcome State Fault Refusal :=
  runCommand .decEnd (fun _ t => finishDecoding t) s

end Sys2Proof.Machine
end

