-- ==== Sys2Proof/Machine/EncodePath.lean ====
section
/-! DEFINITION. The encoder's commands ENC_START, ENC_SYM and ENC_END (spec/41_encode.md R144 to R146). -/

namespace Sys2Proof.Machine

/-- ENC_START (R144): open an encode session. -/
def execEncStart (s : State) : Host.Outcome State Fault Refusal :=
  runCommand .encStart (fun _ t => .completed { sessionClear t with session := .enc }) s

/-- ENC_SYM's pseudocode (R145). -/
def encodeSymbol (c : Sym) (w : Word) (s : State) : CommandResult :=
  if s.codeLength c = 0 then .raised s .unknownSymbol (zext32 c)
  else if s.wordq.length + s.pushes (s.codeLength c) > Config.wordqDepth then .raised s .overflow w
  else .completed (countIn (appendBits s (s.codeOf c)))

/-- ENC_SYM S (R145): encode one symbol. -/
def execEncSym (c : Sym) (s : State) : Host.Outcome State Fault Refusal :=
  runCommand (.encSym c) (encodeSymbol c) s

/-- ENC_END's pseudocode (R146). -/
def finishEncoding (w : Word) (s : State) : CommandResult :=
  if s.inCnt = 0 then .raised s .emptyInput 0
  else if s.accN ≠ 0 ∧ s.wordq.length = Config.wordqDepth then .raised s .overflow w
  else .completed (endSession (flushPartial s))

/-- ENC_END (R146): finish the encode session. -/
def execEncEnd (s : State) : Host.Outcome State Fault Refusal :=
  runCommand .encEnd finishEncoding s

end Sys2Proof.Machine
end

