-- ==== Sys2Proof/Machine/Bus.lean ====
section
/-! DEFINITION. The register window (spec/20_memory.md): which accesses are admitted (R62), what an offset means
(R45, R61), reads (R64), writes (R65, R66), and the events of the bus (R5). -/

namespace Sys2Proof.Machine

/-- The registers of the register block (R45). -/
inductive Reg where
  | params
  | cmd
  | data
  | status
  | fifoStatus
  | symOut
  | wordOut
  | inCnt
  | outCnt
  | acc
  | errInfo
  /-- 0x02C to 0x7FC: "reads 0, writes ignored". -/
  | reserved
  deriving DecidableEq, Repr

/-- The register at an aligned offset below 0x800 (R45). -/
def regAt (off : Nat) : Reg :=
  if off = 0x000 then .params
  else if off = 0x004 then .cmd
  else if off = 0x008 then .data
  else if off = 0x00C then .status
  else if off = 0x010 then .fifoStatus
  else if off = 0x014 then .symOut
  else if off = 0x018 then .wordOut
  else if off = 0x01C then .inCnt
  else if off = 0x020 then .outCnt
  else if off = 0x024 then .acc
  else if off = 0x028 then .errInfo
  else .reserved

/-- What an aligned offset stands for (R61). -/
inductive Region where
  | reg (r : Reg)
  | nodeE (i : NodeIndex)
  | lenE (c : Sym)
  | bitsE (c : Sym) (k : BitVec 3)
  | reserved
  deriving DecidableEq, Repr

/-- `region(off)` (R61). -/
def region (off : Offset) : Region :=
  let o := off.toNat
  if o < 0x0800 then .reg (regAt o)
  else if o < 0x1000 then .nodeE (BitVec.ofNat 9 ((o - 0x0800) / 4))
  else if o < 0x1400 then .lenE (BitVec.ofNat 8 ((o - 0x1000) / 4))
  else if o < 0x2000 then .reserved
  else .bitsE (BitVec.ofNat 8 ((o - 0x2000) / 32)) (BitVec.ofNat 3 ((o - 0x2000) % 32 / 4))

/-- CMD's offset (R45). -/
def cmdOffset : Offset := 0x004

/-- DATA's offset (R45). -/
def dataOffset : Offset := 0x008

/-- "Only aligned 32-bit accesses are admitted: size 4 bytes, off mod 4 = 0" (R62). -/
def admitted (size : Nat) (off : Offset) : Bool := size == 4 && off.toNat % 4 == 0

/-- Is the access admitted (R62)? -/
def Access.admitted : Access → Bool
  | .read size off => Machine.admitted size off
  | .write size off _ => Machine.admitted size off

/-- A read of SYM_OUT pops SYMQ; an empty read returns 0 with no side effect (R41). -/
def readSymOut (s : State) : Word × State :=
  match s.symq with
  | [] => (0, s)
  | c :: rest => (0x80000000 ||| zext32 c, { s with symq := rest })

/-- A read of WORD_OUT pops WORDQ; an empty read returns 0 with no side effect (R42). -/
def readWordOut (s : State) : Word × State :=
  match s.wordq with
  | [] => (0, s)
  | w :: rest => (w, { s with wordq := rest })

/-- A read of a register (R45): the view's value and the state after the read's side effect. -/
def readReg (r : Reg) (s : State) : Word × State :=
  match r with
  | .params => (paramsWord, s)
  | .cmd => (0, s)
  | .data => (s.data, s)
  | .status => (s.statusWord, s)
  | .fifoStatus => (s.fifoStatusWord, s)
  | .symOut => readSymOut s
  | .wordOut => readWordOut s
  | .inCnt => (s.inCnt, s)
  | .outCnt => (s.outCnt, s)
  | .acc => (s.acc, s)
  | .errInfo => (s.errInfo, s)
  | .reserved => (0, s)

/-- `MemRead(off, 4)` (R64). -/
def memRead (off : Offset) (s : State) : Word × State :=
  match region off with
  | .reg r => readReg r s
  | .nodeE i => (s.nodeWord i, s)
  | .lenE c => (s.codeLenWord c, s)
  | .bitsE c k => (s.codeBitsWord c k.toNat, s)
  | .reserved => (0, s)

/-- `execute(w)` (R120): a word that does not decode raises ILLEGAL_COMMAND(w) in every session state (R98);
one that does is run by its own meaning, which makes the SESSION check first. -/
def execute (w : Word) (s : State) : Host.Outcome State Fault Refusal :=
  match decode w with
  | .ok i => exec i s
  | .error _ => .next (record .illegalCommand w s)

/-- `table_write` (R66): stored in IDLE; in an open session refused, and the session ends with
TABLE_LOCKED. -/
def tableWrite (store : State → State) (off : Offset) (s : State) : State :=
  if s.session = .idle then store s else record .tableLocked (zext32 off) s

/-- `NODE[i] <- v`. -/
def storeNode (i : NodeIndex) (v : Word) (s : State) : State :=
  { s with node := s.node.write i.toNat v }

/-- `CODE_LEN[c] <- v`. -/
def storeCodeLen (c : Sym) (v : Word) (s : State) : State :=
  { s with codeLen := s.codeLen.write c.toNat v }

/-- `CODE_BITS[c][k] <- v`. -/
def storeCodeBits (c : Sym) (k : Nat) (v : Word) (s : State) : State :=
  { s with codeBits := s.codeBits.write (codeBitsKey c k) v }

/-- A write to a register (R65): CMD executes the word, DATA takes it, every other one ignores it. -/
def writeReg (r : Reg) (v : Word) (s : State) : Host.Outcome State Fault Refusal :=
  match r with
  | .cmd => execute v s
  | .data => .next { s with data := v }
  | .params => .next s
  | .status => .next s
  | .fifoStatus => .next s
  | .symOut => .next s
  | .wordOut => .next s
  | .inCnt => .next s
  | .outCnt => .next s
  | .acc => .next s
  | .errInfo => .next s
  | .reserved => .next s

/-- `MemWrite(off, 4, v)` (R65). -/
def memWrite (off : Offset) (v : Word) (s : State) : Host.Outcome State Fault Refusal :=
  match region off with
  | .reg r => writeReg r v s
  | .nodeE i => .next (tableWrite (storeNode i v) off s)
  | .lenE c => .next (tableWrite (storeCodeLen c v) off s)
  | .bitsE c k => .next (tableWrite (storeCodeBits c k.toNat v) off s)
  | .reserved => .next s

/-- Go on from a next state; a fault or a refusal stays what it is. -/
def andThen (o : Host.Outcome State Fault Refusal)
    (f : State → Host.Outcome State Fault Refusal) : Host.Outcome State Fault Refusal :=
  match o with
  | .next s => f s
  | .fault r => .fault r
  | .refused r => .refused r

/-- Answer the host. -/
def reply (r : Response) (s : State) : State := { s with responses := s.responses ++ [r] }

/-- One host access. A refused one "changes no state", and a refused read "returns no data" (R62). -/
def performAccess (a : Access) (s : State) : Host.Outcome State Fault Refusal :=
  if a.admitted then
    match a with
    | .read _ off => .next (reply (.data (memRead off s).1) (memRead off s).2)
    | .write _ off v => andThen (memWrite off v s) fun t => .next (reply .done t)
  else .next (reply .busError s)

/-- Accesses one at a time, in the order they reach the HCE (R69). -/
def performAccesses : List Access → State → Host.Outcome State Fault Refusal
  | [], s => .next s
  | a :: rest, s => andThen (performAccess a s) (performAccesses rest)

/-- Reset (R230): every state element takes its value in R46. What the host still has to do and what it has
been answered are not the HCE's, and stay (notes/assumptions/13). -/
def resetEvent (s : State) : State :=
  { State.reset with pending := s.pending, responses := s.responses }

/-- One event of the bus (R5). A burst not made of aligned single words is refused whole (R62); one that is
acts as its accesses in order (DEDUCED, notes/assumptions/7). -/
def performEvent (e : BusEvent) (s : State) : Host.Outcome State Fault Refusal :=
  match e with
  | .access a => performAccess a s
  | .burst beats =>
    if beats.all Access.admitted then performAccesses beats s else .next (reply .busError s)
  | .reset => .next (resetEvent s)

/-- Events one after another. -/
def performEvents : List BusEvent → State → Host.Outcome State Fault Refusal
  | [], s => .next s
  | e :: rest, s => andThen (performEvent e s) (performEvents rest)

/-- The host write of a command's word to CMD. -/
def commandWrite (i : Instr) : Access := .write 4 cmdOffset (encode i)

/-- The offset a bus address names: "The HCE decodes no bus address outside the window" (R60). -/
def offsetAt (address : Nat) : Option Offset :=
  if Config.base ≤ address ∧ address < Config.base + Config.winSize then
    some (BitVec.ofNat 14 (address - Config.base))
  else none

/-- The bus address of an offset: BASE + off (R60). -/
def addressOf (off : Offset) : Nat := Config.base + off.toNat

/-- The byte lanes of a word on the bus, lane of the lowest address first, as BUS_BYTE_ORDER orders them
(R63). No other definition uses it: "No rule depends on it". -/
def busLanes (w : Word) : List (BitVec 8) :=
  let bytes := [w.extractLsb' 0 8, w.extractLsb' 8 8, w.extractLsb' 16 8, w.extractLsb' 24 8]
  match Config.busByteOrder with
  | .littleEndian => bytes
  | .bigEndian => bytes.reverse

/-- What the host observes of an access: the data of a read, the completion of a write, or the platform's
BUS_ERROR_RESPONSE (R62). -/
inductive HostView where
  | data (v : Word)
  | done
  | platform (code : Nat)
  deriving DecidableEq, Repr

/-- The host's view of an answer (R62). -/
def hostView : Response → HostView
  | .data v => .data v
  | .done => .done
  | .busError => .platform Config.busErrorResponse

end Sys2Proof.Machine
end

