-- ==== Sys2Proof/Machine/Step.lean ====
section
/-! DEFINITION. One step of the machine: the next bus event happens (spec/00_scope.md R5). "The engine has no step
of its own and no event happens between two host accesses": with nothing pending, nothing changes. -/

namespace Sys2Proof.Machine

/-- One step (R5, R68, R69): take the next bus event and perform it, completely. -/
def step (s : State) : Host.Outcome State Fault Refusal :=
  match s.pending with
  | [] => .next s
  | e :: rest => performEvent e { s with pending := rest }

/-- The state whose very next step runs the command word `w`: a host write of it to CMD stands first among
the pending events (notes/assumptions/8). The HCE fetches nothing itself (R23). -/
def State.withFetchWord (s : State) (nbits w : Nat) : State :=
  { s with
    pending := .access (.write 4 cmdOffset (BitVec.ofNat 32 (w % 2 ^ nbits))) :: s.pending }

end Sys2Proof.Machine
end

