-- ==== Sys2Proof/Machine/HuffTree.lean ====
section
/-! DEFINITION. What the spec says of the tables the host loads: the tree in NODE (WF, spec/41_encode.md R141), the
codes it gives (derive and Match, R140), and the walk as a function of the tree and the bits alone
(`walk*`, spec/42_decode.md R175). The HCE computes none of these; its laws are stated with them. -/

namespace Sys2Proof.Machine

/-- `NODE[i]` in a node table. -/
def entry (m : Memory) (i : NodeIndex) : Word := m.read i.toNat

/-- `NODE[i].KIND` in a node table. -/
def kindAt (m : Memory) (i : NodeIndex) : NodeKind := nodeKind (entry m i)

/-- The child of node i on bit b. -/
def childAt (m : Memory) (i : NodeIndex) (b : Bool) : NodeIndex := nodeChild (entry m i) b

/-- `NODE[i].SYM` in a node table. -/
def symAt (m : Memory) (i : NodeIndex) : Sym := nodeSym (entry m i)

/-- The node a path leads to from node i: each bit of the path leaves an INTERNAL node (R8). -/
def follow (m : Memory) (i : NodeIndex) : List Bool → Option NodeIndex
  | [] => some i
  | b :: bs => if kindAt m i = .internal then follow m (childAt m i b) bs else none

/-- A LEAF or an INTERNAL node: a valid one (R31). -/
def ValidKind (k : NodeKind) : Prop := k = .leaf ∨ k = .internal

/-- `WF(NODE)` (R141), the conditions (a) to (e). A path that revisits a node gives that node two different
paths, so `onePath` is the whole of (c). -/
structure WellFormedTree (m : Memory) : Prop where
  /-- (a) -/
  root : ValidKind (kindAt m 0)
  /-- (b) -/
  children : ∀ path i, follow m 0 path = some i → kindAt m i = .internal →
    ∀ b, childAt m i b ≠ 0 ∧ ValidKind (kindAt m (childAt m i b))
  /-- (c) -/
  onePath : ∀ p q i, follow m 0 p = some i → follow m 0 q = some i → p = q
  /-- (d) -/
  distinctSymbols : ∀ p q i j, follow m 0 p = some i → follow m 0 q = some j →
    kindAt m i = .leaf → kindAt m j = .leaf → symAt m i = symAt m j → i = j
  /-- (e) -/
  depth : ∀ path i, follow m 0 path = some i → kindAt m i = .leaf → path.length ≤ Config.lMax

/-- `visit(i, p)` of R140, at most `fuel` levels deep: the codes below node i, left ones first. -/
def visit (m : Memory) : Nat → NodeIndex → List Bool → List (Sym × List Bool)
  | 0, i, p => if kindAt m i = .leaf then [(symAt m i, p)] else []
  | fuel + 1, i, p =>
    if kindAt m i = .leaf then [(symAt m i, p)]
    else if kindAt m i = .internal then
      visit m fuel (childAt m i false) (p ++ [false]) ++ visit m fuel (childAt m i true) (p ++ [true])
    else []

/-- `derive(NODE)` (R140) as the list of its pairs. A well-formed tree is at most L_MAX levels deep
(R141 (e)), so the depth bound loses nothing (DEDUCED, notes/assumptions/12). -/
def deriveCodes (m : Memory) : List (Sym × List Bool) :=
  if kindAt m 0 = .leaf then [(symAt m 0, [false])] else visit m Config.lMax 0 []

/-- `Match(NODE, CODE_LEN, CODE_BITS)` (R140). -/
def TablesMatch (s : State) : Prop :=
  ∀ c : Sym,
    (∀ code, (c, code) ∈ deriveCodes s.node →
      s.codeLength c = code.length ∧ ∀ j (h : j < code.length), s.codeBit c j = code[j]) ∧
    ((∀ code, (c, code) ∉ deriveCodes s.node) → s.codeLength c = 0)

/-- One bit of the walk as a function of the tree (R170): the new walk position and the symbol emitted, or
the error raised. -/
def branch (m : Memory) (pos : NodeIndex) (b : Bool) :
    Except (ErrCode × Word) (NodeIndex × Option Sym) :=
  match kindAt m pos with
  | .empty => .error (.treeInvalid, zext32 pos)
  | .reserved => .error (.treeInvalid, zext32 pos)
  | .leaf => if b then .error (.malformedPayload, 0x80000000) else .ok (pos, some (symAt m pos))
  | .internal =>
    if childAt m pos b = 0 then .error (.treeInvalid, 0x80000000 ||| zext32 pos)
    else
      match kindAt m (childAt m pos b) with
      | .empty => .error (.treeInvalid, zext32 (childAt m pos b))
      | .reserved => .error (.treeInvalid, zext32 (childAt m pos b))
      | .leaf => .ok (0, some (symAt m (childAt m pos b)))
      | .internal => .ok (childAt m pos b, none)

/-- What a walk did: the symbols it emitted, where it stands, how many bits it walked fully, and the error
that stopped it, if one did. -/
structure WalkRun where
  syms : List Sym
  pos : NodeIndex
  walked : Nat
  raised : Option (ErrCode × Word)
  deriving DecidableEq, Repr

/-- `walk*` (R175): R170 applied to the bits in order, from a walk position. -/
def walkStar (m : Memory) (pos : NodeIndex) : List Bool → WalkRun
  | [] => ⟨[], pos, 0, none⟩
  | b :: bs =>
    match branch m pos b with
    | .error e => ⟨[], pos, 0, some e⟩
    | .ok (next, out) =>
      { walkStar m next bs with
        syms := out.toList ++ (walkStar m next bs).syms
        walked := (walkStar m next bs).walked + 1 }

end Sys2Proof.Machine
end

