-- ==== Sys2Proof/Syntax/HostLine.lean ====
section
/-! DEFINITION. The host program syntax of spec/30_encoding.md R100 and its pseudo-instructions (R101),
as terms: operands are plain numbers and bit strings, so a term may be out of range, and
WellFormed.lean says which are in range ("The assembler refuses an operand out of the stated range;
it never truncates one"). -/

namespace Sys2Proof

/-- A line of a host program. A character literal is its 8-bit ASCII code (R100). -/
inductive HostLine where
  /-- `wr <off>, <v>` -/
  | wr (off v : Nat)
  /-- `rd <off>` -/
  | rd (off : Nat)
  /-- `rd <off> == <v>`: a read with an expected value, for test programs. -/
  | rdExpect (off v : Nat)
  | nop
  | clr
  | encStart
  | encEnd
  | decStart
  | decEnd
  /-- `ENC_SYM <s>` -/
  | encSym (s : Nat)
  /-- `DEC_BITS <n>` -/
  | decBits (n : Nat)
  /-- `NODE_LEAF <i>, <s>` -/
  | nodeLeaf (i s : Nat)
  /-- `NODE_INT <i>, <l>, <r>` -/
  | nodeInt (i l r : Nat)
  /-- `NODE_CLEAR <i>` -/
  | nodeClear (i : Nat)
  /-- `CODE <s>, "<c>"` -/
  | code (s : Nat) (c : List Bool)
  /-- `CODE_CLEAR <s>` -/
  | codeClear (s : Nat)
  /-- `DEC_FEED "<p>"` -/
  | decFeed (p : List Bool)
  /-- `ENC_STR "<t>"` -/
  | encStr (t : List Nat)
  deriving DecidableEq, Repr

end Sys2Proof
end

