-- ==== Sys2Proof/WellFormed.lean ====
section
/-! DEFINITION. Operand range checks. A term of `Instr` always fits its encoding, because its operand fields
have their exact widths; which DEC_BITS counts are legal when executed is `Instr.operandLegal`
(spec/30_encoding.md R93). `HostLine.wf` is the assembler's range check (R100, R101). -/

namespace Sys2Proof

/-- R93: "The legal values are 1..32 (N_MAX = 32)"; every value of S is a legal encoding (R94). -/
def Instr.operandLegal : Instr → Bool
  | .decBits n => decide (1 ≤ n.toNat) && decide (n.toNat ≤ Config.nMax)
  | .nop => true
  | .clr => true
  | .encStart => true
  | .encSym _ => true
  | .encEnd => true
  | .decStart => true
  | .decEnd => true

/-- The operand ranges the tables of R100 and R101 state. The range of `wr` and `rd` is that of an offset
and a 32-bit value (R60, R7; DEDUCED, notes/assumptions/10: R100 states none). -/
def HostLine.wf : HostLine → Bool
  | .wr off v => decide (off < Config.winSize) && decide (v < 2 ^ 32)
  | .rd off => decide (off < Config.winSize)
  | .rdExpect off v => decide (off < Config.winSize) && decide (v < 2 ^ 32)
  | .nop => true
  | .clr => true
  | .encStart => true
  | .encEnd => true
  | .decStart => true
  | .decEnd => true
  | .encSym s => decide (s < Config.nSym)
  | .decBits n => decide (n < 64)
  | .nodeLeaf i s => decide (i < Config.nNodes) && decide (s < Config.nSym)
  | .nodeInt i l r => decide (i < Config.nNodes) && decide (l < Config.nNodes) && decide (r < Config.nNodes)
  | .nodeClear i => decide (i < Config.nNodes)
  | .code s c => decide (s < Config.nSym) && decide (1 ≤ c.length) && decide (c.length ≤ Config.lMax)
  | .codeClear s => decide (s < Config.nSym)
  | .decFeed p => decide (1 ≤ p.length) && decide (p.length ≤ Config.nMax)
  | .encStr t => t.all fun s => decide (s < Config.nSym)

end Sys2Proof
end

