-- ==== Sys2Proof/Machine/Assembler.lean ====
section
/-! DEFINITION. What a line of a host program stands for (spec/30_encoding.md R100, R101): its host accesses. -/

namespace Sys2Proof.Machine

/-- The offset of a register's name (R45, R100); the reserved block has no name, and stands for its first
offset here. -/
def Reg.offset : Reg → Nat
  | .params => 0x000
  | .cmd => 0x004
  | .data => 0x008
  | .status => 0x00C
  | .fifoStatus => 0x010
  | .symOut => 0x014
  | .wordOut => 0x018
  | .inCnt => 0x01C
  | .outCnt => 0x020
  | .acc => 0x024
  | .errInfo => 0x028
  | .reserved => 0x02C

/-- `wr <off>, <v>` (R100). -/
def lineWrite (off v : Nat) : Access := .write 4 (BitVec.ofNat 14 off) (BitVec.ofNat 32 v)

/-- `rd <off>` (R100). -/
def lineRead (off : Nat) : Access := .read 4 (BitVec.ofNat 14 off)

/-- A node word of kind LEAF: `0x4000_0000 | s` (R101). -/
def leafWord (c : Sym) : Word := 0x40000000 ||| zext32 c

/-- A node word of kind INTERNAL: `0x8000_0000 | (r << 16) | l` (R101). -/
def internalWord (l r : NodeIndex) : Word := 0x80000000 ||| (zext32 r <<< 16) ||| zext32 l

/-- `NODE_LEAF`'s, `NODE_INT`'s and `NODE_CLEAR`'s write of a NODE entry (R101). -/
def writeNode (i : Nat) (w : Word) : Access := .write 4 (BitVec.ofNat 14 (0x0800 + 4 * i)) w

/-- The write of a CODE_LEN entry (R101). -/
def writeCodeLen (c : Nat) (w : Word) : Access := .write 4 (BitVec.ofNat 14 (0x1000 + 4 * c)) w

/-- The write of a CODE_BITS entry (R101). -/
def writeCodeBits (c k : Nat) (w : Word) : Access :=
  .write 4 (BitVec.ofNat 14 (0x2000 + 32 * c + 4 * k)) w

/-- `DEC_FEED "<p>"` (R101): write DATA, then DEC_BITS. -/
def feedAccesses (p : List Bool) : List Access :=
  [.write 4 dataOffset (packWord p), commandWrite (.decBits (BitVec.ofNat 6 p.length))]

/-- The accesses of a line (R100, R101); meant for a line in range (`HostLine.wf`). -/
def lineAccesses : HostLine → List Access
  | .wr off v => [lineWrite off v]
  | .rd off => [lineRead off]
  | .rdExpect off _ => [lineRead off]
  | .nop => [commandWrite .nop]
  | .clr => [commandWrite .clr]
  | .encStart => [commandWrite .encStart]
  | .encEnd => [commandWrite .encEnd]
  | .decStart => [commandWrite .decStart]
  | .decEnd => [commandWrite .decEnd]
  | .encSym c => [commandWrite (.encSym (BitVec.ofNat 8 c))]
  | .decBits n => [commandWrite (.decBits (BitVec.ofNat 6 n))]
  | .nodeLeaf i c => [writeNode i (leafWord (BitVec.ofNat 8 c))]
  | .nodeInt i l r => [writeNode i (internalWord (BitVec.ofNat 9 l) (BitVec.ofNat 9 r))]
  | .nodeClear i => [writeNode i 0]
  | .code c bits =>
    writeCodeLen c (BitVec.ofNat 32 bits.length) ::
      (List.range ((bits.length + 31) / 32)).map fun k => writeCodeBits c k (packedWord bits k)
  | .codeClear c => [writeCodeLen c 0]
  | .decFeed p => feedAccesses p
  | .encStr t => t.map fun c => commandWrite (.encSym (BitVec.ofNat 8 c))

/-- A line assembled: refused out of range, never truncated (R100). -/
def assemble (l : HostLine) : Option (List Access) :=
  if l.wf then some (lineAccesses l) else none

/-- The answer a line expects of its one read (`rd <off> == <v>`, R100). -/
def expectedAnswer : HostLine → Option Response
  | .rdExpect _ v => some (.data (BitVec.ofNat 32 v))
  | _ => none

end Sys2Proof.Machine
end

