-- ==== Sys2Proof/Machine/Session.lean ====
section
/-! DEFINITION. The vocabulary of the session laws (spec/41_encode.md R147, spec/42_decode.md R175, R176 and
spec/70_reset_and_hazards.md R246): the host's scripts, what its reads take out of the queues, and when a
session ends, whether it ends successfully, and what its output is (R247). -/

namespace Sys2Proof.Machine

/-- An event as single events in order: a burst of aligned single words is its accesses, any other burst is
refused whole and stays one event (R62, notes/assumptions/7). -/
def BusEvent.singles : BusEvent → List BusEvent
  | .access a => [.access a]
  | .burst beats => if beats.all Access.admitted then beats.map .access else [.burst beats]
  | .reset => [.reset]

/-- Events as single events, in order. -/
def singleEvents (events : List BusEvent) : List BusEvent := events.flatMap BusEvent.singles

/-- A host read, of whatever kind; a burst of reads that stays one event is refused. -/
def BusEvent.isRead : BusEvent → Bool
  | .access (.read _ _) => true
  | .access (.write _ _ _) => false
  | .burst beats => beats.all fun | .read _ _ => true | .write _ _ _ => false
  | .reset => false

/-- The host's writes among the events, in a burst or not: what is left when its reads are taken out. -/
def writesOf (events : List BusEvent) : List BusEvent :=
  (singleEvents events).filter fun e => !e.isRead

/-- Is this single event an admitted read of the register `r`? (A burst that is a single event is refused.) -/
def BusEvent.reads (r : Reg) : BusEvent → Bool
  | .access (.read size off) => admitted size off && region off == .reg r
  | .access (.write _ _ _) => false
  | .burst _ => false
  | .reset => false

/-- The word a single event takes out of WORDQ (R42). -/
def wordTaken (e : BusEvent) (s : State) : List Word :=
  if e.reads .wordOut then s.wordq.take 1 else []

/-- The symbol a single event takes out of SYMQ (R41). -/
def symTaken (e : BusEvent) (s : State) : List Sym :=
  if e.reads .symOut then s.symq.take 1 else []

/-- What single events take, one after another, each from the state it meets. -/
def taken (takes : BusEvent → State → List α) : List BusEvent → State → List α
  | [], _ => []
  | e :: rest, s =>
    match performEvent e s with
    | .next t => takes e s ++ taken takes rest t
    | .fault _ => []
    | .refused _ => []

/-- The payload words the host takes out of WORDQ during the events, in order, burst reads included. -/
def wordsTaken (events : List BusEvent) (s : State) : List Word := taken wordTaken (singleEvents events) s

/-- The symbols the host takes out of SYMQ during the events, in order, burst reads included. -/
def symsTaken (events : List BusEvent) (s : State) : List Sym := taken symTaken (singleEvents events) s

/-- Is the access an admitted write to CMD or to a table: the kind at which a session ends (R247)? -/
def Access.isCmdOrTableWrite : Access → Bool
  | .read _ _ => false
  | .write size off _ =>
    Machine.admitted size off &&
      match region off with
      | .reg r => r == .cmd
      | .nodeE _ => true
      | .lenE _ => true
      | .bitsE _ _ => true
      | .reserved => false

/-- Is the single event such an access? A reset ends no session in the sense of R247. -/
def BusEvent.isCmdOrTableWrite : BusEvent → Bool
  | .access a => a.isCmdOrTableWrite
  | .burst _ => false
  | .reset => false

/-- The access `a`, done in `s` and leaving `t`, ends the session open in `s`: it is a CMD write or a table
write "after which SESSION = IDLE" (R247). -/
def SessionEnded (a : Access) (s t : State) : Prop :=
  performAccess a s = .next t ∧ s.session ≠ .idle ∧ a.isCmdOrTableWrite = true ∧ t.session = .idle

/-- "It ends *successfully* when, at that point, DONE = 1 and ERR = 0" (R247). -/
def SessionSucceeded (a : Access) (s t : State) : Prop :=
  SessionEnded a s t ∧ t.done = true ∧ t.err = .none

/-- What has become of a session (R247). -/
inductive SessionVerdict where
  /-- It has not ended: "nothing is claimed of it". A session that a reset cuts off never ends (DEDUCED,
  notes/assumptions/16). -/
  | notEnded
  /-- It ended, and not successfully: with ERR ≠ 0 it "has no defined output"; the same where CLR ended it
  (DEDUCED, notes/assumptions/16). -/
  | noOutput
  /-- An encode session that ended successfully, with its output. -/
  | encoded (payload : List Word)
  /-- A decode session that ended successfully, with its output. -/
  | decoded (text : List Sym)
  deriving DecidableEq, Repr

/-- The verdict at a session's end, `x` being its kind and `t` the state there: its output is everything it
pushed, "what the host has already read and what is still queued" (R247). -/
def verdictAt (x : Session) (syms : List Sym) (words : List Word) (t : State) : SessionVerdict :=
  if t.done = true ∧ t.err = .none then
    match x with
    | .idle => .notEnded
    | .enc => .encoded (words ++ t.wordq)
    | .dec => .decoded (syms ++ t.symq)
  else .noOutput

/-- The verdict on the session open in a state, over the single events to come; `syms` and `words` are what
the host has read of its output so far. -/
def openVerdict (syms : List Sym) (words : List Word) : List BusEvent → State → SessionVerdict
  | [], _ => .notEnded
  | e :: rest, s =>
    match performEvent e s with
    | .next t =>
      if t.session = .idle then
        if e.isCmdOrTableWrite then verdictAt s.session syms words t else .notEnded
      else openVerdict (syms ++ symTaken e s) (words ++ wordTaken e s) rest t
    | .fault _ => .notEnded
    | .refused _ => .notEnded

/-- The verdict on the session that the first of these single events opens; with none opened, none ends. -/
def firstVerdict : List BusEvent → State → SessionVerdict
  | [], _ => .notEnded
  | e :: rest, s =>
    match performEvent e s with
    | .next t => if s.session = .idle ∧ t.session ≠ .idle then openVerdict [] [] rest t else .notEnded
    | .fault _ => .notEnded
    | .refused _ => .notEnded

/-- The verdict on the session that the events' first access opens: whether and how it ends during them, and
its output (R247). -/
def sessionVerdict (events : List BusEvent) (s : State) : SessionVerdict :=
  firstVerdict (singleEvents events) s

/-- A command as a bus event. -/
def command (i : Instr) : BusEvent := .access (commandWrite i)

/-- The writes of an encode session after ENC_START: ENC_SYM for every symbol, then ENC_END (R147). -/
def encodeScript (text : List Sym) : List BusEvent :=
  text.map (fun c => command (.encSym c)) ++ [command .encEnd]

/-- The writes of a decode session after DEC_START: DEC_FEED for every piece, then DEC_END (R175). -/
def decodeScript (pieces : List (List Bool)) : List BusEvent :=
  pieces.flatMap (fun p => (feedAccesses p).map .access) ++ [command .decEnd]

/-- The feed rule of R246: words 0 .. W − 2 with DEC_BITS 32 each, then the last one with the rest of the
`len` bits. -/
def feedPlan : List Word → Nat → List (Word × Nat)
  | [], _ => []
  | w :: ws, len => if len ≤ 32 then [(w, len)] else (w, 32) :: feedPlan ws (len - 32)

/-- All the bits of payload words, first bit first (R40). -/
def wordsBits (ws : List Word) : List Bool := ws.flatMap fun w => leadingBits w 32

end Sys2Proof.Machine
end

