-- ==== Sys2Proof/Safety.lean ====
section
/-! DEFINITION. The invariants of the state (spec/10_state.md R49), and what the host must know before a command
(spec/70_reset_and_hazards.md R232, R244). When a session ends, and how (R247), is in Machine/Session.lean. -/

namespace Sys2Proof.Machine

/-- The invariants (a) to (j) of R49, (a) being the type of SESSION, and the canonical form of the three
tables (the model's own, notes/assumptions/6). -/
structure State.Inv (s : State) : Prop where
  /-- (b) -/
  doneIdle : s.done = true → s.session = .idle ∧ s.err = .none
  /-- (c) -/
  openClean : s.session ≠ .idle → s.err = .none ∧ s.errInfo = 0
  /-- (d) -/
  noErrNoInfo : s.err = .none → s.errInfo = 0
  /-- (e) ACC[31 − ACC_N : 0] = 0. -/
  accLowZero : ∀ i < 32 - s.accN.toNat, s.acc.getLsbD i = false
  /-- (f) -/
  decAcc : s.session = .dec → s.acc = 0 ∧ s.accN = 0
  /-- (g) -/
  encWalk : s.session = .enc → s.walk = 0
  /-- (h) -/
  walkInternal : s.session = .dec → s.walk ≠ 0 → kindAt s.node s.walk = .internal
  /-- (i) -/
  symqBound : s.symq.length ≤ Config.symqDepth
  /-- (i) -/
  wordqBound : s.wordq.length ≤ Config.wordqDepth
  /-- (j) -/
  outCntAccN : s.session = .enc → s.outCnt.toNat < Config.cntMax → s.outCnt.toNat % 32 = s.accN.toNat
  nodeWf : Memory.wf Config.nNodes s.node
  codeLenWf : Memory.wf Config.nSym s.codeLen
  codeBitsWf : Memory.wf (Config.nSym * Config.codeWords) s.codeBits

/-- The three tables are in their canonical form. -/
def State.TablesWf (s : State) : Prop :=
  Memory.wf Config.nNodes s.node ∧ Memory.wf Config.nSym s.codeLen ∧
    Memory.wf (Config.nSym * Config.codeWords) s.codeBits

/-- The room a command needs (R244): with it, it raises no OVERFLOW. -/
def HasRoom : Instr → State → Prop
  | .decBits n, s => s.symq.length + n.toNat ≤ Config.symqDepth
  | .encSym c, s => s.wordq.length + s.pushes (s.codeLength c) ≤ Config.wordqDepth
  | .encEnd, s => s.accN ≠ 0 → s.wordq.length ≤ Config.wordqDepth - 1
  | .nop, _ => True
  | .clr, _ => True
  | .encStart, _ => True
  | .decStart, _ => True
  | .decEnd, _ => True

/-- What the host owes before its sessions mean anything (R232 (2) and (3)): a well-formed tree in NODE and a
code table that matches it. "The HCE checks neither WF nor Match." -/
def TablesLoaded (s : State) : Prop := WellFormedTree s.node ∧ TablesMatch s

end Sys2Proof.Machine
end

