-- ==== Sys2Proof/Certificates/Slice0/Obligations.lean ====
section
/-! DEFINITION. The statements about the model, each from the numbered rules of spec/. A statement about a next
state is an equation for the whole state wherever the rules fix it, so that it says what changes and
that nothing else does. -/

open Sys2Proof Sys2Proof.Machine

/-! ## Command words -/

/-- R97, R92 to R94: decoding and encoding are inverse to each other, with every operand value. -/
def Obligations.DecodeAndEncodeAgree : Prop :=
  (∀ i : Instr, decode (encode i) = .ok i) ∧
  (∀ (w : Word) (i : Instr), decode w = .ok i → encode i = w)

/-- R96, R97: the decoder gives an instruction exactly where the opcode map's mask and match select its
row, and at most one row matches any word. -/
def Obligations.DecodeFollowsTheOpcodeMap : Prop :=
  (∀ (w : Word) (i : Instr), decode w = .ok i → i.row ∈ opcodeRows ∧ i.row.selects w = true) ∧
  (∀ w : Word, (∃ why, decode w = .error why) ↔ ∀ r ∈ opcodeRows, r.selects w = false) ∧
  (∀ w : Word, opcodeRows.Pairwise fun a b => ¬(a.selects w = true ∧ b.selects w = true))

/-- R96: "The legal words are the 6 F0 words, the 256 ENC_SYM words and the 64 DEC_BITS words; every other
word is illegal." -/
def Obligations.LegalCommandWords : Prop :=
  ∀ w : Word, (∃ i, decode w = .ok i) ↔
    w ∈ [0x00000000#32, 0x10000000#32, 0x20000000#32, 0x40000000#32, 0x50000000#32, 0x70000000#32] ∨
    (∃ c : Sym, w = 0x30000000#32 + c.setWidth 32) ∨
    (∃ n : BitVec 6, w = 0x60000000#32 + n.setWidth 32)

/-- R96, R97: words written out from the formats decode to what they stand for (a sanity statement). -/
def Obligations.WrittenOutWordsDecode : Prop :=
  decode 0b0000_0000000000000000000000000000#32 = .ok .nop ∧
  decode 0b0001_0000000000000000000000000000#32 = .ok .clr ∧
  decode 0b0011_00000000000000000000_01100001#32 = .ok (.encSym 0x61) ∧
  decode 0b0110_0000000000000000000000_001001#32 = .ok (.decBits 9) ∧
  decode 0b0110_0000000000000000000001_000000#32 = .error .reservedBitSet ∧
  decode 0b1000_0000000000000000000000000000#32 = .error .reservedOpcode

/-- R98: every word with OP in 0x8..0xF and every word with a reserved bit set raises ILLEGAL_COMMAND with
info = the word, in every session state; a session that is open ends; and no encoding but NOP's executes as
a no-op. -/
def Obligations.IllegalWordsRaiseIllegalCommand : Prop :=
  (∀ (w : Word) (s : State),
    (8 ≤ (opField w).toNat ∨
      (opField w ∈ [0x0#4, 0x1#4, 0x2#4, 0x4#4, 0x5#4, 0x7#4] ∧ w.extractLsb' 0 28 ≠ 0) ∨
      (opField w = 0x3#4 ∧ w.extractLsb' 8 20 ≠ 0) ∨
      (opField w = 0x6#4 ∧ w.extractLsb' 6 22 ≠ 0)) →
    performAccess (.write 4 cmdOffset w) s = .next (reply .done { s with
      err := if s.err = .none then .illegalCommand else s.err
      errInfo := if s.err = .none then w else s.errInfo
      session := .idle
      done := false })) ∧
  (∀ i : Instr, i ≠ .nop → ∃ s, exec i s ≠ .next s)

/-! ## Steps and events -/

/-- R120, R65: when the next event writes to CMD a word that decodes to `i`, the step is `exec i` on the
state past that event, and then the write's answer. -/
def Obligations.StepRunsTheDecodedCommand : Prop :=
  ∀ (s : State) (w : Word) (i : Instr) (rest : List BusEvent),
    s.pending = .access (.write 4 cmdOffset w) :: rest → decode w = .ok i →
    step s = andThen (exec i { s with pending := rest }) fun t => .next (reply .done t)

/-- The model's interface (notes/assumptions/8): the next step after `withFetchWord` runs that word's
instruction. -/
def Obligations.FetchedWordRunsNext : Prop :=
  ∀ (s : State) (w : Nat) (i : Instr), decodeTableWord 32 w = some i →
    step (s.withFetchWord 32 w) = andThen (exec i s) fun t => .next (reply .done t)

/-- R5, R215: a step performs the next event, and with none pending nothing changes. -/
def Obligations.StepPerformsTheNextEvent : Prop :=
  (∀ s : State, s.pending = [] → step s = .next s) ∧
  (∀ (s : State) (e : BusEvent) (rest : List BusEvent), s.pending = e :: rest →
    step s = performEvent e { s with pending := rest })

/-- A run over the pending events is those events in order, whatever stands behind them. The list `pending`
is the model's own (notes/assumptions/4, DESIGN CHOICE); with it a run performs "host accesses one at a time,
in the order they reach it", as R69 says. -/
def Obligations.RunPerformsTheEventsInOrder : Prop :=
  ∀ (events rest : List BusEvent) (s : State),
    core.run events.length { s with pending := events ++ rest } =
      performEvents events { s with pending := rest }

/-- R10, R62, R68: every event completes; no step of the machine faults or is refused. (What a
burst does: notes/assumptions/7, DEDUCED; that a bus error is an answer: notes/assumptions/9, DESIGN CHOICE.) -/
def Obligations.EveryStepAnswersANextState : Prop :=
  ∀ s : State, ∃ t, step s = .next t

/-- R62: a burst of aligned single words acts as its accesses in order (notes/assumptions/7: the model's
reading), and answers each. -/
def Obligations.AdmittedBurstIsItsAccesses : Prop :=
  ∀ (beats : List Access) (s : State), (∀ a ∈ beats, a.admitted = true) →
    performEvent (.burst beats) s = performEvents (beats.map .access) s

/-! ## The register window -/

/-- R62: only aligned 4-byte accesses are admitted; any other access, and a burst holding one, changes no
state. That it is answered with a bus error and the machine goes on is the model's choice
(notes/assumptions/9, DESIGN CHOICE), that a burst is refused whole with one answer its reading
(notes/assumptions/7, DEDUCED), and the form of the host's view of it its own (notes/assumptions/3). -/
def Obligations.RefusedAccessChangesNothing : Prop :=
  (∀ size off, admitted size off = true ↔ size = 4 ∧ off.toNat % 4 = 0) ∧
  (∀ (off : Offset) (size : Nat) (s : State), ¬(size = 4 ∧ off.toNat % 4 = 0) →
    performAccess (.read size off) s = .next (reply .busError s)) ∧
  (∀ (off : Offset) (size : Nat) (v : Word) (s : State), ¬(size = 4 ∧ off.toNat % 4 = 0) →
    performAccess (.write size off v) s = .next (reply .busError s)) ∧
  (∀ (beats : List Access) (s : State), (∃ a ∈ beats, a.admitted = false) →
    performEvent (.burst beats) s = .next (reply .busError s)) ∧
  hostView .busError = .platform Config.busErrorResponse

/-- R60: the window is 16 KiB from BASE, which is 16 KiB aligned, and no address outside it is decoded. -/
def Obligations.WindowAddresses : Prop :=
  Config.base % 0x4000 = 0 ∧
  (∀ off : Offset, offsetAt (addressOf off) = some off) ∧
  (∀ address : Nat, offsetAt address = none ↔ address < Config.base ∨ Config.base + 0x4000 ≤ address)

/-- R61: the address map, entry by entry; "No offset has two meanings". -/
def Obligations.AddressMap : Prop :=
  (∀ off : Offset, off.toNat < 0x800 → region off = .reg (regAt off.toNat)) ∧
  (∀ i : NodeIndex, region (BitVec.ofNat 14 (0x800 + 4 * i.toNat)) = .nodeE i) ∧
  (∀ c : Sym, region (BitVec.ofNat 14 (0x1000 + 4 * c.toNat)) = .lenE c) ∧
  (∀ off : Offset, 0x1400 ≤ off.toNat → off.toNat < 0x2000 → region off = .reserved) ∧
  (∀ (c : Sym) (k : BitVec 3),
    region (BitVec.ofNat 14 (0x2000 + 32 * c.toNat + 4 * k.toNat)) = .bitsE c k) ∧
  (∀ off off' : Offset, off.toNat % 4 = 0 → off'.toNat % 4 = 0 → region off = region off' →
    off = off' ∨ region off = .reserved ∨ region off = .reg .reserved)

/-- R45, R41 to R44, R64: what an admitted read of each register answers, and its effect. -/
def Obligations.RegisterReads : Prop :=
  ∀ s : State,
    performAccess (.read 4 0x000) s = .next (reply (.data 0x10400908) s) ∧
    performAccess (.read 4 0x004) s = .next (reply (.data 0) s) ∧
    performAccess (.read 4 0x008) s = .next (reply (.data s.data) s) ∧
    performAccess (.read 4 0x00C) s = .next (reply (.data s.statusWord) s) ∧
    performAccess (.read 4 0x010) s = .next (reply (.data s.fifoStatusWord) s) ∧
    (s.symq = [] → performAccess (.read 4 0x014) s = .next (reply (.data 0) s)) ∧
    (∀ c q, s.symq = c :: q → performAccess (.read 4 0x014) s =
      .next (reply (.data (0x80000000 + c.setWidth 32)) { s with symq := q })) ∧
    (s.wordq = [] → performAccess (.read 4 0x018) s = .next (reply (.data 0) s)) ∧
    (∀ w q, s.wordq = w :: q → performAccess (.read 4 0x018) s =
      .next (reply (.data w) { s with wordq := q })) ∧
    performAccess (.read 4 0x01C) s = .next (reply (.data s.inCnt) s) ∧
    performAccess (.read 4 0x020) s = .next (reply (.data s.outCnt) s) ∧
    performAccess (.read 4 0x024) s = .next (reply (.data s.acc) s) ∧
    performAccess (.read 4 0x028) s = .next (reply (.data s.errInfo) s)

/-- R38, with the codes of R24 and R200: the fields of STATUS, the reserved ones 0; a write is ignored, a read has no side effect. -/
def Obligations.StatusFields : Prop :=
  ∀ s : State,
    performAccess (.read 4 0x00C) s = .next (reply (.data s.statusWord) s) ∧
    (∀ v, performAccess (.write 4 0x00C v) s = .next (reply .done s)) ∧
    s.statusWord.extractLsb' 0 2 = (match s.session with | .idle => 0b00#2 | .enc => 0b01#2 | .dec => 0b10#2) ∧
    s.statusWord.getLsbD 2 = s.done ∧
    s.statusWord.getLsbD 3 = false ∧
    s.statusWord.extractLsb' 4 4 = (match s.err with
      | .none => 0#4 | .illegalCommand => 1#4 | .sequence => 2#4 | .badArg => 3#4 | .overflow => 4#4
      | .tableLocked => 5#4 | .treeInvalid => 6#4 | .unknownSymbol => 7#4 | .malformedPayload => 8#4
      | .emptyInput => 9#4) ∧
    s.statusWord.extractLsb' 8 5 = s.accN ∧
    s.statusWord.extractLsb' 13 3 = 0 ∧
    s.statusWord.extractLsb' 16 9 = s.walk ∧
    s.statusWord.extractLsb' 25 7 = 0

/-- R39: the fields of FIFO_STATUS, the reserved ones 0, for queues within their capacities (the invariant
`State.Inv` keeps them there); a write is ignored, a read has no side effect. -/
def Obligations.FifoStatusFields : Prop :=
  ∀ s : State, s.symq.length ≤ 64 → s.wordq.length ≤ 16 →
    performAccess (.read 4 0x010) s = .next (reply (.data s.fifoStatusWord) s) ∧
    (∀ v, performAccess (.write 4 0x010 v) s = .next (reply .done s)) ∧
    (s.fifoStatusWord.extractLsb' 0 7).toNat = s.symq.length ∧
    s.fifoStatusWord.extractLsb' 7 9 = 0 ∧
    (s.fifoStatusWord.extractLsb' 16 5).toNat = s.wordq.length ∧
    s.fifoStatusWord.extractLsb' 21 11 = 0

/-- R64: "Every read except SYM_OUT and WORD_OUT has no side effect and is idempotent"; an aligned read answers
what `memRead` gives, and a read of a table entry answers the word the engine reads there, in every session
state. -/
def Obligations.ReadsHaveNoSideEffect : Prop :=
  (∀ (off : Offset) (s : State), off.toNat % 4 = 0 →
    performAccess (.read 4 off) s = .next (reply (.data (memRead off s).1) (memRead off s).2)) ∧
  (∀ (off : Offset) (s : State), off.toNat % 4 = 0 → off ≠ 0x014 → off ≠ 0x018 →
    ∃ v, performAccess (.read 4 off) s = .next (reply (.data v) s) ∧
      performAccess (.read 4 off) (reply (.data v) s) = .next (reply (.data v) (reply (.data v) s))) ∧
  (∀ (i : NodeIndex) (s : State), performAccess (.read 4 (BitVec.ofNat 14 (0x800 + 4 * i.toNat))) s =
    .next (reply (.data (s.nodeWord i)) s)) ∧
  (∀ (c : Sym) (s : State), performAccess (.read 4 (BitVec.ofNat 14 (0x1000 + 4 * c.toNat))) s =
    .next (reply (.data (s.codeLenWord c)) s)) ∧
  (∀ (c : Sym) (k : BitVec 3) (s : State),
    performAccess (.read 4 (BitVec.ofNat 14 (0x2000 + 32 * c.toNat + 4 * k.toNat))) s =
      .next (reply (.data (s.codeBitsWord c k.toNat)) s))

/-- R67: the reserved offsets read as 0 and ignore writes; writes to the read-only registers are ignored. -/
def Obligations.ReservedAndReadOnlyOffsets : Prop :=
  (∀ (off : Offset) (v : Word) (s : State), off.toNat % 4 = 0 →
    ((0x02C ≤ off.toNat ∧ off.toNat ≤ 0x7FC) ∨ (0x1400 ≤ off.toNat ∧ off.toNat ≤ 0x1FFC)) →
    performAccess (.read 4 off) s = .next (reply (.data 0) s) ∧
    performAccess (.write 4 off v) s = .next (reply .done s)) ∧
  (∀ (off : Offset) (v : Word) (s : State),
    off ∈ [0x000#14, 0x00C#14, 0x010#14, 0x014#14, 0x018#14, 0x01C#14, 0x020#14, 0x024#14, 0x028#14] →
    performAccess (.write 4 off v) s = .next (reply .done s)) ∧
  (∀ s : State, performAccess (.read 4 0x004) s = .next (reply (.data 0) s))

/-- R66, R31, R33, R34, R70, R75: in IDLE a table write stores all 32 bits: the entry reads back as written,
every other offset of the window reads as before, and no other element of the state changes; and the entry the
offset names is the one the engine reads, so that NODE[i], CODE_LEN[c] or CODE_BITS[c][k] is the written word
and every other entry is as before. -/
def Obligations.TableWriteInIdleIsStored : Prop :=
  (∀ (s : State) (off : Offset) (v : Word), s.TablesWf → s.session = .idle → off.toNat % 4 = 0 →
    ((0x800 ≤ off.toNat ∧ off.toNat < 0x1400) ∨ 0x2000 ≤ off.toNat) →
    ∃ t, performAccess (.write 4 off v) s = .next t ∧
      (memRead off t).1 = v ∧
      (∀ off' : Offset, off'.toNat % 4 = 0 → off' ≠ off → (memRead off' t).1 = (memRead off' s).1) ∧
      { t with node := s.node, codeLen := s.codeLen, codeBits := s.codeBits } = reply .done s ∧
      t.TablesWf) ∧
  (∀ (s : State) (i : NodeIndex) (v : Word), s.TablesWf → s.session = .idle →
    ∃ t, performAccess (.write 4 (BitVec.ofNat 14 (0x800 + 4 * i.toNat)) v) s = .next t ∧
      t.nodeWord i = v ∧ (∀ j : NodeIndex, j ≠ i → t.nodeWord j = s.nodeWord j) ∧
      { t with node := s.node } = reply .done s) ∧
  (∀ (s : State) (c : Sym) (v : Word), s.TablesWf → s.session = .idle →
    ∃ t, performAccess (.write 4 (BitVec.ofNat 14 (0x1000 + 4 * c.toNat)) v) s = .next t ∧
      t.codeLenWord c = v ∧ (∀ d : Sym, d ≠ c → t.codeLenWord d = s.codeLenWord d) ∧
      { t with codeLen := s.codeLen } = reply .done s) ∧
  (∀ (s : State) (c : Sym) (k : BitVec 3) (v : Word), s.TablesWf → s.session = .idle →
    ∃ t, performAccess (.write 4 (BitVec.ofNat 14 (0x2000 + 32 * c.toNat + 4 * k.toNat)) v) s = .next t ∧
      t.codeBitsWord c k.toNat = v ∧
      (∀ (d : Sym) (j : BitVec 3), ¬(d = c ∧ j = k) → t.codeBitsWord d j.toNat = s.codeBitsWord d j.toNat) ∧
      { t with codeBits := s.codeBits } = reply .done s)

/-- R66, R245: in an open session a table write is refused, stores nothing, records TABLE_LOCKED with the
offset and ends the session. -/
def Obligations.TableWriteInSessionIsLocked : Prop :=
  ∀ (s : State) (off : Offset) (v : Word), s.session ≠ .idle → off.toNat % 4 = 0 →
    ((0x800 ≤ off.toNat ∧ off.toNat < 0x1400) ∨ 0x2000 ≤ off.toNat) →
    performAccess (.write 4 off v) s =
      .next (reply .done { s with
        err := if s.err = .none then .tableLocked else s.err
        errInfo := if s.err = .none then off.setWidth 32 else s.errInfo
        session := .idle
        done := false })

/-- R66, R75: an access that changes a table is a table write in IDLE; no command changes one, in any session
state; and an event that changes one is a reset or holds a table write (in a burst
by notes/assumptions/7, DEDUCED). -/
def Obligations.TablesChangeOnlyByIdleTableWritesAndReset : Prop :=
  (∀ (a : Access) (s t : State), performAccess a s = .next t →
    ¬(t.node = s.node ∧ t.codeLen = s.codeLen ∧ t.codeBits = s.codeBits) →
    s.session = .idle ∧ ∃ off v, a = .write 4 off v ∧ off.toNat % 4 = 0 ∧
      ((0x800 ≤ off.toNat ∧ off.toNat < 0x1400) ∨ 0x2000 ≤ off.toNat)) ∧
  (∀ (i : Instr) (s t : State), exec i s = .next t →
    t.node = s.node ∧ t.codeLen = s.codeLen ∧ t.codeBits = s.codeBits) ∧
  (∀ (e : BusEvent) (s t : State), performEvent e s = .next t →
    ¬(t.node = s.node ∧ t.codeLen = s.codeLen ∧ t.codeBits = s.codeBits) →
    e = .reset ∨ ∃ off v, (e = .access (.write 4 off v) ∨ ∃ beats, e = .burst beats ∧ .write 4 off v ∈ beats) ∧
      off.toNat % 4 = 0 ∧ ((0x800 ≤ off.toNat ∧ off.toNat < 0x1400) ∨ 0x2000 ≤ off.toNat))

/-- R22: DATA is what the host wrote last. "No command and no engine action writes DATA." -/
def Obligations.DataHoldsTheLastHostWrite : Prop :=
  (∀ (v : Word) (s : State),
    performAccess (.write 4 0x008 v) s = .next (reply .done { s with data := v })) ∧
  (∀ (a : Access) (s t : State), (∀ v, a ≠ .write 4 0x008 v) → performAccess a s = .next t →
    t.data = s.data)

/-! ## Reset -/

/-- R230, R46: reset sets every element to its reset value. That the model's own fields, the host's side of
the bus, stay is its choice (notes/assumptions/13, DESIGN CHOICE). -/
def Obligations.ResetEventSetsEveryElement : Prop :=
  ∀ s : State, performEvent .reset s = .next
    { data := 0, session := .idle, done := false, err := .none, errInfo := 0, walk := 0, acc := 0, accN := 0,
      inCnt := 0, outCnt := 0, node := [], codeLen := [], codeBits := [], symq := [], wordq := [],
      pending := s.pending, responses := s.responses } ∧
    (∀ i, State.reset.nodeWord i = 0) ∧ (∀ c, State.reset.codeLenWord c = 0) ∧
    (∀ c k, State.reset.codeBitsWord c k = 0)

/-! ## Errors and sessions -/

/-- R123, R120, R201: the permission matrix, and SEQUENCE, recorded with the command word, where it says
"no". That the word is `encode i` is the model's reading (notes/assumptions/11, DEDUCED). -/
def Obligations.CommandsOutOfSessionAreRefused : Prop :=
  (∀ (x : Session) (c : Sym) (n : BitVec 6),
    allowed .nop x = true ∧ allowed .clr x = true ∧
    (allowed .encStart x = true ↔ x = .idle) ∧ (allowed (.encSym c) x = true ↔ x = .enc) ∧
    (allowed .encEnd x = true ↔ x = .enc) ∧ (allowed .decStart x = true ↔ x = .idle) ∧
    (allowed (.decBits n) x = true ↔ x = .dec) ∧ (allowed .decEnd x = true ↔ x = .dec)) ∧
  (∀ (i : Instr) (s : State), allowed i s.session = false →
    exec i s = .next { s with
      err := if s.err = .none then .sequence else s.err
      errInfo := if s.err = .none then encode i else s.errInfo
      session := .idle
      done := false })

/-- R205: only ENC_START, DEC_START and CLR (and reset) clear a recorded error, and no access replaces one
by another: "a later one does not overwrite it" (R201). -/
def Obligations.FirstErrorIsKept : Prop :=
  ∀ (a : Access) (s t : State), s.err ≠ .none → performAccess a s = .next t →
    (t.err = s.err ∧ t.errInfo = s.errInfo) ∨
    (t.err = .none ∧ t.errInfo = 0 ∧
      (a = commandWrite .clr ∨
        (s.session = .idle ∧ (a = commandWrite .encStart ∨ a = commandWrite .decStart))))

/-- R201: recording an error keeps an earlier one, ends the session, leaves DONE = 0 and changes nothing else;
every error an access newly records ends the session and leaves DONE = 0. -/
def Obligations.ErrorsEndTheSession : Prop :=
  (∀ (e : ErrCode) (v : Word) (s : State), record e v s = { s with
    err := if s.err = .none then e else s.err
    errInfo := if s.err = .none then v else s.errInfo
    session := .idle
    done := false }) ∧
  (∀ (a : Access) (s t : State), performAccess a s = .next t → s.err = .none → t.err ≠ .none →
    t.session = .idle ∧ t.done = false)

/-- R24: only ENC_START and DEC_START, in IDLE, open a session; R247: only a CMD write or a table write ends
one. -/
def Obligations.OnlyStartsOpenSessions : Prop :=
  ∀ (a : Access) (s t : State), performAccess a s = .next t → t.session ≠ s.session →
    (t.session = .enc → s.session = .idle ∧ a = commandWrite .encStart) ∧
    (t.session = .dec → s.session = .idle ∧ a = commandWrite .decStart) ∧
    (t.session = .idle → ∃ off v, a = .write 4 off v ∧
      (off = cmdOffset ∨ (0x800 ≤ off.toNat ∧ off.toNat < 0x1400) ∨ 0x2000 ≤ off.toNat))

/-- R25: ENC_END and DEC_END set DONE, in their sessions; only ENC_START, DEC_START, CLR and errors clear
it. -/
def Obligations.DoneIsSetByEndsOnly : Prop :=
  ∀ (a : Access) (s t : State), performAccess a s = .next t →
    (s.done = false → t.done = true →
      (s.session = .enc ∧ a = commandWrite .encEnd) ∨ (s.session = .dec ∧ a = commandWrite .decEnd)) ∧
    (s.done = true → t.done = false →
      t.err ≠ .none ∨ a = commandWrite .clr ∨ a = commandWrite .encStart ∨ a = commandWrite .decStart)

/-- R27: of the accesses, only a START or CLR, which set it to 0, and DEC_BITS in a decode session change
WALK. -/
def Obligations.WalkChangesOnlyByStartsClrAndDecBits : Prop :=
  ∀ (a : Access) (s t : State), performAccess a s = .next t → t.walk ≠ s.walk →
    (t.walk = 0 ∧ (a = commandWrite .clr ∨ a = commandWrite .encStart ∨ a = commandWrite .decStart)) ∨
    (s.session = .dec ∧ ∃ n, a = commandWrite (.decBits n))

/-- R247: an access that leaves an open session IDLE ends it, by being a CMD write or a table write; and it
ends it successfully exactly when it is the session's own END, executed without an error. -/
def Obligations.OnlyItsEndEndsASessionSuccessfully : Prop :=
  (∀ (a : Access) (s t : State), performAccess a s = .next t → s.session ≠ .idle → t.session = .idle →
    SessionEnded a s t) ∧
  (∀ (a : Access) (s t : State), s.Inv → SessionEnded a s t →
    (SessionSucceeded a s t ↔
      (a = commandWrite .encEnd ∧ s.session = .enc ∧ s.inCnt ≠ 0 ∧ (s.accN ≠ 0 → s.wordq.length ≠ 16)) ∨
      (a = commandWrite .decEnd ∧ s.session = .dec ∧ s.walk = 0)))

/-- R244: with room, a command does not raise OVERFLOW. -/
def Obligations.RoomMeansNoOverflow : Prop :=
  ∀ (i : Instr) (s t : State), HasRoom i s → s.err ≠ .overflow → exec i s = .next t → t.err ≠ .overflow

/-- R49 (with the canonical form of the tables): every step keeps the invariants, in every state that has
them (a step that performs a burst by the model's reading of it, notes/assumptions/7, DEDUCED). -/
def Obligations.StepKeepsTheInvariants : Prop :=
  ∀ s t : State, s.Inv → step s = .next t → t.Inv

/-- R49, R46: the state after reset has the invariants. -/
def Obligations.ResetHasTheInvariants : Prop := State.reset.Inv

/-! ## Control commands and starts -/

/-- R121: NOP, the word 0, does nothing, in every session state; a word with OP = 0 and any reserved bit set
is not NOP and raises ILLEGAL_COMMAND. -/
def Obligations.NopChangesNothing : Prop :=
  decode 0x00000000 = .ok .nop ∧ (∀ s : State, exec .nop s = .next s) ∧
  (∀ (w : Word) (s : State), opField w = 0 → w ≠ 0 →
    execute w s = .next (record .illegalCommand w s))

/-- R122, R124: CLR, in every session state, clears all session state and nothing else. -/
def Obligations.ClrClearsTheSessionState : Prop :=
  decode 0x10000000 = .ok .clr ∧ ∀ s : State, exec .clr s = .next
    { s with
      session := .idle, done := false, err := .none, errInfo := 0, walk := 0, acc := 0, accN := 0
      inCnt := 0, outCnt := 0, symq := [], wordq := [] }

/-- R144, R124: ENC_START in IDLE, with or without a recorded error, whatever the tables hold; in an open session
it raises SEQUENCE, which ends the session. -/
def Obligations.EncStartOpensAnEncodeSession : Prop :=
  decode 0x20000000 = .ok .encStart ∧
  (∀ s : State, s.session = .idle → exec .encStart s = .next
    { s with
      session := .enc, done := false, err := .none, errInfo := 0, walk := 0, acc := 0, accN := 0
      inCnt := 0, outCnt := 0, symq := [], wordq := [] }) ∧
  (∀ s : State, s.session ≠ .idle → exec .encStart s = .next (record .sequence 0x20000000 s))

/-- R172, R124: DEC_START in IDLE, with or without a recorded error, whatever the tables hold; in an open session
it raises SEQUENCE, which ends the session. -/
def Obligations.DecStartOpensADecodeSession : Prop :=
  decode 0x50000000 = .ok .decStart ∧
  (∀ s : State, s.session = .idle → exec .decStart s = .next
    { s with
      session := .dec, done := false, err := .none, errInfo := 0, walk := 0, acc := 0, accN := 0
      inCnt := 0, outCnt := 0, symq := [], wordq := [] }) ∧
  (∀ s : State, s.session ≠ .idle → exec .decStart s = .next (record .sequence 0x50000000 s))

/-! ## The encoder -/

/-- R7, R29: `sat32(v)` is min(v, 2^32 − 1); a count step adds one and sticks at 0xFFFF_FFFF. -/
def Obligations.CountersSaturate : Prop :=
  (∀ v : Nat, (sat32 v).toNat = min v (2 ^ 32 - 1)) ∧
  (∀ x : Word, (x ≠ 0xFFFFFFFF → (satInc x).toNat = x.toNat + 1) ∧ (x = 0xFFFFFFFF → satInc x = x))

/-- R145, R142, R40: ENC_SYM with a code and with room appends the code's bits to the held ones: the full
words among them go to WORDQ in order, the rest is held, MSB first; OUT_CNT counts the bits and IN_CNT
the symbol; nothing else changes. (The premise on ACC's low bits is the invariant R49 (e).) The code of a
symbol is read from CODE_LEN[7:0], whose other bits are ignored, and from CODE_BITS (R33, R34). -/
def Obligations.EncSymAppendsTheCode : Prop :=
  (∀ (c : Sym) (s : State), s.codeLength c = ((s.codeLenWord c).extractLsb' 0 8).toNat ∧
    s.codeOf c = (List.range ((s.codeLenWord c).extractLsb' 0 8).toNat).map fun j =>
      (s.codeBitsWord c (j / 32)).getLsbD (31 - j % 32)) ∧
  (∀ (c : Sym) (s : State), s.session = .enc → s.codeLength c ≠ 0 →
    s.wordq.length + (s.accN.toNat + s.codeLength c) / 32 ≤ 16 →
    (∀ i < 32 - s.accN.toNat, s.acc.getLsbD i = false) →
    exec (.encSym c) s = .next
      (let bits := leadingBits s.acc s.accN.toNat ++ s.codeOf c
       { s with
         wordq := s.wordq ++ (List.range (bits.length / 32)).map (packedWord bits)
         acc := packedWord bits (bits.length / 32)
         accN := BitVec.ofNat 5 (bits.length % 32)
         outCnt := sat32 (s.outCnt.toNat + s.codeLength c)
         inCnt := sat32 (s.inCnt.toNat + 1) }))

/-- R145, R202, R203: the two errors of ENC_SYM, in their order; nothing of the symbol is appended. L is
CODE_LEN[S][7:0] (R33). -/
def Obligations.EncSymErrors : Prop :=
  ∀ (c : Sym) (s : State), s.session = .enc →
    let len := ((s.codeLenWord c).extractLsb' 0 8).toNat
    (len = 0 → exec (.encSym c) s = .next (record .unknownSymbol (c.setWidth 32) s)) ∧
    (len ≠ 0 → 16 < s.wordq.length + (s.accN.toNat + len) / 32 →
      exec (.encSym c) s = .next (record .overflow (0x30000000 + c.setWidth 32) s))

/-- R143, R36: one ENC_SYM that completes pushes (ACC_N + L) div 32 words, at most 8, and keeps WORDQ within
its 16 entries. -/
def Obligations.EncSymPushes : Prop :=
  ∀ (c : Sym) (s t : State), s.session = .enc → s.codeLength c ≠ 0 →
    s.wordq.length + (s.accN.toNat + s.codeLength c) / 32 ≤ 16 → exec (.encSym c) s = .next t →
    t.wordq.length = s.wordq.length + (s.accN.toNat + s.codeLength c) / 32 ∧
    (s.accN.toNat + s.codeLength c) / 32 ≤ 8 ∧ t.wordq.length ≤ 16

/-- R146: ENC_END after at least one symbol, with room for a held partial word: it is pushed, the session
ends with DONE = 1, the counters stay. -/
def Obligations.EncEndFinishesTheSession : Prop :=
  ∀ s : State, s.session = .enc → s.inCnt ≠ 0 → (s.accN ≠ 0 → s.wordq.length ≠ 16) →
    exec .encEnd s = .next
      (if s.accN = 0 then { s with session := .idle, done := true }
       else { s with
         wordq := s.wordq ++ [s.acc], acc := 0, accN := 0, session := .idle, done := true })

/-- R146, R202: the two errors of ENC_END, in their order; it has pushed nothing (R203). -/
def Obligations.EncEndErrors : Prop :=
  ∀ s : State, s.session = .enc →
    (s.inCnt = 0 → exec .encEnd s = .next (record .emptyInput 0 s)) ∧
    (s.inCnt ≠ 0 → s.accN ≠ 0 → s.wordq.length = 16 →
      exec .encEnd s = .next (record .overflow 0x40000000 s))

/-- R40: the payload words of P hold bit p of P at bit 31 − (p mod 32) of word p div 32; there are
ceil(len / 32) of them and the unused low bits are 0. The same of the k-th packed word of any sequence, and,
the other way, of a word's first n bits. -/
def Obligations.PayloadWordsLayout : Prop :=
  (∀ (P : List Bool) (k j : Nat), j < 32 → (packedWord P k).getLsbD (31 - j) = P.getD (32 * k + j) false) ∧
  (∀ (w : Word) (n : Nat), (leadingBits w n).length = n ∧
    ∀ i < n, (leadingBits w n)[i]? = some (w.getLsbD (31 - i))) ∧
  ∀ P : List Bool, (payloadWords P).length = (P.length + 31) / 32 ∧
    (∀ (p : Nat) (h : p < P.length), ∃ w, (payloadWords P)[p / 32]? = some w ∧
      w.getLsbD (31 - p % 32) = P[p]) ∧
    (∀ (p : Nat) (w : Word), P.length ≤ p → (payloadWords P)[p / 32]? = some w →
      w.getLsbD (31 - p % 32) = false)

/-- R147, R247: the encode-session law, and the session's output. The host's reads stand anywhere among its
writes, in bursts or not: that a burst acts as its accesses is the model's reading (notes/assumptions/7,
DEDUCED), and the rule speaks of single accesses. In the last clause, where the code table matches the tree, the code of each symbol
is its code in derive(NODE): the rule asks for Match and not for WF, and off well-formed trees derive(NODE) is
the model's choice (notes/assumptions/12, DESIGN CHOICE). -/
def Obligations.EncodeSessionLaw : Prop :=
  ∀ (s t : State) (text : List Sym) (body : List BusEvent),
    s.session = .idle → text ≠ [] → (∀ c ∈ text, s.codeLength c ≠ 0) →
    writesOf body = encodeScript text →
    performEvents (command .encStart :: body) s = .next t → t.err ≠ .overflow →
    t.done = true ∧ t.err = .none ∧
    wordsTaken (command .encStart :: body) s ++ t.wordq = payloadWords (text.flatMap s.codeOf) ∧
    sessionVerdict (command .encStart :: body) s = .encoded (payloadWords (text.flatMap s.codeOf)) ∧
    t.outCnt = sat32 (text.flatMap s.codeOf).length ∧ t.inCnt = sat32 text.length ∧
    (TablesMatch s → ∀ c ∈ text, ∀ code, (c, code) ∈ deriveCodes s.node ↔ code = s.codeOf c)

/-! ## The decoder -/

/-- R170: one walk step, case by case in its order of checks. -/
def Obligations.WalkStepRule : Prop :=
  ∀ (b : Bool) (s : State),
    let n := s.nodeWord s.walk
    let kind := n.extractLsb' 30 2
    let c : NodeIndex := if b then n.extractLsb' 16 9 else n.extractLsb' 0 9
    let m := s.nodeWord c
    let kindC := m.extractLsb' 30 2
    (kind = 0b00#2 ∨ kind = 0b11#2 → walkStep b s = .raised s .treeInvalid (s.walk.setWidth 32)) ∧
    (kind = 0b01#2 → b = false → walkStep b s = .completed
      { s with symq := s.symq ++ [n.extractLsb' 0 8], outCnt := satInc s.outCnt }) ∧
    (kind = 0b01#2 → b = true → walkStep b s = .raised s .malformedPayload 0x80000000) ∧
    (kind = 0b10#2 → c = 0 → walkStep b s = .raised s .treeInvalid (0x80000000 + s.walk.setWidth 32)) ∧
    (kind = 0b10#2 → c ≠ 0 → kindC = 0b00#2 ∨ kindC = 0b11#2 →
      walkStep b s = .raised s .treeInvalid (c.setWidth 32)) ∧
    (kind = 0b10#2 → c ≠ 0 → kindC = 0b01#2 → walkStep b s = .completed
      { s with symq := s.symq ++ [m.extractLsb' 0 8], outCnt := satInc s.outCnt, walk := 0 }) ∧
    (kind = 0b10#2 → c ≠ 0 → kindC = 0b10#2 → walkStep b s = .completed { s with walk := c })

/-- R173, R170, R203: DEC_BITS N with 1 ≤ N ≤ 32 and room walks the N leading bits of DATA: the symbols walk*
emits are pushed, WALK is where it stands, IN_CNT counts the bits fully walked and OUT_CNT the symbols;
an error of walk* is recorded on top of these effects. And walk* is the walk step (R170), bit after bit from
the state the one before leaves, up to the first raise. -/
def Obligations.DecBitsWalksTheBits : Prop :=
  (∀ (s : State), walkStar s.node s.walk [] = ⟨[], s.walk, 0, none⟩ ∧
    ∀ (b : Bool) (bs : List Bool), walkStar s.node s.walk (b :: bs) =
      match walkStep b s with
      | .raised _ e info => ⟨[], s.walk, 0, some (e, info)⟩
      | .completed t =>
        let r := walkStar t.node t.walk bs
        ⟨t.symq.drop s.symq.length ++ r.syms, r.pos, r.walked + 1, r.raised⟩) ∧
  (∀ (n : BitVec 6) (s : State), s.session = .dec → 1 ≤ n.toNat → n.toNat ≤ 32 →
    s.symq.length + n.toNat ≤ 64 →
    exec (.decBits n) s = .next
      (let r := walkStar s.node s.walk ((List.range n.toNat).map fun i => s.data.getLsbD (31 - i))
       let t := { s with
         symq := s.symq ++ r.syms
         walk := r.pos
         inCnt := sat32 (s.inCnt.toNat + r.walked)
         outCnt := sat32 (s.outCnt.toNat + r.syms.length) }
       match r.raised with
       | none => t
       | some (e, info) => record e info t))

/-- R173, R202: BAD_ARG, then OVERFLOW, before any bit is walked. -/
def Obligations.DecBitsErrors : Prop :=
  ∀ (n : BitVec 6) (s : State), s.session = .dec →
    (n.toNat = 0 ∨ 32 < n.toNat →
      exec (.decBits n) s = .next (record .badArg (0x60000000 + n.setWidth 32) s)) ∧
    (1 ≤ n.toNat → n.toNat ≤ 32 → 64 < s.symq.length + n.toNat →
      exec (.decBits n) s = .next (record .overflow (0x60000000 + n.setWidth 32) s))

/-- R174: DEC_END at the root ends the session with DONE = 1, with or without any DEC_BITS before it (C1) and
whatever SYMQ still holds; mid-path it raises MALFORMED_PAYLOAD with WALK; outside a decode session it raises
SEQUENCE. -/
def Obligations.DecEndAcceptsAtTheRootOnly : Prop :=
  decode 0x70000000 = .ok .decEnd ∧
  (∀ s : State, s.session = .dec → s.walk = 0 →
    exec .decEnd s = .next { s with session := .idle, done := true }) ∧
  (∀ s : State, s.session = .dec → s.walk ≠ 0 →
    exec .decEnd s = .next (record .malformedPayload (s.walk.setWidth 32) s)) ∧
  (∀ s : State, s.session ≠ .dec → exec .decEnd s = .next (record .sequence 0x70000000 s))

/-- R175, R173: "the result does not depend on how the payload is split": DEC_BITS n, then DATA shifted by
the host, then DEC_BITS m, leave what one DEC_BITS (n + m) leaves, DATA apart, errors included. -/
def Obligations.SplittingDecBitsIsInvisible : Prop :=
  ∀ (n m : BitVec 6) (s t u : State), s.session = .dec → 1 ≤ n.toNat → 1 ≤ m.toNat →
    n.toNat + m.toNat ≤ 32 → s.symq.length + (n.toNat + m.toNat) ≤ 64 →
    exec (.decBits n) s = .next t →
    exec (.decBits m) { t with data := s.data <<< n.toNat } = .next u →
    exec (.decBits (n + m)) s = .next { u with data := s.data }

/-- R175, R247: the decode-session law, and the session's output: the outcome is that of walk* on the whole
payload, whatever the split and wherever the host's reads stand, in bursts or not: that a burst acts as its
accesses is the model's reading (notes/assumptions/7, DEDUCED), and the rule speaks of single accesses. -/
def Obligations.DecodeSessionLaw : Prop :=
  ∀ (s t : State) (pieces : List (List Bool)) (body : List BusEvent),
    s.session = .idle → (∀ p ∈ pieces, 1 ≤ p.length ∧ p.length ≤ 32) →
    writesOf body = decodeScript pieces →
    performEvents (command .decStart :: body) s = .next t → t.err ≠ .overflow →
    let r := walkStar s.node 0 pieces.flatten
    t.session = .idle ∧
    symsTaken (command .decStart :: body) s ++ t.symq = r.syms ∧
    t.inCnt = sat32 r.walked ∧ t.outCnt = sat32 r.syms.length ∧
    (∀ e info, r.raised = some (e, info) → t.err = e ∧ t.errInfo = info ∧ t.done = false ∧
      sessionVerdict (command .decStart :: body) s = .noOutput) ∧
    (r.raised = none → r.pos ≠ 0 →
      t.err = .malformedPayload ∧ t.errInfo = r.pos.setWidth 32 ∧ t.done = false ∧
      sessionVerdict (command .decStart :: body) s = .noOutput) ∧
    (r.raised = none → r.pos = 0 →
      t.done = true ∧ t.err = .none ∧ r.walked = pieces.flatten.length ∧
      sessionVerdict (command .decStart :: body) s = .decoded r.syms)

/-! ## Trees and codes -/

/-- R140: for a well-formed tree that is not a single leaf, derive(NODE) gives a symbol exactly the path
from the root to its leaf; for the single leaf it is the code "0". -/
def Obligations.DeriveCodesRecordsThePaths : Prop :=
  ∀ m : Memory, WellFormedTree m →
    (kindAt m 0 = .leaf → deriveCodes m = [(symAt m 0, [false])]) ∧
    (kindAt m 0 ≠ .leaf → ∀ (c : Sym) (code : List Bool), (c, code) ∈ deriveCodes m ↔
      ∃ i, follow m 0 code = some i ∧ kindAt m i = .leaf ∧ symAt m i = c)

/-- R148: "If WF(NODE), then no code in derive(NODE) is a prefix of another code in derive(NODE). Every code
has length at least 1". -/
def Obligations.DerivedCodesArePrefixFree : Prop :=
  ∀ m : Memory, WellFormedTree m →
    (∀ a ∈ deriveCodes m, ∀ b ∈ deriveCodes m, a.2.isPrefixOf b.2 = true → a = b) ∧
    (∀ a ∈ deriveCodes m, 1 ≤ a.2.length)

/-- R175, second part: with WF(NODE) the walk never raises TREE_INVALID; it accepts exactly the
concatenations of derived codes and emits their symbols in order; otherwise it stands mid-path at the end,
or, for a single leaf, stops with MALFORMED_PAYLOAD at the first 1 bit (R177). -/
def Obligations.WellFormedTreeWalks : Prop :=
  ∀ m : Memory, WellFormedTree m →
    (∀ (P : List Bool) (info : Word), (walkStar m 0 P).raised ≠ some (.treeInvalid, info)) ∧
    (∀ P : List Bool, ((walkStar m 0 P).raised = none ∧ (walkStar m 0 P).pos = 0) ↔
      ∃ codes : List (Sym × List Bool), (∀ x ∈ codes, x ∈ deriveCodes m) ∧ P = codes.flatMap (·.2)) ∧
    (∀ codes : List (Sym × List Bool), (∀ x ∈ codes, x ∈ deriveCodes m) →
      (walkStar m 0 (codes.flatMap (·.2))).syms = codes.map (·.1)) ∧
    (kindAt m 0 ≠ .leaf → ∀ P : List Bool, (walkStar m 0 P).raised = none) ∧
    (kindAt m 0 = .leaf → ∀ (zeros : Nat) (rest : List Bool),
      walkStar m 0 (List.replicate zeros false ++ true :: rest) =
        ⟨List.replicate zeros (symAt m 0), 0, zeros, some (.malformedPayload, 0x80000000)⟩)

/-- R176: the round trip. Encoding a text and decoding the first OUT_CNT bits of its payload words, in any
split and from any IDLE state with the same tree, gives the text back. The accesses may stand in bursts: that
a burst acts as its accesses is the model's reading (notes/assumptions/7, DEDUCED), and the rule speaks of
single accesses. -/
def Obligations.RoundTrip : Prop :=
  ∀ (s t v u : State) (text : List Sym) (encBody decBody : List BusEvent) (pieces : List (List Bool)),
    s.session = .idle → TablesLoaded s → text ≠ [] →
    (∀ c ∈ text, ∃ code, (c, code) ∈ deriveCodes s.node) →
    writesOf encBody = encodeScript text →
    performEvents (command .encStart :: encBody) s = .next t → t.err ≠ .overflow →
    t.outCnt.toNat < 2 ^ 32 - 1 →
    (∀ p ∈ pieces, 1 ≤ p.length ∧ p.length ≤ 32) →
    pieces.flatten =
      (wordsBits (wordsTaken (command .encStart :: encBody) s ++ t.wordq)).take t.outCnt.toNat →
    v.session = .idle → v.node = s.node →
    writesOf decBody = decodeScript pieces →
    performEvents (command .decStart :: decBody) v = .next u → u.err ≠ .overflow →
    u.done = true ∧ u.err = .none ∧ symsTaken (command .decStart :: decBody) v ++ u.symq = text

/-! ## Host programs -/

/-- R30, R101: a node word's fields, and that NODE_LEAF, NODE_INT and NODE_CLEAR each write one word, to
NODE[i], with the fields they name. -/
def Obligations.NodeWordFields : Prop :=
  (∀ n : Word, (nodeKind n = .empty ↔ n.extractLsb' 30 2 = 0b00#2) ∧
    (nodeKind n = .leaf ↔ n.extractLsb' 30 2 = 0b01#2) ∧
    (nodeKind n = .internal ↔ n.extractLsb' 30 2 = 0b10#2) ∧
    (nodeKind n = .reserved ↔ n.extractLsb' 30 2 = 0b11#2) ∧
    nodeLeft n = n.extractLsb' 0 9 ∧ nodeRight n = n.extractLsb' 16 9 ∧ nodeSym n = n.extractLsb' 0 8) ∧
  (∀ (i l r : NodeIndex) (c : Sym),
    let off : Offset := BitVec.ofNat 14 (0x800 + 4 * i.toNat)
    lineAccesses (.nodeLeaf i.toNat c.toNat) = [.write 4 off (leafWord c)] ∧
    lineAccesses (.nodeInt i.toNat l.toNat r.toNat) = [.write 4 off (internalWord l r)] ∧
    lineAccesses (.nodeClear i.toNat) = [.write 4 off 0]) ∧
  (∀ c : Sym, nodeKind (leafWord c) = .leaf ∧ nodeSym (leafWord c) = c) ∧
  (∀ l r : NodeIndex, nodeKind (internalWord l r) = .internal ∧ nodeLeft (internalWord l r) = l ∧
    nodeRight (internalWord l r) = r) ∧
  (∀ n : Word, nodeKind n = .empty ↔ n.toNat < 0x40000000) ∧
  (∀ n : Word, nodeKind n = .reserved ↔ 0xC0000000 ≤ n.toNat)

/-- R101, R34: the accesses of `CODE c, "bits"`, in IDLE, make `bits` the code of c and leave every other
symbol's code, NODE and all other state (the answers apart) as they were. -/
def Obligations.CodeLineLoadsTheCode : Prop :=
  ∀ (s : State) (c : Sym) (bits : List Bool), s.session = .idle → s.TablesWf →
    1 ≤ bits.length → bits.length ≤ 255 →
    ∃ t, performAccesses (lineAccesses (.code c.toNat bits)) s = .next t ∧
      t.codeOf c = bits ∧ (∀ d : Sym, d ≠ c → t.codeOf d = s.codeOf d) ∧
      { t with codeLen := s.codeLen, codeBits := s.codeBits, responses := s.responses } = s

/-- R101, R173: `DEC_FEED "p"` writes p, first bit in DATA[31] and the bits past its end 0, and is then DEC_BITS len(p) on exactly the
bits of p. -/
def Obligations.DecFeedPresentsThePiece : Prop :=
  ∀ (s : State) (p : List Bool), 1 ≤ p.length → p.length ≤ 32 →
    performAccesses (lineAccesses (.decFeed p)) s =
      andThen (exec (.decBits (BitVec.ofNat 6 p.length)) (reply .done { s with data := packWord p }))
        (fun t => .next (reply .done t)) ∧
    State.dataBits { s with data := packWord p } p.length = p ∧
    (∀ i < 32, (packWord p).getLsbD (31 - i) = p.getD i false)

/-- R246: the feed rule: for W = ceil(len / 32) words it feeds the first `len` bits of them in order, in
pieces of 1 to 32 bits, all but the last of 32. -/
def Obligations.FeedRuleFeedsExactlyThePayload : Prop :=
  ∀ (ws : List Word) (len : Nat), 1 ≤ len → ws.length = (len + 31) / 32 →
    (feedPlan ws len).flatMap (fun x => leadingBits x.1 x.2) = (wordsBits ws).take len ∧
    (feedPlan ws len).map (·.1) = ws ∧
    (∀ x ∈ feedPlan ws len, 1 ≤ x.2 ∧ x.2 ≤ 32) ∧
    (∀ x ∈ (feedPlan ws len).dropLast, x.2 = 32)
end

