-- ==== Sys2Proof/Laws/Bits.lean ====
section
/-! SUPPORT. Bit sequences and words: what a packed word's bits are, and that packing, the leading bits of a word
and the accumulator's bit writes agree. Saturating counts. -/

namespace Sys2Proof.Machine

/-! ### Packed words -/

/-- Bit j of a sequence laid out from position `room − 1` down. -/
theorem packFrom_getLsbD (room : Nat) (bits : List Bool) (j : Nat) (h : room ≤ 32) :
    (packFrom room bits).getLsbD j = (decide (j < room) && bits.getD (room - 1 - j) false) := by
  induction room generalizing bits with
  | zero => simp [packFrom]
  | succ n ih =>
    cases bits with
    | nil => simp [packFrom]
    | cons b bs =>
      simp only [packFrom, BitVec.getLsbD_or, ih bs (by omega)]
      rcases Nat.lt_trichotomy j n with hj | rfl | hj
      · have h1 : n + 1 - 1 - j = (n - 1 - j) + 1 := by omega
        have h2 : ¬ n ≤ j := by omega
        have h3 : j < n + 1 := by omega
        rw [h1]
        cases b <;> simp [hj, h3]
      · cases b <;> simp
        omega
      · have h1 : ¬ j < n := by omega
        have h2 : ¬ j < n + 1 := by omega
        have h3 : j - n ≠ 0 := by omega
        cases b <;> simp [h1, h2, h3]

/-- Bit `31 − i` of a packed word is bit i of the sequence, and 0 after its end (R40, R101). -/
theorem packWord_getLsbD (bits : List Bool) (j : Nat) :
    (packWord bits).getLsbD j = (decide (j < 32) && bits.getD (31 - j) false) :=
  packFrom_getLsbD 32 bits j (Nat.le_refl 32)

@[simp] theorem packWord_nil : packWord [] = 0 := rfl

@[simp] theorem leadingBits_length (w : Word) (n : Nat) : (leadingBits w n).length = n := by
  simp [leadingBits]

/-- The leading bits of a packed word are the sequence, cut or zero-padded. -/
theorem leadingBits_packWord (bits : List Bool) (h : bits.length ≤ 32) :
    leadingBits (packWord bits) bits.length = bits := by
  apply List.ext_getElem (by simp)
  intro i h1 h2
  have hi : i < 32 := by omega
  simp only [leadingBits, List.getElem_map, List.getElem_range, packWord_getLsbD]
  have h3 : 31 - (31 - i) = i := by omega
  have h4 : 31 - i < 32 := by omega
  simp [h3, h4, h2]

/-- A word whose bits below the leading `n` are 0 is its leading bits packed. -/
theorem packWord_leadingBits (w : Word) (n : Nat) (hn : n ≤ 32)
    (h : ∀ i < 32 - n, w.getLsbD i = false) : packWord (leadingBits w n) = w := by
  apply BitVec.eq_of_getLsbD_eq
  intro j hj
  rw [packWord_getLsbD]
  by_cases hjn : 31 - j < n
  · have h3 : 31 - (31 - j) = j := by omega
    simp [hj, leadingBits, hjn, h3]
  · rw [h j (by omega)]
    simp [hj, leadingBits, hjn]

/-- Setting bit i of a word, bit by bit. -/
theorem setBit_getLsbD (v : Word) (i j : Nat) (b : Bool) (hi : i < 32) :
    (setBit v i b).getLsbD j = if j = i then b else v.getLsbD j := by
  unfold setBit
  by_cases hji : j = i
  · subst hji
    cases b <;> simp [hi]
  · rw [if_neg hji]
    have hs : j < i ∨ j - i ≠ 0 := by omega
    by_cases hj : j < 32
    · rcases hs with hs | hs <;> cases b <;> simp [hj, hs]
    · have hv : v.getLsbD j = false := BitVec.getLsbD_of_ge v j (by omega)
      cases b <;> simp [hj, hv]

/-- Writing the next held bit appends it to the packed sequence (R28, R142). -/
theorem setBit_packWord (held : List Bool) (b : Bool) (h : held.length < 32) :
    setBit (packWord held) (31 - held.length) b = packWord (held ++ [b]) := by
  apply BitVec.eq_of_getLsbD_eq
  intro j hj
  rw [setBit_getLsbD _ _ _ _ (by omega), packWord_getLsbD, packWord_getLsbD]
  by_cases hji : j = 31 - held.length
  · have hjl : 31 - (31 - held.length) = held.length := by omega
    have hlt : 31 - held.length < 32 := by omega
    subst hji
    simp [hjl, hlt]
  · rw [if_neg hji]
    rcases Nat.lt_or_ge (31 - j) held.length with hl | hl
    · simp [hj, hl, List.getElem?_append_left]
    · have h1 : held.length ≤ 31 - j := hl
      have h2 : (held ++ [b]).length ≤ 31 - j := by simp; omega
      simp [List.getElem?_eq_none h1, List.getElem?_eq_none h2]

/-! ### Saturating counts -/

theorem sat32_toNat (n : Nat) : (sat32 n).toNat = min n Config.cntMax := by
  unfold sat32
  rw [BitVec.toNat_ofNat, Nat.mod_eq_of_lt]
  simp only [Config.cntMax]
  omega

/-- Counting one more after n counts n + 1, saturated (R29). -/
theorem satInc_sat32 (n : Nat) : satInc (sat32 n) = sat32 (n + 1) := by
  apply BitVec.eq_of_toNat_eq
  rw [satInc, sat32_toNat, sat32_toNat, sat32_toNat]
  omega

theorem sat32_of_word (x : Word) : sat32 x.toNat = x := by
  apply BitVec.eq_of_toNat_eq
  rw [sat32_toNat]
  have := x.isLt
  simp only [Config.cntMax]
  omega

/-- One step after n counts from x. -/
theorem satInc_eq (x : Word) : satInc x = sat32 (x.toNat + 1) := rfl

theorem sat32_sat32_add (x : Word) (n m : Nat) :
    sat32 ((sat32 (x.toNat + n)).toNat + m) = sat32 (x.toNat + (n + m)) := by
  apply BitVec.eq_of_toNat_eq
  rw [sat32_toNat, sat32_toNat, sat32_toNat]
  omega

/-- A counter reads 0 only if nothing was counted (R29: "IN_CNT = 0 means exactly that no input was taken"). -/
theorem satInc_ne_zero (x : Word) : satInc x ≠ 0 := by
  intro h
  have := congrArg BitVec.toNat h
  rw [satInc, sat32_toNat] at this
  simp at this

end Sys2Proof.Machine
end

