-- ==== Sys2Proof/Laws/State.lean ====
section
/-! SUPPORT. What each named update of the state does to each field of it: one lemma per field and update,
true by unfolding, so that no later proof unfolds a record update. -/

namespace Sys2Proof.Machine


/-! ### `record` -/

@[simp] theorem record_data (e : ErrCode) (v : Word) (s : State) : (record e v s).data = s.data := rfl
@[simp] theorem record_session (e : ErrCode) (v : Word) (s : State) : (record e v s).session = .idle := rfl
@[simp] theorem record_done (e : ErrCode) (v : Word) (s : State) : (record e v s).done = false := rfl
@[simp] theorem record_err (e : ErrCode) (v : Word) (s : State) : (record e v s).err = if s.err = .none then e else s.err := rfl
@[simp] theorem record_errInfo (e : ErrCode) (v : Word) (s : State) : (record e v s).errInfo = if s.err = .none then v else s.errInfo := rfl
@[simp] theorem record_walk (e : ErrCode) (v : Word) (s : State) : (record e v s).walk = s.walk := rfl
@[simp] theorem record_acc (e : ErrCode) (v : Word) (s : State) : (record e v s).acc = s.acc := rfl
@[simp] theorem record_accN (e : ErrCode) (v : Word) (s : State) : (record e v s).accN = s.accN := rfl
@[simp] theorem record_inCnt (e : ErrCode) (v : Word) (s : State) : (record e v s).inCnt = s.inCnt := rfl
@[simp] theorem record_outCnt (e : ErrCode) (v : Word) (s : State) : (record e v s).outCnt = s.outCnt := rfl
@[simp] theorem record_node (e : ErrCode) (v : Word) (s : State) : (record e v s).node = s.node := rfl
@[simp] theorem record_codeLen (e : ErrCode) (v : Word) (s : State) : (record e v s).codeLen = s.codeLen := rfl
@[simp] theorem record_codeBits (e : ErrCode) (v : Word) (s : State) : (record e v s).codeBits = s.codeBits := rfl
@[simp] theorem record_symq (e : ErrCode) (v : Word) (s : State) : (record e v s).symq = s.symq := rfl
@[simp] theorem record_wordq (e : ErrCode) (v : Word) (s : State) : (record e v s).wordq = s.wordq := rfl
@[simp] theorem record_pending (e : ErrCode) (v : Word) (s : State) : (record e v s).pending = s.pending := rfl
@[simp] theorem record_responses (e : ErrCode) (v : Word) (s : State) : (record e v s).responses = s.responses := rfl

/-! ### `sessionClear` -/

@[simp] theorem sessionClear_data (s : State) : (sessionClear s).data = s.data := rfl
@[simp] theorem sessionClear_session (s : State) : (sessionClear s).session = s.session := rfl
@[simp] theorem sessionClear_done (s : State) : (sessionClear s).done = false := rfl
@[simp] theorem sessionClear_err (s : State) : (sessionClear s).err = .none := rfl
@[simp] theorem sessionClear_errInfo (s : State) : (sessionClear s).errInfo = 0 := rfl
@[simp] theorem sessionClear_walk (s : State) : (sessionClear s).walk = 0 := rfl
@[simp] theorem sessionClear_acc (s : State) : (sessionClear s).acc = 0 := rfl
@[simp] theorem sessionClear_accN (s : State) : (sessionClear s).accN = 0 := rfl
@[simp] theorem sessionClear_inCnt (s : State) : (sessionClear s).inCnt = 0 := rfl
@[simp] theorem sessionClear_outCnt (s : State) : (sessionClear s).outCnt = 0 := rfl
@[simp] theorem sessionClear_node (s : State) : (sessionClear s).node = s.node := rfl
@[simp] theorem sessionClear_codeLen (s : State) : (sessionClear s).codeLen = s.codeLen := rfl
@[simp] theorem sessionClear_codeBits (s : State) : (sessionClear s).codeBits = s.codeBits := rfl
@[simp] theorem sessionClear_symq (s : State) : (sessionClear s).symq = [] := rfl
@[simp] theorem sessionClear_wordq (s : State) : (sessionClear s).wordq = [] := rfl
@[simp] theorem sessionClear_pending (s : State) : (sessionClear s).pending = s.pending := rfl
@[simp] theorem sessionClear_responses (s : State) : (sessionClear s).responses = s.responses := rfl

/-! ### `countIn` -/

@[simp] theorem countIn_data (s : State) : (countIn s).data = s.data := rfl
@[simp] theorem countIn_session (s : State) : (countIn s).session = s.session := rfl
@[simp] theorem countIn_done (s : State) : (countIn s).done = s.done := rfl
@[simp] theorem countIn_err (s : State) : (countIn s).err = s.err := rfl
@[simp] theorem countIn_errInfo (s : State) : (countIn s).errInfo = s.errInfo := rfl
@[simp] theorem countIn_walk (s : State) : (countIn s).walk = s.walk := rfl
@[simp] theorem countIn_acc (s : State) : (countIn s).acc = s.acc := rfl
@[simp] theorem countIn_accN (s : State) : (countIn s).accN = s.accN := rfl
@[simp] theorem countIn_inCnt (s : State) : (countIn s).inCnt = satInc s.inCnt := rfl
@[simp] theorem countIn_outCnt (s : State) : (countIn s).outCnt = s.outCnt := rfl
@[simp] theorem countIn_node (s : State) : (countIn s).node = s.node := rfl
@[simp] theorem countIn_codeLen (s : State) : (countIn s).codeLen = s.codeLen := rfl
@[simp] theorem countIn_codeBits (s : State) : (countIn s).codeBits = s.codeBits := rfl
@[simp] theorem countIn_symq (s : State) : (countIn s).symq = s.symq := rfl
@[simp] theorem countIn_wordq (s : State) : (countIn s).wordq = s.wordq := rfl
@[simp] theorem countIn_pending (s : State) : (countIn s).pending = s.pending := rfl
@[simp] theorem countIn_responses (s : State) : (countIn s).responses = s.responses := rfl

/-! ### `countOut` -/

@[simp] theorem countOut_data (s : State) : (countOut s).data = s.data := rfl
@[simp] theorem countOut_session (s : State) : (countOut s).session = s.session := rfl
@[simp] theorem countOut_done (s : State) : (countOut s).done = s.done := rfl
@[simp] theorem countOut_err (s : State) : (countOut s).err = s.err := rfl
@[simp] theorem countOut_errInfo (s : State) : (countOut s).errInfo = s.errInfo := rfl
@[simp] theorem countOut_walk (s : State) : (countOut s).walk = s.walk := rfl
@[simp] theorem countOut_acc (s : State) : (countOut s).acc = s.acc := rfl
@[simp] theorem countOut_accN (s : State) : (countOut s).accN = s.accN := rfl
@[simp] theorem countOut_inCnt (s : State) : (countOut s).inCnt = s.inCnt := rfl
@[simp] theorem countOut_outCnt (s : State) : (countOut s).outCnt = satInc s.outCnt := rfl
@[simp] theorem countOut_node (s : State) : (countOut s).node = s.node := rfl
@[simp] theorem countOut_codeLen (s : State) : (countOut s).codeLen = s.codeLen := rfl
@[simp] theorem countOut_codeBits (s : State) : (countOut s).codeBits = s.codeBits := rfl
@[simp] theorem countOut_symq (s : State) : (countOut s).symq = s.symq := rfl
@[simp] theorem countOut_wordq (s : State) : (countOut s).wordq = s.wordq := rfl
@[simp] theorem countOut_pending (s : State) : (countOut s).pending = s.pending := rfl
@[simp] theorem countOut_responses (s : State) : (countOut s).responses = s.responses := rfl

/-! ### `pushSym` -/

@[simp] theorem pushSym_data (c : Sym) (s : State) : (pushSym c s).data = s.data := rfl
@[simp] theorem pushSym_session (c : Sym) (s : State) : (pushSym c s).session = s.session := rfl
@[simp] theorem pushSym_done (c : Sym) (s : State) : (pushSym c s).done = s.done := rfl
@[simp] theorem pushSym_err (c : Sym) (s : State) : (pushSym c s).err = s.err := rfl
@[simp] theorem pushSym_errInfo (c : Sym) (s : State) : (pushSym c s).errInfo = s.errInfo := rfl
@[simp] theorem pushSym_walk (c : Sym) (s : State) : (pushSym c s).walk = s.walk := rfl
@[simp] theorem pushSym_acc (c : Sym) (s : State) : (pushSym c s).acc = s.acc := rfl
@[simp] theorem pushSym_accN (c : Sym) (s : State) : (pushSym c s).accN = s.accN := rfl
@[simp] theorem pushSym_inCnt (c : Sym) (s : State) : (pushSym c s).inCnt = s.inCnt := rfl
@[simp] theorem pushSym_outCnt (c : Sym) (s : State) : (pushSym c s).outCnt = s.outCnt := rfl
@[simp] theorem pushSym_node (c : Sym) (s : State) : (pushSym c s).node = s.node := rfl
@[simp] theorem pushSym_codeLen (c : Sym) (s : State) : (pushSym c s).codeLen = s.codeLen := rfl
@[simp] theorem pushSym_codeBits (c : Sym) (s : State) : (pushSym c s).codeBits = s.codeBits := rfl
@[simp] theorem pushSym_symq (c : Sym) (s : State) : (pushSym c s).symq = s.symq ++ [c] := rfl
@[simp] theorem pushSym_wordq (c : Sym) (s : State) : (pushSym c s).wordq = s.wordq := rfl
@[simp] theorem pushSym_pending (c : Sym) (s : State) : (pushSym c s).pending = s.pending := rfl
@[simp] theorem pushSym_responses (c : Sym) (s : State) : (pushSym c s).responses = s.responses := rfl

/-! ### `pushWord` -/

@[simp] theorem pushWord_data (w : Word) (s : State) : (pushWord w s).data = s.data := rfl
@[simp] theorem pushWord_session (w : Word) (s : State) : (pushWord w s).session = s.session := rfl
@[simp] theorem pushWord_done (w : Word) (s : State) : (pushWord w s).done = s.done := rfl
@[simp] theorem pushWord_err (w : Word) (s : State) : (pushWord w s).err = s.err := rfl
@[simp] theorem pushWord_errInfo (w : Word) (s : State) : (pushWord w s).errInfo = s.errInfo := rfl
@[simp] theorem pushWord_walk (w : Word) (s : State) : (pushWord w s).walk = s.walk := rfl
@[simp] theorem pushWord_acc (w : Word) (s : State) : (pushWord w s).acc = s.acc := rfl
@[simp] theorem pushWord_accN (w : Word) (s : State) : (pushWord w s).accN = s.accN := rfl
@[simp] theorem pushWord_inCnt (w : Word) (s : State) : (pushWord w s).inCnt = s.inCnt := rfl
@[simp] theorem pushWord_outCnt (w : Word) (s : State) : (pushWord w s).outCnt = s.outCnt := rfl
@[simp] theorem pushWord_node (w : Word) (s : State) : (pushWord w s).node = s.node := rfl
@[simp] theorem pushWord_codeLen (w : Word) (s : State) : (pushWord w s).codeLen = s.codeLen := rfl
@[simp] theorem pushWord_codeBits (w : Word) (s : State) : (pushWord w s).codeBits = s.codeBits := rfl
@[simp] theorem pushWord_symq (w : Word) (s : State) : (pushWord w s).symq = s.symq := rfl
@[simp] theorem pushWord_wordq (w : Word) (s : State) : (pushWord w s).wordq = s.wordq ++ [w] := rfl
@[simp] theorem pushWord_pending (w : Word) (s : State) : (pushWord w s).pending = s.pending := rfl
@[simp] theorem pushWord_responses (w : Word) (s : State) : (pushWord w s).responses = s.responses := rfl

/-! ### `emit` -/

@[simp] theorem emit_data (c : Sym) (s : State) : (emit c s).data = s.data := rfl
@[simp] theorem emit_session (c : Sym) (s : State) : (emit c s).session = s.session := rfl
@[simp] theorem emit_done (c : Sym) (s : State) : (emit c s).done = s.done := rfl
@[simp] theorem emit_err (c : Sym) (s : State) : (emit c s).err = s.err := rfl
@[simp] theorem emit_errInfo (c : Sym) (s : State) : (emit c s).errInfo = s.errInfo := rfl
@[simp] theorem emit_walk (c : Sym) (s : State) : (emit c s).walk = s.walk := rfl
@[simp] theorem emit_acc (c : Sym) (s : State) : (emit c s).acc = s.acc := rfl
@[simp] theorem emit_accN (c : Sym) (s : State) : (emit c s).accN = s.accN := rfl
@[simp] theorem emit_inCnt (c : Sym) (s : State) : (emit c s).inCnt = s.inCnt := rfl
@[simp] theorem emit_outCnt (c : Sym) (s : State) : (emit c s).outCnt = satInc s.outCnt := rfl
@[simp] theorem emit_node (c : Sym) (s : State) : (emit c s).node = s.node := rfl
@[simp] theorem emit_codeLen (c : Sym) (s : State) : (emit c s).codeLen = s.codeLen := rfl
@[simp] theorem emit_codeBits (c : Sym) (s : State) : (emit c s).codeBits = s.codeBits := rfl
@[simp] theorem emit_symq (c : Sym) (s : State) : (emit c s).symq = s.symq ++ [c] := rfl
@[simp] theorem emit_wordq (c : Sym) (s : State) : (emit c s).wordq = s.wordq := rfl
@[simp] theorem emit_pending (c : Sym) (s : State) : (emit c s).pending = s.pending := rfl
@[simp] theorem emit_responses (c : Sym) (s : State) : (emit c s).responses = s.responses := rfl

/-! ### `endSession` -/

@[simp] theorem endSession_data (s : State) : (endSession s).data = s.data := rfl
@[simp] theorem endSession_session (s : State) : (endSession s).session = .idle := rfl
@[simp] theorem endSession_done (s : State) : (endSession s).done = true := rfl
@[simp] theorem endSession_err (s : State) : (endSession s).err = s.err := rfl
@[simp] theorem endSession_errInfo (s : State) : (endSession s).errInfo = s.errInfo := rfl
@[simp] theorem endSession_walk (s : State) : (endSession s).walk = s.walk := rfl
@[simp] theorem endSession_acc (s : State) : (endSession s).acc = s.acc := rfl
@[simp] theorem endSession_accN (s : State) : (endSession s).accN = s.accN := rfl
@[simp] theorem endSession_inCnt (s : State) : (endSession s).inCnt = s.inCnt := rfl
@[simp] theorem endSession_outCnt (s : State) : (endSession s).outCnt = s.outCnt := rfl
@[simp] theorem endSession_node (s : State) : (endSession s).node = s.node := rfl
@[simp] theorem endSession_codeLen (s : State) : (endSession s).codeLen = s.codeLen := rfl
@[simp] theorem endSession_codeBits (s : State) : (endSession s).codeBits = s.codeBits := rfl
@[simp] theorem endSession_symq (s : State) : (endSession s).symq = s.symq := rfl
@[simp] theorem endSession_wordq (s : State) : (endSession s).wordq = s.wordq := rfl
@[simp] theorem endSession_pending (s : State) : (endSession s).pending = s.pending := rfl
@[simp] theorem endSession_responses (s : State) : (endSession s).responses = s.responses := rfl

/-! ### `reply` -/

@[simp] theorem reply_data (r : Response) (s : State) : (reply r s).data = s.data := rfl
@[simp] theorem reply_session (r : Response) (s : State) : (reply r s).session = s.session := rfl
@[simp] theorem reply_done (r : Response) (s : State) : (reply r s).done = s.done := rfl
@[simp] theorem reply_err (r : Response) (s : State) : (reply r s).err = s.err := rfl
@[simp] theorem reply_errInfo (r : Response) (s : State) : (reply r s).errInfo = s.errInfo := rfl
@[simp] theorem reply_walk (r : Response) (s : State) : (reply r s).walk = s.walk := rfl
@[simp] theorem reply_acc (r : Response) (s : State) : (reply r s).acc = s.acc := rfl
@[simp] theorem reply_accN (r : Response) (s : State) : (reply r s).accN = s.accN := rfl
@[simp] theorem reply_inCnt (r : Response) (s : State) : (reply r s).inCnt = s.inCnt := rfl
@[simp] theorem reply_outCnt (r : Response) (s : State) : (reply r s).outCnt = s.outCnt := rfl
@[simp] theorem reply_node (r : Response) (s : State) : (reply r s).node = s.node := rfl
@[simp] theorem reply_codeLen (r : Response) (s : State) : (reply r s).codeLen = s.codeLen := rfl
@[simp] theorem reply_codeBits (r : Response) (s : State) : (reply r s).codeBits = s.codeBits := rfl
@[simp] theorem reply_symq (r : Response) (s : State) : (reply r s).symq = s.symq := rfl
@[simp] theorem reply_wordq (r : Response) (s : State) : (reply r s).wordq = s.wordq := rfl
@[simp] theorem reply_pending (r : Response) (s : State) : (reply r s).pending = s.pending := rfl
@[simp] theorem reply_responses (r : Response) (s : State) : (reply r s).responses = s.responses ++ [r] := rfl

/-! ### `storeNode` -/

@[simp] theorem storeNode_data (i : NodeIndex) (v : Word) (s : State) : (storeNode i v s).data = s.data := rfl
@[simp] theorem storeNode_session (i : NodeIndex) (v : Word) (s : State) : (storeNode i v s).session = s.session := rfl
@[simp] theorem storeNode_done (i : NodeIndex) (v : Word) (s : State) : (storeNode i v s).done = s.done := rfl
@[simp] theorem storeNode_err (i : NodeIndex) (v : Word) (s : State) : (storeNode i v s).err = s.err := rfl
@[simp] theorem storeNode_errInfo (i : NodeIndex) (v : Word) (s : State) : (storeNode i v s).errInfo = s.errInfo := rfl
@[simp] theorem storeNode_walk (i : NodeIndex) (v : Word) (s : State) : (storeNode i v s).walk = s.walk := rfl
@[simp] theorem storeNode_acc (i : NodeIndex) (v : Word) (s : State) : (storeNode i v s).acc = s.acc := rfl
@[simp] theorem storeNode_accN (i : NodeIndex) (v : Word) (s : State) : (storeNode i v s).accN = s.accN := rfl
@[simp] theorem storeNode_inCnt (i : NodeIndex) (v : Word) (s : State) : (storeNode i v s).inCnt = s.inCnt := rfl
@[simp] theorem storeNode_outCnt (i : NodeIndex) (v : Word) (s : State) : (storeNode i v s).outCnt = s.outCnt := rfl
@[simp] theorem storeNode_node (i : NodeIndex) (v : Word) (s : State) : (storeNode i v s).node = s.node.write i.toNat v := rfl
@[simp] theorem storeNode_codeLen (i : NodeIndex) (v : Word) (s : State) : (storeNode i v s).codeLen = s.codeLen := rfl
@[simp] theorem storeNode_codeBits (i : NodeIndex) (v : Word) (s : State) : (storeNode i v s).codeBits = s.codeBits := rfl
@[simp] theorem storeNode_symq (i : NodeIndex) (v : Word) (s : State) : (storeNode i v s).symq = s.symq := rfl
@[simp] theorem storeNode_wordq (i : NodeIndex) (v : Word) (s : State) : (storeNode i v s).wordq = s.wordq := rfl
@[simp] theorem storeNode_pending (i : NodeIndex) (v : Word) (s : State) : (storeNode i v s).pending = s.pending := rfl
@[simp] theorem storeNode_responses (i : NodeIndex) (v : Word) (s : State) : (storeNode i v s).responses = s.responses := rfl

/-! ### `storeCodeLen` -/

@[simp] theorem storeCodeLen_data (c : Sym) (v : Word) (s : State) : (storeCodeLen c v s).data = s.data := rfl
@[simp] theorem storeCodeLen_session (c : Sym) (v : Word) (s : State) : (storeCodeLen c v s).session = s.session := rfl
@[simp] theorem storeCodeLen_done (c : Sym) (v : Word) (s : State) : (storeCodeLen c v s).done = s.done := rfl
@[simp] theorem storeCodeLen_err (c : Sym) (v : Word) (s : State) : (storeCodeLen c v s).err = s.err := rfl
@[simp] theorem storeCodeLen_errInfo (c : Sym) (v : Word) (s : State) : (storeCodeLen c v s).errInfo = s.errInfo := rfl
@[simp] theorem storeCodeLen_walk (c : Sym) (v : Word) (s : State) : (storeCodeLen c v s).walk = s.walk := rfl
@[simp] theorem storeCodeLen_acc (c : Sym) (v : Word) (s : State) : (storeCodeLen c v s).acc = s.acc := rfl
@[simp] theorem storeCodeLen_accN (c : Sym) (v : Word) (s : State) : (storeCodeLen c v s).accN = s.accN := rfl
@[simp] theorem storeCodeLen_inCnt (c : Sym) (v : Word) (s : State) : (storeCodeLen c v s).inCnt = s.inCnt := rfl
@[simp] theorem storeCodeLen_outCnt (c : Sym) (v : Word) (s : State) : (storeCodeLen c v s).outCnt = s.outCnt := rfl
@[simp] theorem storeCodeLen_node (c : Sym) (v : Word) (s : State) : (storeCodeLen c v s).node = s.node := rfl
@[simp] theorem storeCodeLen_codeLen (c : Sym) (v : Word) (s : State) : (storeCodeLen c v s).codeLen = s.codeLen.write c.toNat v := rfl
@[simp] theorem storeCodeLen_codeBits (c : Sym) (v : Word) (s : State) : (storeCodeLen c v s).codeBits = s.codeBits := rfl
@[simp] theorem storeCodeLen_symq (c : Sym) (v : Word) (s : State) : (storeCodeLen c v s).symq = s.symq := rfl
@[simp] theorem storeCodeLen_wordq (c : Sym) (v : Word) (s : State) : (storeCodeLen c v s).wordq = s.wordq := rfl
@[simp] theorem storeCodeLen_pending (c : Sym) (v : Word) (s : State) : (storeCodeLen c v s).pending = s.pending := rfl
@[simp] theorem storeCodeLen_responses (c : Sym) (v : Word) (s : State) : (storeCodeLen c v s).responses = s.responses := rfl

/-! ### `storeCodeBits` -/

@[simp] theorem storeCodeBits_data (c : Sym) (k : Nat) (v : Word) (s : State) : (storeCodeBits c k v s).data = s.data := rfl
@[simp] theorem storeCodeBits_session (c : Sym) (k : Nat) (v : Word) (s : State) : (storeCodeBits c k v s).session = s.session := rfl
@[simp] theorem storeCodeBits_done (c : Sym) (k : Nat) (v : Word) (s : State) : (storeCodeBits c k v s).done = s.done := rfl
@[simp] theorem storeCodeBits_err (c : Sym) (k : Nat) (v : Word) (s : State) : (storeCodeBits c k v s).err = s.err := rfl
@[simp] theorem storeCodeBits_errInfo (c : Sym) (k : Nat) (v : Word) (s : State) : (storeCodeBits c k v s).errInfo = s.errInfo := rfl
@[simp] theorem storeCodeBits_walk (c : Sym) (k : Nat) (v : Word) (s : State) : (storeCodeBits c k v s).walk = s.walk := rfl
@[simp] theorem storeCodeBits_acc (c : Sym) (k : Nat) (v : Word) (s : State) : (storeCodeBits c k v s).acc = s.acc := rfl
@[simp] theorem storeCodeBits_accN (c : Sym) (k : Nat) (v : Word) (s : State) : (storeCodeBits c k v s).accN = s.accN := rfl
@[simp] theorem storeCodeBits_inCnt (c : Sym) (k : Nat) (v : Word) (s : State) : (storeCodeBits c k v s).inCnt = s.inCnt := rfl
@[simp] theorem storeCodeBits_outCnt (c : Sym) (k : Nat) (v : Word) (s : State) : (storeCodeBits c k v s).outCnt = s.outCnt := rfl
@[simp] theorem storeCodeBits_node (c : Sym) (k : Nat) (v : Word) (s : State) : (storeCodeBits c k v s).node = s.node := rfl
@[simp] theorem storeCodeBits_codeLen (c : Sym) (k : Nat) (v : Word) (s : State) : (storeCodeBits c k v s).codeLen = s.codeLen := rfl
@[simp] theorem storeCodeBits_codeBits (c : Sym) (k : Nat) (v : Word) (s : State) : (storeCodeBits c k v s).codeBits = s.codeBits.write (codeBitsKey c k) v := rfl
@[simp] theorem storeCodeBits_symq (c : Sym) (k : Nat) (v : Word) (s : State) : (storeCodeBits c k v s).symq = s.symq := rfl
@[simp] theorem storeCodeBits_wordq (c : Sym) (k : Nat) (v : Word) (s : State) : (storeCodeBits c k v s).wordq = s.wordq := rfl
@[simp] theorem storeCodeBits_pending (c : Sym) (k : Nat) (v : Word) (s : State) : (storeCodeBits c k v s).pending = s.pending := rfl
@[simp] theorem storeCodeBits_responses (c : Sym) (k : Nat) (v : Word) (s : State) : (storeCodeBits c k v s).responses = s.responses := rfl

/-! ### `resetEvent` -/

@[simp] theorem resetEvent_data (s : State) : (resetEvent s).data = State.reset.data := rfl
@[simp] theorem resetEvent_session (s : State) : (resetEvent s).session = State.reset.session := rfl
@[simp] theorem resetEvent_done (s : State) : (resetEvent s).done = State.reset.done := rfl
@[simp] theorem resetEvent_err (s : State) : (resetEvent s).err = State.reset.err := rfl
@[simp] theorem resetEvent_errInfo (s : State) : (resetEvent s).errInfo = State.reset.errInfo := rfl
@[simp] theorem resetEvent_walk (s : State) : (resetEvent s).walk = State.reset.walk := rfl
@[simp] theorem resetEvent_acc (s : State) : (resetEvent s).acc = State.reset.acc := rfl
@[simp] theorem resetEvent_accN (s : State) : (resetEvent s).accN = State.reset.accN := rfl
@[simp] theorem resetEvent_inCnt (s : State) : (resetEvent s).inCnt = State.reset.inCnt := rfl
@[simp] theorem resetEvent_outCnt (s : State) : (resetEvent s).outCnt = State.reset.outCnt := rfl
@[simp] theorem resetEvent_node (s : State) : (resetEvent s).node = State.reset.node := rfl
@[simp] theorem resetEvent_codeLen (s : State) : (resetEvent s).codeLen = State.reset.codeLen := rfl
@[simp] theorem resetEvent_codeBits (s : State) : (resetEvent s).codeBits = State.reset.codeBits := rfl
@[simp] theorem resetEvent_symq (s : State) : (resetEvent s).symq = State.reset.symq := rfl
@[simp] theorem resetEvent_wordq (s : State) : (resetEvent s).wordq = State.reset.wordq := rfl
@[simp] theorem resetEvent_pending (s : State) : (resetEvent s).pending = s.pending := rfl
@[simp] theorem resetEvent_responses (s : State) : (resetEvent s).responses = s.responses := rfl

/-! ### `appendBit` and `appendBits`: the fields they leave -/

@[simp] theorem appendBit_data (s : State) (b : Bool) : (appendBit s b).data = s.data := by
  unfold appendBit; split <;> rfl
@[simp] theorem appendBit_session (s : State) (b : Bool) : (appendBit s b).session = s.session := by
  unfold appendBit; split <;> rfl
@[simp] theorem appendBit_done (s : State) (b : Bool) : (appendBit s b).done = s.done := by
  unfold appendBit; split <;> rfl
@[simp] theorem appendBit_err (s : State) (b : Bool) : (appendBit s b).err = s.err := by
  unfold appendBit; split <;> rfl
@[simp] theorem appendBit_errInfo (s : State) (b : Bool) : (appendBit s b).errInfo = s.errInfo := by
  unfold appendBit; split <;> rfl
@[simp] theorem appendBit_walk (s : State) (b : Bool) : (appendBit s b).walk = s.walk := by
  unfold appendBit; split <;> rfl
@[simp] theorem appendBit_inCnt (s : State) (b : Bool) : (appendBit s b).inCnt = s.inCnt := by
  unfold appendBit; split <;> rfl
@[simp] theorem appendBit_node (s : State) (b : Bool) : (appendBit s b).node = s.node := by
  unfold appendBit; split <;> rfl
@[simp] theorem appendBit_codeLen (s : State) (b : Bool) : (appendBit s b).codeLen = s.codeLen := by
  unfold appendBit; split <;> rfl
@[simp] theorem appendBit_codeBits (s : State) (b : Bool) : (appendBit s b).codeBits = s.codeBits := by
  unfold appendBit; split <;> rfl
@[simp] theorem appendBit_symq (s : State) (b : Bool) : (appendBit s b).symq = s.symq := by
  unfold appendBit; split <;> rfl
@[simp] theorem appendBit_pending (s : State) (b : Bool) : (appendBit s b).pending = s.pending := by
  unfold appendBit; split <;> rfl
@[simp] theorem appendBit_responses (s : State) (b : Bool) : (appendBit s b).responses = s.responses := by
  unfold appendBit; split <;> rfl
@[simp] theorem appendBit_outCnt (s : State) (b : Bool) : (appendBit s b).outCnt = satInc s.outCnt := by
  unfold appendBit; split <;> rfl
@[simp] theorem appendBits_nil (s : State) : appendBits s [] = s := rfl
@[simp] theorem appendBits_cons (s : State) (b : Bool) (bs : List Bool) :
    appendBits s (b :: bs) = appendBits (appendBit s b) bs := rfl
@[simp] theorem appendBits_data (bits : List Bool) (s : State) : (appendBits s bits).data = s.data := by
  induction bits generalizing s with
  | nil => rfl
  | cons b bs ih => simp [ih]
@[simp] theorem appendBits_session (bits : List Bool) (s : State) : (appendBits s bits).session = s.session := by
  induction bits generalizing s with
  | nil => rfl
  | cons b bs ih => simp [ih]
@[simp] theorem appendBits_done (bits : List Bool) (s : State) : (appendBits s bits).done = s.done := by
  induction bits generalizing s with
  | nil => rfl
  | cons b bs ih => simp [ih]
@[simp] theorem appendBits_err (bits : List Bool) (s : State) : (appendBits s bits).err = s.err := by
  induction bits generalizing s with
  | nil => rfl
  | cons b bs ih => simp [ih]
@[simp] theorem appendBits_errInfo (bits : List Bool) (s : State) : (appendBits s bits).errInfo = s.errInfo := by
  induction bits generalizing s with
  | nil => rfl
  | cons b bs ih => simp [ih]
@[simp] theorem appendBits_walk (bits : List Bool) (s : State) : (appendBits s bits).walk = s.walk := by
  induction bits generalizing s with
  | nil => rfl
  | cons b bs ih => simp [ih]
@[simp] theorem appendBits_inCnt (bits : List Bool) (s : State) : (appendBits s bits).inCnt = s.inCnt := by
  induction bits generalizing s with
  | nil => rfl
  | cons b bs ih => simp [ih]
@[simp] theorem appendBits_node (bits : List Bool) (s : State) : (appendBits s bits).node = s.node := by
  induction bits generalizing s with
  | nil => rfl
  | cons b bs ih => simp [ih]
@[simp] theorem appendBits_codeLen (bits : List Bool) (s : State) : (appendBits s bits).codeLen = s.codeLen := by
  induction bits generalizing s with
  | nil => rfl
  | cons b bs ih => simp [ih]
@[simp] theorem appendBits_codeBits (bits : List Bool) (s : State) : (appendBits s bits).codeBits = s.codeBits := by
  induction bits generalizing s with
  | nil => rfl
  | cons b bs ih => simp [ih]
@[simp] theorem appendBits_symq (bits : List Bool) (s : State) : (appendBits s bits).symq = s.symq := by
  induction bits generalizing s with
  | nil => rfl
  | cons b bs ih => simp [ih]
@[simp] theorem appendBits_pending (bits : List Bool) (s : State) : (appendBits s bits).pending = s.pending := by
  induction bits generalizing s with
  | nil => rfl
  | cons b bs ih => simp [ih]
@[simp] theorem appendBits_responses (bits : List Bool) (s : State) : (appendBits s bits).responses = s.responses := by
  induction bits generalizing s with
  | nil => rfl
  | cons b bs ih => simp [ih]

/-! ### `flushPartial`: the fields it leaves -/

@[simp] theorem flushPartial_data (s : State) : (flushPartial s).data = s.data := by
  unfold flushPartial; split <;> rfl
@[simp] theorem flushPartial_session (s : State) : (flushPartial s).session = s.session := by
  unfold flushPartial; split <;> rfl
@[simp] theorem flushPartial_done (s : State) : (flushPartial s).done = s.done := by
  unfold flushPartial; split <;> rfl
@[simp] theorem flushPartial_err (s : State) : (flushPartial s).err = s.err := by
  unfold flushPartial; split <;> rfl
@[simp] theorem flushPartial_errInfo (s : State) : (flushPartial s).errInfo = s.errInfo := by
  unfold flushPartial; split <;> rfl
@[simp] theorem flushPartial_walk (s : State) : (flushPartial s).walk = s.walk := by
  unfold flushPartial; split <;> rfl
@[simp] theorem flushPartial_inCnt (s : State) : (flushPartial s).inCnt = s.inCnt := by
  unfold flushPartial; split <;> rfl
@[simp] theorem flushPartial_outCnt (s : State) : (flushPartial s).outCnt = s.outCnt := by
  unfold flushPartial; split <;> rfl
@[simp] theorem flushPartial_node (s : State) : (flushPartial s).node = s.node := by
  unfold flushPartial; split <;> rfl
@[simp] theorem flushPartial_codeLen (s : State) : (flushPartial s).codeLen = s.codeLen := by
  unfold flushPartial; split <;> rfl
@[simp] theorem flushPartial_codeBits (s : State) : (flushPartial s).codeBits = s.codeBits := by
  unfold flushPartial; split <;> rfl
@[simp] theorem flushPartial_symq (s : State) : (flushPartial s).symq = s.symq := by
  unfold flushPartial; split <;> rfl
@[simp] theorem flushPartial_pending (s : State) : (flushPartial s).pending = s.pending := by
  unfold flushPartial; split <;> rfl
@[simp] theorem flushPartial_responses (s : State) : (flushPartial s).responses = s.responses := by
  unfold flushPartial; split <;> rfl

end Sys2Proof.Machine
end

