-- ==== Sys2Proof/Laws/Ops.lean ====
section
/-! SUPPORT. What each shared operation of the commands can do, said once: the accumulator (R142), the walk
(R170, R173), and the way every command ends (R10, R120). -/

namespace Sys2Proof.Machine

/-! ### The accumulator -/

/-- A word of a bit sequence is not changed by bits appended after it. -/
theorem packedWord_append (p q : List Bool) (k : Nat) (h : 32 * (k + 1) ≤ p.length) :
    packedWord (p ++ q) k = packedWord p k := by
  unfold packedWord
  rw [List.drop_append_of_le_length (by omega), List.take_append_of_le_length (by simp; omega)]

/-- The last, partial word of a sequence. -/
theorem packedWord_last (p : List Bool) :
    packedWord p (p.length / 32) = packWord (p.drop (32 * (p.length / 32))) := by
  unfold packedWord
  rw [List.take_of_length_le (by simp; omega)]

/-- The accumulator and queue after a stream of bits whose words before `base` words were there already. -/
structure Accumulated (s : State) (before : List Word) (stream : List Bool) : Prop where
  accN : s.accN.toNat = stream.length % 32
  acc : s.acc = packedWord stream (stream.length / 32)
  wordq : s.wordq = before ++ (List.range (stream.length / 32)).map (packedWord stream)

/-- One appended bit (R142). -/
theorem Accumulated.appendBit {s : State} {before : List Word} {stream : List Bool}
    (h : Accumulated s before stream) (b : Bool) :
    Accumulated (appendBit s b) before (stream ++ [b]) := by
  obtain ⟨hn, ha, hq⟩ := h
  have hlen : (stream.drop (32 * (stream.length / 32))).length = stream.length % 32 := by
    simp; omega
  have hset : setBit s.acc (31 - s.accN.toNat) b =
      packWord (stream.drop (32 * (stream.length / 32)) ++ [b]) := by
    rw [ha, packedWord_last, hn, ← hlen, setBit_packWord _ _ (by rw [hlen]; omega)]
  have hdrop : stream.drop (32 * (stream.length / 32)) ++ [b] =
      (stream ++ [b]).drop (32 * (stream.length / 32)) := by
    rw [List.drop_append_of_le_length (by omega)]
  have hold : ∀ k, k < stream.length / 32 → packedWord (stream ++ [b]) k = packedWord stream k :=
    fun k hk => packedWord_append _ _ _ (by omega)
  have hmap : (List.range (stream.length / 32)).map (packedWord (stream ++ [b])) =
      (List.range (stream.length / 32)).map (packedWord stream) :=
    List.map_congr_left fun k hk => hold k (List.mem_range.mp hk)
  have hcur : packWord ((stream ++ [b]).drop (32 * (stream.length / 32))) =
      packedWord (stream ++ [b]) (stream.length / 32) := by
    unfold packedWord
    rw [List.take_of_length_le (by simp; omega)]
  unfold Machine.appendBit
  split
  · rename_i h31
    have h31 : stream.length % 32 = 31 := by rw [← hn, h31]; rfl
    have hq1 : (stream.length + 1) / 32 = stream.length / 32 + 1 := by omega
    have hm1 : (stream.length + 1) % 32 = 0 := by omega
    refine ⟨by simp [hm1], ?_, ?_⟩
    · have : (stream ++ [b]).drop (32 * ((stream ++ [b]).length / 32)) = [] := by
        rw [List.drop_eq_nil_iff]; simp; omega
      rw [packedWord_last, this]
      rfl
    · simp only [pushWord, countOut, List.length_append, List.length_singleton, hq1,
        List.range_succ, List.map_append, List.map_cons, List.map_nil, hmap, hset, hdrop, hcur, hq,
        List.append_assoc]
  · rename_i h31
    have hne : stream.length % 32 ≠ 31 := fun h => h31 (by
      apply BitVec.eq_of_toNat_eq; rw [hn, h]; rfl)
    have hq1 : (stream.length + 1) / 32 = stream.length / 32 := by omega
    refine ⟨?_, ?_, ?_⟩
    · have h1 : (1 : BitVec 5).toNat = 1 := rfl
      simp only [BitVec.toNat_add, hn, List.length_append, List.length_singleton, h1]
      omega
    · simp only [countOut, List.length_append, List.length_singleton, hq1, hset, hdrop, hcur]
    · simp only [countOut, List.length_append, List.length_singleton, hq1, hmap, hq]

/-- A code's bits appended in order (R145). -/
theorem Accumulated.appendBits {s : State} {before : List Word} {stream : List Bool}
    (h : Accumulated s before stream) (bits : List Bool) :
    Accumulated (appendBits s bits) before (stream ++ bits) := by
  induction bits generalizing s stream with
  | nil => simpa using h
  | cons b bs ih => simpa using ih (h.appendBit b)

/-- OUT_CNT counts the appended bits (R142). -/
theorem appendBits_outCnt (bits : List Bool) (s : State) :
    (appendBits s bits).outCnt = sat32 (s.outCnt.toNat + bits.length) := by
  induction bits generalizing s with
  | nil => simp [sat32_of_word]
  | cons b bs ih =>
    rw [appendBits_cons, ih, appendBit_outCnt, satInc_eq, sat32_sat32_add, List.length_cons,
      Nat.add_comm 1]

/-- A state whose accumulator is clean below its held bits (R28) holds those bits. -/
theorem Accumulated.of_held (s : State) (h : ∀ i < 32 - s.accN.toNat, s.acc.getLsbD i = false) :
    Accumulated s s.wordq (leadingBits s.acc s.accN.toNat) := by
  have hlt := s.accN.isLt
  refine ⟨by simp; omega, ?_, by simp; omega⟩
  rw [packedWord_last]
  have : 32 * ((leadingBits s.acc s.accN.toNat).length / 32) = 0 := by simp; omega
  rw [this, List.drop_zero, packWord_leadingBits _ _ (by omega) h]

/-- What appending a code does to the whole state, in closed form (R142, R145). -/
theorem appendBits_eq (s : State) (bits : List Bool)
    (h : ∀ i < 32 - s.accN.toNat, s.acc.getLsbD i = false) :
    appendBits s bits =
      (let stream := leadingBits s.acc s.accN.toNat ++ bits
       { s with
         wordq := s.wordq ++ (List.range (stream.length / 32)).map (packedWord stream)
         acc := packedWord stream (stream.length / 32)
         accN := BitVec.ofNat 5 (stream.length % 32)
         outCnt := sat32 (s.outCnt.toNat + bits.length) }) := by
  obtain ⟨hn, ha, hq⟩ := (Accumulated.of_held s h).appendBits bits
  have hn' : (appendBits s bits).accN =
      BitVec.ofNat 5 ((leadingBits s.acc s.accN.toNat ++ bits).length % 32) := by
    apply BitVec.eq_of_toNat_eq
    rw [hn, BitVec.toNat_ofNat]
    exact (Nat.mod_eq_of_lt (Nat.mod_lt _ (by decide))).symm
  calc appendBits s bits
      = { s with
          wordq := (appendBits s bits).wordq, acc := (appendBits s bits).acc
          accN := (appendBits s bits).accN, outCnt := (appendBits s bits).outCnt } := by
        rw [State.mk.injEq]; simp
    _ = _ := by rw [hq, ha, hn', appendBits_outCnt]

/-! ### The walk -/

/-- A walk step is `branch` on the tree and the walk position, with the emitted symbol pushed and counted
(R170, R171). -/
theorem walkStep_eq (b : Bool) (s : State) :
    walkStep b s =
      match branch s.node s.walk b with
      | .error (e, info) => .raised s e info
      | .ok (next, out) => .completed
          { s with
            symq := s.symq ++ out.toList
            outCnt := sat32 (s.outCnt.toNat + out.toList.length)
            walk := next } := by
  unfold walkStep branch kindAt childAt symAt entry State.nodeWord
  dsimp only
  generalize s.node.read s.walk.toNat = n
  rcases nodeKind n with _ | _ | _ | _
  · rfl
  · cases b <;> rfl
  · dsimp only
    split
    · rfl
    · rcases nodeKind (s.node.read (nodeChild n b).toNat) with _ | _ | _ | _ <;>
        simp [emit, pushSym, countOut, satInc_eq, sat32_of_word]
  · rfl

/-- The two errors of a walk step (R170); neither of them is an output queue's. -/
theorem branch_error {m : Memory} {pos : NodeIndex} {b : Bool} {e : ErrCode} {info : Word}
    (h : branch m pos b = .error (e, info)) : e = .treeInvalid ∨ e = .malformedPayload := by
  unfold branch at h
  repeat' split at h
  all_goals simp_all

theorem walkStar_raised {m : Memory} {bits : List Bool} {pos : NodeIndex} {e : ErrCode} {info : Word}
    (h : (walkStar m pos bits).raised = some (e, info)) : e = .treeInvalid ∨ e = .malformedPayload := by
  induction bits generalizing pos with
  | nil => simp [walkStar] at h
  | cons b bs ih =>
    rw [walkStar] at h
    rcases hb : branch m pos b with ⟨e', info'⟩ | ⟨next, out⟩
    · simp only [hb, Option.some.injEq, Prod.mk.injEq] at h
      obtain ⟨rfl, -⟩ := h
      exact branch_error hb
    · simp only [hb] at h
      exact ih h

/-- DEC_BITS' loop is `walk*` on the tree, the position and the bits (R173, R175). -/
theorem walkBits_eq (bits : List Bool) (s : State) :
    walkBits bits s =
      (let r := walkStar s.node s.walk bits
       let t := { s with
         symq := s.symq ++ r.syms
         walk := r.pos
         inCnt := sat32 (s.inCnt.toNat + r.walked)
         outCnt := sat32 (s.outCnt.toNat + r.syms.length) }
       match r.raised with
       | none => .completed t
       | some (e, info) => .raised t e info) := by
  induction bits generalizing s with
  | nil => simp [walkBits, walkStar, sat32_of_word]
  | cons b bs ih =>
    rw [walkBits, walkStep_eq, walkStar]
    rcases hb : branch s.node s.walk b with ⟨e, info⟩ | ⟨next, out⟩
    · simp [sat32_of_word]
    · dsimp only
      rw [ih]
      simp only [countIn, satInc_eq, sat32_sat32_add, List.append_assoc, List.length_append]
      have h1 : ∀ n : Nat, 1 + n = n + 1 := fun n => Nat.add_comm 1 n
      rcases hr : (walkStar s.node next bs).raised with _ | ⟨e, info⟩ <;> simp [h1]

/-- A walk over two pieces is the walk over the second from where the first stands, if the first did not
stop (R175). -/
theorem walkStar_append (m : Memory) (p q : List Bool) (pos : NodeIndex) :
    walkStar m pos (p ++ q) =
      (let r := walkStar m pos p
       match r.raised with
       | some _ => r
       | none =>
         let r' := walkStar m r.pos q
         ⟨r.syms ++ r'.syms, r'.pos, r.walked + r'.walked, r'.raised⟩) := by
  induction p generalizing pos with
  | nil => simp [walkStar]
  | cons b bs ih =>
    rw [List.cons_append, walkStar, walkStar]
    rcases hb : branch m pos b with ⟨e, info⟩ | ⟨next, out⟩
    · rfl
    · dsimp only
      rw [ih]
      rcases hr : (walkStar m next bs).raised with _ | ⟨e, info⟩ <;> simp [hr]
      omega

/-- A walk that was not stopped walked every bit. -/
theorem walkStar_walked (m : Memory) (p : List Bool) (pos : NodeIndex)
    (h : (walkStar m pos p).raised = none) : (walkStar m pos p).walked = p.length := by
  induction p generalizing pos with
  | nil => rfl
  | cons b bs ih =>
    rw [walkStar] at h ⊢
    rcases hb : branch m pos b with ⟨e, info⟩ | ⟨next, out⟩
    · simp [hb] at h
    · simp only [hb] at h
      simp [ih next h]

/-- Each bit emits at most one symbol (R173). -/
theorem walkStar_syms_length (m : Memory) (p : List Bool) (pos : NodeIndex) :
    (walkStar m pos p).syms.length ≤ p.length := by
  induction p generalizing pos with
  | nil => simp [walkStar]
  | cons b bs ih =>
    rw [walkStar]
    rcases hb : branch m pos b with ⟨e, info⟩ | ⟨next, out⟩
    · simp
    · have := ih next
      rcases out with _ | c <;> simp <;> omega

/-! ### The end of a command -/

@[simp] theorem settle_completed (s : State) : (CommandResult.completed s).settle = s := rfl

@[simp] theorem settle_raised (s : State) (e : ErrCode) (info : Word) :
    (CommandResult.raised s e info).settle = record e info s := rfl

/-- The pseudocode of each command, `perform c` in R120. -/
def pseudocode : Instr → Word → State → CommandResult
  | .nop => fun _ s => .completed s
  | .clr => fun _ s => .completed { sessionClear s with session := .idle }
  | .encStart => fun _ s => .completed { sessionClear s with session := .enc }
  | .encSym c => encodeSymbol c
  | .encEnd => finishEncoding
  | .decStart => fun _ s => .completed { sessionClear s with session := .dec }
  | .decBits n => consumeBits n.toNat
  | .decEnd => fun _ s => finishDecoding s

/-- Every command goes through the one dispatch of R120. -/
theorem exec_eq_runCommand (i : Instr) (s : State) : exec i s = runCommand i (pseudocode i) s := by
  cases i <;> rfl

theorem exec_not_allowed {i : Instr} {s : State} (h : allowed i s.session = false) :
    exec i s = .next (record .sequence (encode i) s) := by
  simp [exec_eq_runCommand, runCommand, h]

theorem exec_allowed {i : Instr} {s : State} (h : allowed i s.session = true) :
    exec i s = .next (pseudocode i (encode i) s).settle := by
  simp [exec_eq_runCommand, runCommand, h]

/-- Every command completes. -/
theorem exec_next (i : Instr) (s : State) : ∃ t, exec i s = .next t :=
  ⟨_, exec_eq_runCommand i s⟩

/-- What an ENC_SYM that may execute leaves (R145). -/
theorem encodeSymbol_cases (c : Sym) (w : Word) (s : State) :
    (∃ e info, e ≠ .none ∧ (encodeSymbol c w s).settle = record e info s) ∨
    (s.codeLength c ≠ 0 ∧ s.wordq.length + s.pushes (s.codeLength c) ≤ Config.wordqDepth ∧
      (encodeSymbol c w s).settle = countIn (appendBits s (s.codeOf c))) := by
  unfold encodeSymbol
  split
  · exact .inl ⟨_, _, by simp, rfl⟩
  · split
    · exact .inl ⟨_, _, by simp, rfl⟩
    · exact .inr ⟨by assumption, by omega, rfl⟩

/-- What an ENC_END that may execute leaves (R146). -/
theorem finishEncoding_cases (w : Word) (s : State) :
    (∃ e info, e ≠ .none ∧ (finishEncoding w s).settle = record e info s) ∨
    (s.inCnt ≠ 0 ∧ (s.accN ≠ 0 → s.wordq.length ≠ Config.wordqDepth) ∧
      (finishEncoding w s).settle = endSession (flushPartial s)) := by
  unfold finishEncoding
  split
  · exact .inl ⟨_, _, by simp, rfl⟩
  · split
    · exact .inl ⟨_, _, by simp, rfl⟩
    · rename_i h
      exact .inr ⟨by assumption, fun h1 h2 => h ⟨h1, h2⟩, rfl⟩

/-- What a DEC_BITS that may execute leaves (R173). -/
theorem consumeBits_cases (n : Nat) (w : Word) (s : State) :
    (∃ e info, e ≠ .none ∧ (consumeBits n w s).settle = record e info s) ∨
    (1 ≤ n ∧ n ≤ Config.nMax ∧ s.symq.length + n ≤ Config.symqDepth ∧
      (consumeBits n w s).settle = (walkBits (s.dataBits n) s).settle) := by
  unfold consumeBits
  split
  · exact .inl ⟨_, _, by simp, rfl⟩
  · split
    · exact .inl ⟨_, _, by simp, rfl⟩
    · exact .inr ⟨by omega, by omega, by omega, rfl⟩

/-- What a DEC_END that may execute leaves (R174). -/
theorem finishDecoding_cases (s : State) :
    (∃ e info, e ≠ .none ∧ (finishDecoding s).settle = record e info s) ∨
    (s.walk = 0 ∧ (finishDecoding s).settle = endSession s) := by
  unfold finishDecoding
  split
  · exact .inl ⟨_, _, by simp, rfl⟩
  · rename_i h
    exact .inr ⟨Decidable.not_not.mp h, rfl⟩

/-- Everything a command can leave. -/
inductive CommandEffect (s : State) : Instr → State → Prop where
  /-- An error is recorded and nothing else is done. -/
  | refused {i : Instr} (e : ErrCode) (info : Word) (h : e ≠ .none) :
      CommandEffect s i (record e info s)
  | nop : CommandEffect s .nop s
  | clr : CommandEffect s .clr { sessionClear s with session := .idle }
  | encStart (h : s.session = .idle) :
      CommandEffect s .encStart { sessionClear s with session := .enc }
  | encSym (c : Sym) (h : s.session = .enc) (hlen : s.codeLength c ≠ 0)
      (room : s.wordq.length + s.pushes (s.codeLength c) ≤ Config.wordqDepth) :
      CommandEffect s (.encSym c) (countIn (appendBits s (s.codeOf c)))
  | encEnd (h : s.session = .enc) (hin : s.inCnt ≠ 0)
      (room : s.accN ≠ 0 → s.wordq.length ≠ Config.wordqDepth) :
      CommandEffect s .encEnd (endSession (flushPartial s))
  | decStart (h : s.session = .idle) :
      CommandEffect s .decStart { sessionClear s with session := .dec }
  /-- The walk's effects, with the walk's error on top if it raised one. -/
  | decBits (n : BitVec 6) (h : s.session = .dec) (h1 : 1 ≤ n.toNat) (h32 : n.toNat ≤ Config.nMax)
      (room : s.symq.length + n.toNat ≤ Config.symqDepth) :
      CommandEffect s (.decBits n) (walkBits (s.dataBits n.toNat) s).settle
  | decEnd (h : s.session = .dec) (hw : s.walk = 0) : CommandEffect s .decEnd (endSession s)

/-- A command's next state is one of those effects (R120 to R124, R144 to R146, R172 to R174). -/
theorem exec_effect {i : Instr} {s t : State} (h : exec i s = .next t) : CommandEffect s i t := by
  rcases ha : allowed i s.session with _ | _
  · obtain rfl := Host.Outcome.next.inj ((exec_not_allowed ha).symm.trans h)
    exact .refused _ _ (by simp)
  · obtain rfl := Host.Outcome.next.inj ((exec_allowed ha).symm.trans h)
    cases i with
    | nop => exact .nop
    | clr => exact .clr
    | encStart => exact .encStart (eq_of_beq ha)
    | encSym c =>
      rcases encodeSymbol_cases c (encode (.encSym c)) s with ⟨e, v, he, hr⟩ | ⟨h1, h2, hr⟩
      · exact hr ▸ .refused e v he
      · exact hr ▸ .encSym c (eq_of_beq ha) h1 h2
    | encEnd =>
      rcases finishEncoding_cases (encode .encEnd) s with ⟨e, v, he, hr⟩ | ⟨h1, h2, hr⟩
      · exact hr ▸ .refused e v he
      · exact hr ▸ .encEnd (eq_of_beq ha) h1 h2
    | decStart => exact .decStart (eq_of_beq ha)
    | decBits n =>
      rcases consumeBits_cases n.toNat (encode (.decBits n)) s with ⟨e, v, he, hr⟩ | ⟨h1, h2, h3, hr⟩
      · exact hr ▸ .refused e v he
      · exact hr ▸ .decBits n (eq_of_beq ha) h1 h2 h3
    | decEnd =>
      rcases finishDecoding_cases s with ⟨e, v, he, hr⟩ | ⟨h1, hr⟩
      · exact hr ▸ .refused e v he
      · exact hr ▸ .decEnd (eq_of_beq ha) h1

end Sys2Proof.Machine
end

