-- ==== Sys2Proof/Laws/Bus.lean ====
section
/-! SUPPORT. What a bus access and a step can do, said once. -/

namespace Sys2Proof.Machine

@[simp] theorem andThen_next (s : State) (f : State → Host.Outcome State Fault Refusal) :
    andThen (.next s) f = f s := rfl

/-- CMD is one offset (R45, R61). -/
theorem region_eq_cmd (off : Offset) (h : region off = .reg .cmd) : off = cmdOffset := by
  unfold region at h
  dsimp only at h
  split at h
  · apply BitVec.eq_of_toNat_eq
    unfold regAt at h
    repeat' split at h
    all_goals simp_all [cmdOffset]
  · repeat' split at h
    all_goals simp at h

/-- Everything an admitted write can leave, the answer not counted. -/
inductive WriteEffect (s : State) (off : Offset) (v : Word) : State → Prop where
  | ignored : WriteEffect s off v s
  | data (h : off = dataOffset) : WriteEffect s off v { s with data := v }
  | illegal (h : off = cmdOffset) (why : IllegalWord) (hd : decode v = .error why) :
      WriteEffect s off v (record .illegalCommand v s)
  | command (h : off = cmdOffset) (i : Instr) (hd : decode v = .ok i) (t : State)
      (he : exec i s = .next t) : WriteEffect s off v t
  | locked (h : s.session ≠ .idle) : WriteEffect s off v (record .tableLocked (zext32 off) s)
  | node (h : s.session = .idle) (i : NodeIndex) (hr : region off = .nodeE i) :
      WriteEffect s off v (storeNode i v s)
  | codeLen (h : s.session = .idle) (c : Sym) (hr : region off = .lenE c) :
      WriteEffect s off v (storeCodeLen c v s)
  | codeBits (h : s.session = .idle) (c : Sym) (k : BitVec 3) (hr : region off = .bitsE c k) :
      WriteEffect s off v (storeCodeBits c k.toNat v s)

/-- Everything an admitted read can leave, the answer not counted. -/
inductive ReadEffect (s : State) (off : Offset) : State → Prop where
  | none : ReadEffect s off s
  | sym (c : Sym) (q : List Sym) (hr : region off = .reg .symOut) (h : s.symq = c :: q) :
      ReadEffect s off { s with symq := q }
  | word (w : Word) (q : List Word) (hr : region off = .reg .wordOut) (h : s.wordq = w :: q) :
      ReadEffect s off { s with wordq := q }

theorem memRead_effect (off : Offset) (s : State) : ReadEffect s off (memRead off s).2 := by
  unfold memRead
  rcases hr : region off with r | i | c | ⟨c, k⟩ | _
  · cases r with
    | symOut =>
      rcases hq : s.symq with _ | ⟨c, q⟩
      · simpa [readReg, readSymOut, hq] using ReadEffect.none
      · simpa [readReg, readSymOut, hq] using ReadEffect.sym c q hr hq
    | wordOut =>
      rcases hq : s.wordq with _ | ⟨w, q⟩
      · simpa [readReg, readWordOut, hq] using ReadEffect.none
      · simpa [readReg, readWordOut, hq] using ReadEffect.word w q hr hq
    | _ => exact .none
  all_goals exact .none

theorem tableWrite_effect {store : State → State} {off : Offset} {v : Word} {s : State}
    (h : s.session = .idle → WriteEffect s off v (store s)) :
    WriteEffect s off v (tableWrite store off s) := by
  unfold tableWrite
  split
  · exact h (by assumption)
  · exact .locked (by assumption)

/-- An admitted write completes, with one of the effects above (R65). -/
theorem memWrite_effect (off : Offset) (v : Word) (s : State) :
    ∃ t, memWrite off v s = .next t ∧ WriteEffect s off v t := by
  unfold memWrite
  rcases hr : region off with r | i | c | ⟨c, k⟩ | _
  · cases r with
    | cmd =>
      have hoff := region_eq_cmd off hr
      dsimp only [writeReg]
      unfold execute
      rcases hd : decode v with why | i
      · exact ⟨_, rfl, .illegal hoff why hd⟩
      · obtain ⟨t, ht⟩ := exec_next i s
        exact ⟨t, ht, .command hoff i hd t ht⟩
    | data =>
      refine ⟨_, rfl, .data ?_⟩
      have hreg := hr
      unfold region at hreg
      dsimp only at hreg
      split at hreg
      · apply BitVec.eq_of_toNat_eq
        unfold regAt at hreg
        repeat' split at hreg
        all_goals simp_all [dataOffset]
      · repeat' split at hreg
        all_goals simp at hreg
    | _ => exact ⟨_, rfl, .ignored⟩
  · exact ⟨_, rfl, tableWrite_effect fun h => .node h i hr⟩
  · exact ⟨_, rfl, tableWrite_effect fun h => .codeLen h c hr⟩
  · exact ⟨_, rfl, tableWrite_effect fun h => .codeBits h c k hr⟩
  · exact ⟨_, rfl, .ignored⟩

/-- Everything a host access can leave (R62, R64, R65). -/
inductive AccessEffect (s : State) : Access → State → Prop where
  | refused {a : Access} (h : a.admitted = false) : AccessEffect s a (reply .busError s)
  | read (off : Offset) (h : off.toNat % 4 = 0) (t : State) (he : ReadEffect s off t) :
      AccessEffect s (.read 4 off) (reply (.data (memRead off s).1) t)
  | write (off : Offset) (h : off.toNat % 4 = 0) (v : Word) (t : State) (he : WriteEffect s off v t) :
      AccessEffect s (.write 4 off v) (reply .done t)

theorem admitted_eq_true {size : Nat} {off : Offset} :
    admitted size off = true ↔ size = 4 ∧ off.toNat % 4 = 0 := by
  simp [admitted]

/-- A host access completes, with one of those effects. -/
theorem performAccess_effect (a : Access) (s : State) :
    ∃ t, performAccess a s = .next t ∧ AccessEffect s a t := by
  unfold performAccess
  split
  · rename_i ha
    cases a with
    | read size off =>
      obtain ⟨rfl, h4⟩ := admitted_eq_true.mp ha
      exact ⟨_, rfl, .read off h4 _ (memRead_effect off s)⟩
    | write size off v =>
      obtain ⟨rfl, h4⟩ := admitted_eq_true.mp ha
      obtain ⟨t, ht, he⟩ := memWrite_effect off v s
      exact ⟨reply .done t, by dsimp only; rw [ht]; rfl, .write off h4 v t he⟩
  · rename_i ha
    exact ⟨_, rfl, .refused (by simpa using ha)⟩

theorem access_effect {a : Access} {s t : State} (h : performAccess a s = .next t) :
    AccessEffect s a t := by
  obtain ⟨u, hu, he⟩ := performAccess_effect a s
  obtain rfl := Host.Outcome.next.inj (hu.symm.trans h)
  exact he

/-- A property every access keeps is kept by accesses in order, and they complete. -/
theorem performAccesses_keep {P : State → Prop}
    (h : ∀ a s t, P s → performAccess a s = .next t → P t) (l : List Access) (s : State) (hs : P s) :
    ∃ t, performAccesses l s = .next t ∧ P t := by
  induction l generalizing s with
  | nil => exact ⟨s, rfl, hs⟩
  | cons a rest ih =>
    obtain ⟨t, ht, -⟩ := performAccess_effect a s
    obtain ⟨u, hu, hp⟩ := ih t (h a s t hs ht)
    exact ⟨u, by rw [performAccesses, ht, andThen_next, hu], hp⟩

/-- A property every access, the answer to a refused burst, and reset keep is kept by every event, and every
event completes. -/
theorem performEvent_keep {P : State → Prop}
    (hacc : ∀ a s t, P s → performAccess a s = .next t → P t)
    (hbus : ∀ s, P s → P (reply .busError s)) (hreset : ∀ s, P s → P (resetEvent s))
    (e : BusEvent) (s : State) (hs : P s) : ∃ t, performEvent e s = .next t ∧ P t := by
  cases e with
  | access a =>
    obtain ⟨t, ht, -⟩ := performAccess_effect a s
    exact ⟨t, ht, hacc a s t hs ht⟩
  | burst beats =>
    by_cases hb : beats.all Access.admitted = true
    · simpa only [performEvent, if_pos hb] using performAccesses_keep hacc beats s hs
    · exact ⟨reply .busError s, by simp only [performEvent, if_neg hb], hbus s hs⟩
  | reset => exact ⟨_, rfl, hreset s hs⟩

end Sys2Proof.Machine
end

