-- ==== Sys2Proof/Laws/Decode.lean ====
section
/-! SUPPORT. Command words in their fields. -/

namespace Sys2Proof

/-- A word is its opcode field and its operand field (R91). -/
theorem word_eq_op_append (w : Word) : w = opField w ++ w.extractLsb' 0 28 := by
  apply BitVec.eq_of_getLsbD_eq
  intro i hi
  rw [BitVec.getLsbD_append]
  simp only [opField, BitVec.getLsbD_extractLsb']
  split
  · simp [*]
  · have : 28 + (i - 28) = i := by omega
    rw [this]
    simp
    omega

/-- The operand field of format FS is its reserved bits and S (R94). -/
theorem operand_eq_sym (w : Word) : w.extractLsb' 0 28 = w.extractLsb' 8 20 ++ symField w := by
  apply BitVec.eq_of_getLsbD_eq
  intro i hi
  rw [BitVec.getLsbD_append]
  simp only [symField, BitVec.getLsbD_extractLsb']
  split
  · simp [*]
  · have : 8 + (i - 8) = i := by omega
    rw [this]
    simp [hi]
    omega

/-- The operand field of format FN is its reserved bits and N (R93). -/
theorem operand_eq_count (w : Word) : w.extractLsb' 0 28 = w.extractLsb' 6 22 ++ countField w := by
  apply BitVec.eq_of_getLsbD_eq
  intro i hi
  rw [BitVec.getLsbD_append]
  simp only [countField, BitVec.getLsbD_extractLsb']
  split
  · simp [*]
  · have : 6 + (i - 6) = i := by omega
    rw [this]
    simp [hi]
    omega

theorem ifReservedZero_ok {zero : Bool} {i j : Instr} (h : ifReservedZero zero i = .ok j) :
    zero = true ∧ i = j := by
  unfold ifReservedZero at h
  split at h <;> simp_all

end Sys2Proof
end

