-- ==== Sys2Proof/Laws/Memory.lean ====
section
/-! SUPPORT. The laws of a table: a read after a write gives the word written, every other entry stays, and a
write keeps the canonical form. -/

namespace Sys2Proof.Machine

@[simp] theorem Memory.read_nil (i : Nat) : Memory.read [] i = 0 := rfl

/-- An entry below every listed one reads as 0. -/
theorem Memory.read_eq_zero_of_lt {m : Memory} {i : Nat} (h : ∀ c ∈ m, i < c.1) :
    Memory.read m i = 0 := by
  induction m with
  | nil => rfl
  | cons c rest ih =>
    obtain ⟨a, w⟩ := c
    have ha : i < a := h (a, w) (by simp)
    rw [Memory.read, if_neg (by omega)]
    exact ih fun d hd => h d (List.mem_cons_of_mem _ hd)

/-- A write leaves every other entry alone, in any table. -/
theorem Memory.read_write_other (m : Memory) (i j : Nat) (v : Word) (h : j ≠ i) :
    (Memory.write m i v).read j = Memory.read m j := by
  induction m with
  | nil => unfold Memory.write; split <;> simp [Memory.read, Ne.symm h]
  | cons c rest ih =>
    obtain ⟨a, w⟩ := c
    unfold Memory.write
    split
    · simp [Memory.read, ih]
    · split
      · subst_vars
        split <;> simp [Memory.read, Ne.symm h]
      · split <;> simp [Memory.read, Ne.symm h]

/-- A read after a write to the same entry gives the word written. -/
theorem Memory.read_write_same (m : Memory) (i : Nat) (v : Word)
    (h : m.Pairwise fun a b => a.1 < b.1) : (Memory.write m i v).read i = v := by
  induction m with
  | nil => unfold Memory.write; split <;> simp_all [Memory.read]
  | cons c rest ih =>
    obtain ⟨a, w⟩ := c
    rw [List.pairwise_cons] at h
    obtain ⟨hlt, hrest⟩ := h
    unfold Memory.write
    split
    · rename_i hai
      rw [Memory.read, if_neg (by omega)]
      exact ih hrest
    · split
      · subst_vars
        split
        · subst_vars
          exact Memory.read_eq_zero_of_lt hlt
        · simp [Memory.read]
      · split
        · subst_vars
          rw [Memory.read, if_neg (by omega)]
          exact Memory.read_eq_zero_of_lt fun d hd => by have := hlt d hd; simp at this; omega
        · simp [Memory.read]

/-- What a written table lists: the written entry, or what it listed before. -/
theorem Memory.mem_write {m : Memory} {i : Nat} {v : Word} {c : Nat × Word}
    (h : c ∈ Memory.write m i v) : c ∈ m ∨ (c = (i, v) ∧ v ≠ 0) := by
  induction m with
  | nil =>
    unfold Memory.write at h
    split at h <;> simp_all
  | cons d rest ih =>
    obtain ⟨a, w⟩ := d
    unfold Memory.write at h
    split at h
    · rcases List.mem_cons.mp h with rfl | h
      · simp
      · rcases ih h with h | h
        · exact .inl (List.mem_cons_of_mem _ h)
        · exact .inr h
    · split at h <;> split at h <;> simp_all <;> tauto

/-- A write within the table keeps its canonical form. -/
theorem Memory.wf_write {size : Nat} {m : Memory} (i : Nat) (v : Word) (h : Memory.wf size m)
    (hi : i < size) : Memory.wf size (Memory.write m i v) := by
  refine ⟨?_, fun c hc => ?_⟩
  · obtain ⟨h, -⟩ := h
    induction m with
    | nil => unfold Memory.write; split <;> simp
    | cons d rest ih =>
      obtain ⟨a, w⟩ := d
      rw [List.pairwise_cons] at h
      obtain ⟨hlt, hrest⟩ := h
      unfold Memory.write
      split
      · rename_i hai
        refine List.pairwise_cons.mpr ⟨fun c hc => ?_, ih hrest⟩
        rcases Memory.mem_write hc with hc | ⟨rfl, -⟩
        · exact hlt c hc
        · exact hai
      · split
        · subst_vars
          split
          · exact hrest
          · exact List.pairwise_cons.mpr ⟨hlt, hrest⟩
        · have hia : i < a := by omega
          split
          · exact List.pairwise_cons.mpr ⟨hlt, hrest⟩
          · refine List.pairwise_cons.mpr ⟨fun c hc => ?_, List.pairwise_cons.mpr ⟨hlt, hrest⟩⟩
            rcases List.mem_cons.mp hc with rfl | hc
            · exact hia
            · exact Nat.lt_trans hia (hlt c hc)
  · rcases Memory.mem_write hc with hc | ⟨rfl, hv⟩
    · exact h.2 c hc
    · exact ⟨hi, hv⟩

end Sys2Proof.Machine
end

