-- ==== Sys2Proof/Laws/PerInstr.lean ====
section
/-! SUPPORT. Facts about every instruction as encoded words, one lemma per constructor. -/

namespace Sys2Proof

/-- The word of an instruction selects the row of the opcode map that stands for it (R96). -/
def Laws.EncodedWord.Statement (i : Instr) : Prop := encode i &&& i.row.mask = i.row.pattern

theorem Laws.EncodedWord.nop : Laws.EncodedWord.Statement .nop := by
  unfold Laws.EncodedWord.Statement; decide

theorem Laws.EncodedWord.clr : Laws.EncodedWord.Statement .clr := by
  unfold Laws.EncodedWord.Statement; decide

theorem Laws.EncodedWord.encStart : Laws.EncodedWord.Statement .encStart := by
  unfold Laws.EncodedWord.Statement; decide

theorem Laws.EncodedWord.encSym (s : Sym) : Laws.EncodedWord.Statement (.encSym s) := by
  unfold Laws.EncodedWord.Statement; revert s; decide

theorem Laws.EncodedWord.encEnd : Laws.EncodedWord.Statement .encEnd := by
  unfold Laws.EncodedWord.Statement; decide

theorem Laws.EncodedWord.decStart : Laws.EncodedWord.Statement .decStart := by
  unfold Laws.EncodedWord.Statement; decide

theorem Laws.EncodedWord.decBits (n : BitVec 6) : Laws.EncodedWord.Statement (.decBits n) := by
  unfold Laws.EncodedWord.Statement; revert n; decide

theorem Laws.EncodedWord.decEnd : Laws.EncodedWord.Statement .decEnd := by
  unfold Laws.EncodedWord.Statement; decide

end Sys2Proof
end

