-- ==== Sys2Proof/Laws/Session.lean ====
section
/-! SUPPORT. Event lists one event at a time: what single events are, what they take, and the verdict on a
session (R247), said once for each list form. -/

namespace Sys2Proof.Machine

@[simp] theorem singles_access (a : Access) : BusEvent.singles (.access a) = [.access a] := rfl

@[simp] theorem singles_reset : BusEvent.singles .reset = [.reset] := rfl

@[simp] theorem singleEvents_nil : singleEvents [] = [] := rfl

@[simp] theorem singleEvents_cons (e : BusEvent) (es : List BusEvent) :
    singleEvents (e :: es) = e.singles ++ singleEvents es := rfl

@[simp] theorem singleEvents_append (xs ys : List BusEvent) :
    singleEvents (xs ++ ys) = singleEvents xs ++ singleEvents ys := List.flatMap_append

/-- Accesses are single events already. -/
@[simp] theorem singleEvents_map_access (as : List Access) :
    singleEvents (as.map .access) = as.map .access := by
  induction as with
  | nil => rfl
  | cons a as ih => simp [ih]

@[simp] theorem writesOf_nil : writesOf [] = [] := rfl

@[simp] theorem writesOf_append (xs ys : List BusEvent) : writesOf (xs ++ ys) = writesOf xs ++ writesOf ys := by
  simp [writesOf]

@[simp] theorem taken_nil (takes : BusEvent → State → List α) (s : State) : taken takes [] s = [] := rfl

theorem taken_cons {takes : BusEvent → State → List α} {e : BusEvent} {s t : State}
    (h : performEvent e s = .next t) (es : List BusEvent) :
    taken takes (e :: es) s = takes e s ++ taken takes es t := by
  simp [taken, h]

/-- An event that leaves the session open hands the verdict on, with what it took. -/
theorem openVerdict_goes_on {e : BusEvent} {s t : State} (h : performEvent e s = .next t)
    (ht : t.session ≠ .idle) (syms : List Sym) (words : List Word) (es : List BusEvent) :
    openVerdict syms words (e :: es) s = openVerdict (syms ++ symTaken e s) (words ++ wordTaken e s) es t := by
  simp [openVerdict, h, ht]

/-- An event after which the session is IDLE settles the verdict, whatever comes later. -/
theorem openVerdict_ends {e : BusEvent} {s t : State} (h : performEvent e s = .next t)
    (ht : t.session = .idle) (syms : List Sym) (words : List Word) (es : List BusEvent) :
    openVerdict syms words (e :: es) s =
      if e.isCmdOrTableWrite then verdictAt s.session syms words t else .notEnded := by
  simp [openVerdict, h, ht]

/-- The write of a command is a CMD write. -/
@[simp] theorem command_isCmdOrTableWrite (i : Instr) : (command i).isCmdOrTableWrite = true := by
  simp [command, commandWrite, BusEvent.isCmdOrTableWrite, Access.isCmdOrTableWrite, admitted, region, regAt,
    cmdOffset]

end Sys2Proof.Machine
end

