-- ==== Sys2Proof/Tests/Slice0.lean ====
section
/-! SUPPORT. The model's own tests: command words written out from the formats of spec/30_encoding.md, single steps
with the results spec/95_test_vectors.md states for them, and for every statement with hypotheses a state
and operands that meet all of them. -/

namespace Sys2Proof.Tests

open Sys2Proof Sys2Proof.Machine

/-! ### Small states -/

/-- The state after reset with tree T3 and its code table loaded (spec/95 `LOAD_T3`). -/
def t3 : State :=
  { State.reset with
    node := [(0, 0x80020001), (1, 0x40000062), (2, 0x80040003), (3, 0x40000063), (4, 0x40000061)]
    codeLen := [(0x61, 2), (0x62, 1), (0x63, 2)]
    codeBits := [(8 * 0x61, 0xC0000000), (8 * 0x63, 0x80000000)] }

/-- T3 with an encode session open. -/
def enc3 : State := { t3 with session := .enc }

/-- T3 with a decode session open and DATA set. -/
def dec3 (data : Word) : State := { t3 with session := .dec, data := data }

/-- The single-leaf tree T1, alone. -/
def t1Node : Memory := [(0, 0x40000061)]

/-- T1 with its code table. -/
def t1 : State := { State.reset with node := t1Node, codeLen := [(0x61, 1)] }

/-- Does the outcome hold of its next state? -/
def nextHas (o : Host.Outcome State Fault Refusal) (p : State → Bool) : Bool :=
  match o with
  | .next t => p t
  | .fault _ => false
  | .refused _ => false

/-- The step of one host access. -/
def after (a : Access) (s : State) : Host.Outcome State Fault Refusal :=
  step { s with pending := [.access a] }

/-! ### Every constructor's word, bit by bit from its format (R92 to R94) -/

theorem test_decode_nop : decode 0b00000000000000000000000000000000#32 = .ok .nop := by decide
theorem test_decode_clr : decode 0b00010000000000000000000000000000#32 = .ok .clr := by decide
theorem test_decode_encStart : decode 0b00100000000000000000000000000000#32 = .ok .encStart := by decide
theorem test_decode_encSym : decode 0b00110000000000000000000001100001#32 = .ok (.encSym 0x61) := by decide
theorem test_decode_encEnd : decode 0b01000000000000000000000000000000#32 = .ok .encEnd := by decide
theorem test_decode_decStart : decode 0b01010000000000000000000000000000#32 = .ok .decStart := by decide
theorem test_decode_decBits : decode 0b01100000000000000000000000100001#32 = .ok (.decBits 33) := by decide
theorem test_decode_decEnd : decode 0b01110000000000000000000000000000#32 = .ok .decEnd := by decide
/-- V-CTL-4, V-CTL-5 and V-CTL-1: reserved bits and a reserved opcode. -/
theorem test_decode_illegal :
    decode 0x30000100 = .error .reservedBitSet ∧ decode 0x60000040 = .error .reservedBitSet ∧
      decode 0x00000001 = .error .reservedBitSet ∧ decode 0x80000000 = .error .reservedOpcode := by decide
theorem test_decodeTableWord : decodeTableWord 32 0x30000062 = some (.encSym 0x62) ∧
    decodeTableWord 32 0xF0000000 = none := by decide

/-! ### WellFormed smoke tests: each check refuses an ill-formed term -/

theorem test_wf_operandLegal : Instr.operandLegal (.decBits 0) = false ∧
    Instr.operandLegal (.decBits 33) = false ∧ Instr.operandLegal (.decBits 32) = true := by decide
theorem test_wf_access_lines : HostLine.wf (.wr 0x4000 0) = false ∧ HostLine.wf (.wr 0 (2 ^ 32)) = false ∧
    HostLine.wf (.rd 0x4000) = false ∧ HostLine.wf (.rdExpect 0x4000 0) = false ∧
    HostLine.wf (.rdExpect 0 (2 ^ 32)) = false := by decide
theorem test_wf_command_lines : HostLine.wf (.encSym 256) = false ∧ HostLine.wf (.decBits 64) = false ∧
    HostLine.wf (.decBits 63) = true := by decide
theorem test_wf_node_lines : HostLine.wf (.nodeLeaf 512 0) = false ∧ HostLine.wf (.nodeLeaf 0 256) = false ∧
    HostLine.wf (.nodeInt 512 0 0) = false ∧ HostLine.wf (.nodeInt 0 512 0) = false ∧
    HostLine.wf (.nodeInt 0 0 512) = false ∧ HostLine.wf (.nodeClear 512) = false := by decide
theorem test_wf_code_lines : HostLine.wf (.code 256 [true]) = false ∧ HostLine.wf (.code 0 []) = false ∧
    HostLine.wf (.codeClear 256) = false ∧
    HostLine.wf (.decFeed []) = false ∧ HostLine.wf (.decFeed (List.replicate 33 true)) = false ∧
    HostLine.wf (.encStr [0x61, 256]) = false := by decide
theorem test_wf_code_length : HostLine.wf (.code 0 (List.replicate 256 true)) = false ∧
    HostLine.wf (.code 0 (List.replicate 255 true)) = true := by
  constructor <;> (dsimp only [HostLine.wf]; rw [List.length_replicate]; decide)
/-- The assembler refuses, and does not truncate (R100). -/
theorem test_assemble_refuses : assemble (.encSym 0x161) = none := by decide
/-- T2's and T3's expansions (spec/95). -/
theorem test_assemble_words :
    assemble (.nodeInt 0 1 2) = some [.write 4 0x800 0x80020001] ∧
    assemble (.code 0x63 [true, false]) = some [.write 4 0x118C 2, .write 4 0x2C60 0x80000000] ∧
    assemble (.decFeed [true, true, true, true, false]) =
      some [.write 4 0x008 0xF0000000, .write 4 0x004 0x60000005] := by decide

/-! ### One step each, from spec/95 part V -/

/-- V-CTL-11. -/
theorem test_nop : nextHas (after (commandWrite .nop) { t3 with err := .emptyInput })
    (fun t => t.statusWord == 0x90) = true := by decide
/-- V-CTL-12: CLR. -/
theorem test_clr : nextHas (after (commandWrite .clr)
    { dec3 0x10000000 with walk := 2, symq := [0x62, 0x62, 0x62] })
    (fun t => t.statusWord == 0 && t.fifoStatusWord == 0 && t.node == t3.node && t.data == 0x10000000) =
      true := by decide
/-- V-ENC-1. -/
theorem test_encStart : nextHas (after (commandWrite .encStart) { t3 with err := .sequence, errInfo := 7 })
    (fun t => t.statusWord == 1 && t.errInfo == 0) = true := by decide
/-- V-ENC-2. -/
theorem test_encSym : nextHas (after (commandWrite (.encSym 0x61)) enc3)
    (fun t => t.acc == 0xC0000000 && t.statusWord == 0x201 && t.inCnt == 1 && t.outCnt == 2) = true := by
  decide
/-- V-ENC-18, first ENC_SYM: a word boundary and saturation. -/
theorem test_encSym_saturates : nextHas (after (commandWrite (.encSym 0x61))
    { enc3 with inCnt := 0xFFFFFFFE, outCnt := 0xFFFFFFFE, accN := 30 })
    (fun t => t.wordq == [3] && t.inCnt == 0xFFFFFFFF && t.outCnt == 0xFFFFFFFF && t.acc == 0 &&
      t.statusWord == 1) = true := by decide
/-- V-ENC-4. -/
theorem test_encEnd : nextHas (after (commandWrite .encEnd)
    { enc3 with acc := 0xF1000000, accN := 9, inCnt := 6, outCnt := 9 })
    (fun t => t.statusWord == 4 && t.fifoStatusWord == 0x10000 && t.wordq == [0xF1000000] && t.acc == 0) =
      true := by decide
/-- V-ENC-14: the queue is full and a partial word is held. -/
theorem test_encEnd_overflow : nextHas (after (commandWrite .encEnd)
    { enc3 with accN := 1, inCnt := 17, wordq := List.replicate 16 0xFFFFFFFF })
    (fun t => t.statusWord == 0x140 && t.errInfo == 0x40000000) = true := by decide
/-- V-DEC-1. -/
theorem test_decStart : nextHas (after (commandWrite .decStart) State.reset)
    (fun t => t.statusWord == 2) = true := by decide
/-- V-CTL-8: DEC_START in an encode session. -/
theorem test_decStart_sequence : nextHas (after (commandWrite .decStart) enc3)
    (fun t => t.statusWord == 0x20 && t.errInfo == 0x50000000) = true := by decide
/-- V-DEC-2. -/
theorem test_decBits : nextHas (after (commandWrite (.decBits 9)) (dec3 0xF1000000))
    (fun t => t.symq == [0x61, 0x61, 0x62, 0x62, 0x62, 0x63] && t.statusWord == 2 && t.inCnt == 9 &&
      t.outCnt == 6) = true := by decide
/-- V-DEC-13: the second bit's child is EMPTY. -/
theorem test_decBits_treeInvalid : nextHas (after (commandWrite (.decBits 2))
    { dec3 0xC0000000 with node := [(0, 0x80020001), (1, 0x40000062), (2, 0x80040003), (3, 0x40000063)] })
    (fun t => t.statusWord == 0x20060 && t.errInfo == 4 && t.inCnt == 1) = true := by decide
/-- V-DEC-3. -/
theorem test_decEnd_malformed : nextHas (after (commandWrite .decEnd) { dec3 0 with walk := 2 })
    (fun t => t.statusWord == 0x20080 && t.errInfo == 2) = true := by decide
/-- V-DEC-4: an empty payload is accepted. -/
theorem test_decEnd_empty : nextHas (after (commandWrite .decEnd) (dec3 0))
    (fun t => t.statusWord == 4 && t.fifoStatusWord == 0) = true := by decide
/-- V-CTL-9: the first error is kept. -/
theorem test_first_error_kept : nextHas (after (commandWrite (.encSym 0x61))
    { State.reset with err := .illegalCommand, errInfo := 0x80000000 })
    (fun t => t.statusWord == 0x10 && t.errInfo == 0x80000000) = true := by decide
/-- V-BUS-14. -/
theorem test_table_locked : nextHas (after (.write 4 0x2C20 0) { enc3 with acc := 0xC0000000, accN := 2 })
    (fun t => t.statusWord == 0x250 && t.errInfo == 0x2C20 && t.codeBitsWord 0x61 0 == 0xC0000000) = true := by
  decide
/-- V-BUS-8: the last word of the window is CODE_BITS[0xFF][7]. -/
theorem test_table_write : nextHas (after (.write 4 0x3FFC 0xABCD) State.reset)
    (fun t => t.codeBitsWord 0xFF 7 == 0xABCD && (memRead 0x3FFC t).1 == 0xABCD) = true := by decide
/-- V-BUS-9 and V-BUS-11: refused accesses. -/
theorem test_bus_error :
    nextHas (after (.read 2 0x008) State.reset) (fun t => t.responses == [.busError]) = true ∧
    nextHas (after (.write 1 0x004 0xFF) State.reset)
      (fun t => t == { State.reset with responses := [.busError] }) = true := by decide
/-- V-BUS-1 and V-DEC-16: PARAMS, and a SYM_OUT read that pops. -/
theorem test_reads :
    nextHas (after (.read 4 0x000) State.reset) (fun t => t.responses == [.data 0x10400908]) = true ∧
    nextHas (after (.read 4 0x014) { t1 with symq := [0x61] })
      (fun t => t.responses == [.data 0x80000061] && t.symq == []) = true := by decide
/-- V-RST-2: reset. -/
theorem test_reset_event : nextHas (step { enc3 with acc := 0xF1000000, accN := 9, pending := [.reset] })
    (fun t => t == State.reset) = true := by decide
/-- R37: PARAMS holds the parameter values of R6. -/
theorem test_params_fields : paramsWord = BitVec.ofNat 32
    (Config.wordqDepth * 2 ^ 24 + Config.symqDepth * 2 ^ 16 + 9 * 2 ^ 8 + 8) := by decide
/-- withFetchWord runs the word as the first instruction after reset. -/
theorem test_withFetchWord : nextHas (step (State.reset.withFetchWord 32 0x20000000))
    (fun t => t.session == .enc && t.pending == []) = true := by decide

/-! ### Witnesses: states and operands that meet every statement's hypotheses -/

theorem witness_DecodeAndEncodeAgree : decode 0x300000FF = .ok (.encSym 0xFF) := by decide

theorem witness_DecodeFollowsTheOpcodeMap : decode 0x6000003F = .ok (.decBits 63) := by decide

/-- One word for each of the four clauses, at the edge of its range; and a command that is not NOP. -/
theorem witness_IllegalWordsRaiseIllegalCommand :
    8 ≤ (opField 0x80000000).toNat ∧
    (opField 0x78000000 ∈ [0x0#4, 0x1#4, 0x2#4, 0x4#4, 0x5#4, 0x7#4] ∧
      (0x78000000#32).extractLsb' 0 28 ≠ 0) ∧
    (opField 0x30000100 = 0x3#4 ∧ (0x30000100#32).extractLsb' 8 20 ≠ 0) ∧
    (opField 0x60000040 = 0x6#4 ∧ (0x60000040#32).extractLsb' 6 22 ≠ 0) ∧ Instr.clr ≠ .nop := by decide

theorem witness_StepRunsTheDecodedCommand :
    ({ t3 with pending := [.access (.write 4 cmdOffset 0x20000000)] } : State).pending =
      .access (.write 4 cmdOffset 0x20000000) :: [] ∧ decode 0x20000000 = .ok .encStart := by decide

theorem witness_FetchedWordRunsNext : decodeTableWord 32 0x60000009 = some (.decBits 9) := by decide

theorem witness_StepPerformsTheNextEvent : State.reset.pending = [] ∧
    ({ t3 with pending := [.reset] } : State).pending = .reset :: [] := by decide

theorem witness_AdmittedBurstIsItsAccesses :
    ∀ a ∈ [Access.write 4 0x008 5, Access.read 4 0x3FFC], a.admitted = true := by decide

theorem witness_RefusedAccessChangesNothing :
    ¬(2 = 4 ∧ (0x008 : Offset).toNat % 4 = 0) ∧ ¬(4 = 4 ∧ (0x3FFF : Offset).toNat % 4 = 0) ∧
    (∃ a ∈ [Access.read 4 0x008, Access.write 8 0x008 0], a.admitted = false) := by decide

/-- Both edges of every range of the map. -/
theorem witness_AddressMap :
    region 0x000 = .reg .params ∧ region 0x7FC = .reg .reserved ∧
    region 0x800 = .nodeE 0 ∧ region 0xFFC = .nodeE 511 ∧
    region 0x1000 = .lenE 0 ∧ region 0x13FC = .lenE 255 ∧
    region 0x1400 = .reserved ∧ region 0x1FFC = .reserved ∧
    region 0x2000 = .bitsE 0 0 ∧ region 0x3FFC = .bitsE 255 7 := by decide

theorem witness_RegisterReads : State.reset.symq = [] ∧ State.reset.wordq = [] ∧
    ({ t3 with symq := [0xFF] } : State).symq = 0xFF :: [] ∧
    ({ t3 with wordq := [1, 2] } : State).wordq = 1 :: [2] := by decide

/-- Both queues full. -/
theorem witness_FifoStatusFields :
    ({ t3 with symq := List.replicate 64 0, wordq := List.replicate 16 0 } : State).symq.length ≤ 64 ∧
    ({ t3 with symq := List.replicate 64 0, wordq := List.replicate 16 0 } : State).wordq.length ≤ 16 := by
  decide

theorem witness_ReadsHaveNoSideEffect :
    (0x00C : Offset).toNat % 4 = 0 ∧ (0x00C : Offset) ≠ 0x014 ∧ (0x00C : Offset) ≠ 0x018 := by decide

/-- The edges of the two reserved ranges; the registers are a list in the statement. -/
theorem witness_ReservedAndReadOnlyOffsets :
    ((0x02C : Offset).toNat % 4 = 0 ∧ 0x02C ≤ (0x02C : Offset).toNat ∧ (0x02C : Offset).toNat ≤ 0x7FC) ∧
    ((0x7FC : Offset).toNat % 4 = 0 ∧ 0x02C ≤ (0x7FC : Offset).toNat ∧ (0x7FC : Offset).toNat ≤ 0x7FC) ∧
    ((0x1400 : Offset).toNat % 4 = 0 ∧ 0x1400 ≤ (0x1400 : Offset).toNat) ∧
    ((0x1FFC : Offset).toNat % 4 = 0 ∧ (0x1FFC : Offset).toNat ≤ 0x1FFC) := by decide

theorem t3_tablesWf : t3.TablesWf := by
  unfold State.TablesWf; decide

/-- The first and the last table word, in IDLE. -/
theorem witness_TableWriteInIdleIsStored : t3.TablesWf ∧ t3.session = .idle ∧
    (0x800 ≤ (0x800 : Offset).toNat ∧ (0x800 : Offset).toNat < 0x1400) ∧
    (0x800 : Offset).toNat % 4 = 0 ∧ 0x2000 ≤ (0x3FFC : Offset).toNat ∧ (0x3FFC : Offset).toNat % 4 = 0 :=
  ⟨t3_tablesWf, by decide⟩

/-- The last entry of each table, written at its offset (R61): what the engine then reads there. -/
theorem test_table_entries_are_the_engines :
    (∃ t, performAccess (.write 4 0x0FFC 5) t3 = .next t ∧ t.nodeWord 511 = 5 ∧ t.nodeWord 4 = 0x40000061) ∧
    (∃ t, performAccess (.write 4 0x13FC 5) t3 = .next t ∧ t.codeLenWord 255 = 5 ∧ t.codeLenWord 0x61 = 2) ∧
    (∃ t, performAccess (.write 4 0x3FFC 5) t3 = .next t ∧ t.codeBitsWord 255 7 = 5 ∧
      t.codeBitsWord 0x61 0 = 0xC0000000) :=
  ⟨⟨_, rfl, by decide, by decide⟩, ⟨_, rfl, by decide, by decide⟩, _, rfl, by decide, by decide⟩

theorem witness_TableWriteInSessionIsLocked : enc3.session ≠ .idle ∧ (0x13FC : Offset).toNat % 4 = 0 ∧
    (0x800 ≤ (0x13FC : Offset).toNat ∧ (0x13FC : Offset).toNat < 0x1400) ∧
    0x2000 ≤ (0x2000 : Offset).toNat := by decide

/-- The last NODE entry and the first CODE_LEN entry written; a command; a burst and a reset. -/
theorem witness_TablesChangeOnlyByIdleTableWritesAndReset :
    (∃ t, performAccess (.write 4 0xFFC 5) t3 = .next t ∧ t.node ≠ t3.node) ∧
    (∃ t, performAccess (.write 4 0x1000 5) t3 = .next t ∧ t.codeLen ≠ t3.codeLen) ∧
    (∃ t, exec (.encSym 0x61) enc3 = .next t) ∧
    (∃ t, performEvent (.burst [.write 4 0x2000 5]) t3 = .next t ∧ t.codeBits ≠ t3.codeBits) ∧
    (∃ t, performEvent .reset t3 = .next t ∧ t.node ≠ t3.node) :=
  ⟨⟨_, rfl, by decide⟩, ⟨_, rfl, by decide⟩, ⟨_, rfl⟩, ⟨_, rfl, by decide⟩, _, rfl, by decide⟩

theorem witness_DataHoldsTheLastHostWrite :
    ∃ t, (∀ v, commandWrite (.decBits 9) ≠ .write 4 0x008 v) ∧
      performAccess (commandWrite (.decBits 9)) (dec3 0xF1000000) = .next t :=
  ⟨_, fun v h => by simp [commandWrite, cmdOffset] at h, rfl⟩

theorem witness_CommandsOutOfSessionAreRefused : allowed .decEnd enc3.session = false := by decide

theorem witness_FirstErrorIsKept : ∃ t, ({ t3 with err := .overflow } : State).err ≠ .none ∧
    performAccess (commandWrite .encStart) { t3 with err := .overflow } = .next t :=
  ⟨_, by decide, rfl⟩

theorem witness_ErrorsEndTheSession :
    ∃ t, performAccess (commandWrite (.encSym 0x7A)) enc3 = .next t ∧ enc3.err = .none ∧ t.err ≠ .none :=
  ⟨_, rfl, by decide, by decide⟩

/-- A session opened, and one ended. -/
theorem witness_OnlyStartsOpenSessions :
    (∃ t, performAccess (commandWrite .encStart) t3 = .next t ∧ t.session ≠ t3.session ∧ t.session = .enc) ∧
    (∃ t, performAccess (commandWrite .decStart) t3 = .next t ∧ t.session ≠ t3.session ∧ t.session = .dec) ∧
    (∃ t, performAccess (.write 4 0x800 0) enc3 = .next t ∧ t.session ≠ enc3.session ∧ t.session = .idle) :=
  ⟨⟨_, rfl, by decide, by decide⟩, ⟨_, rfl, by decide, by decide⟩, ⟨_, rfl, by decide, by decide⟩⟩

/-- DONE set, and DONE cleared. -/
theorem witness_DoneIsSetByEndsOnly :
    (∃ t, performAccess (commandWrite .decEnd) (dec3 0) = .next t ∧ (dec3 0).done = false ∧ t.done = true) ∧
    (∃ t, performAccess (commandWrite .clr) { t3 with done := true } = .next t ∧
      ({ t3 with done := true } : State).done = true ∧ t.done = false) :=
  ⟨⟨_, rfl, by decide, by decide⟩, ⟨_, rfl, by decide, by decide⟩⟩

theorem witness_WalkChangesOnlyByStartsClrAndDecBits :
    ∃ t, performAccess (commandWrite (.decBits 1)) (dec3 0x80000000) = .next t ∧
      t.walk ≠ (dec3 0x80000000).walk :=
  ⟨_, rfl, by decide⟩

theorem dec3_inv : (dec3 0).Inv where
  doneIdle := by decide
  openClean := by decide
  noErrNoInfo := by decide
  accLowZero := by decide
  decAcc := by decide
  encWalk := by decide
  walkInternal := by decide
  symqBound := by decide
  wordqBound := by decide
  outCntAccN := by decide
  nodeWf := by decide
  codeLenWf := by decide
  codeBitsWf := by decide

/-- A session ended by its END, and one by a table write. -/
theorem witness_OnlyItsEndEndsASessionSuccessfully :
    (∃ t, (dec3 0).Inv ∧ SessionEnded (commandWrite .decEnd) (dec3 0) t) ∧
    (∃ t, performAccess (.write 4 0x13FC 0) (dec3 0) = .next t ∧ (dec3 0).session ≠ .idle ∧
      t.session = .idle) :=
  ⟨⟨_, dec3_inv, rfl, by decide, by decide, by decide⟩, _, rfl, by decide, by decide⟩

theorem witness_RoomMeansNoOverflow : ∃ t, HasRoom (.decBits 9) (dec3 0) ∧ (dec3 0).err ≠ .overflow ∧
    exec (.decBits 9) (dec3 0) = .next t :=
  ⟨_, by unfold HasRoom; decide, by decide, rfl⟩

theorem witness_StepKeepsTheInvariants : ∃ t, (dec3 0).Inv ∧ step (dec3 0) = .next t :=
  ⟨_, dec3_inv, rfl⟩

/-- The smallest word that is not NOP's although its OP is. -/
theorem witness_NopChangesNothing : opField 0x00000001 = 0 ∧ (0x00000001#32) ≠ 0 := by decide

theorem witness_EncStartOpensAnEncodeSession : t3.session = .idle ∧ (dec3 0).session ≠ .idle := by decide

theorem witness_DecStartOpensADecodeSession : t3.session = .idle ∧ enc3.session ≠ .idle := by decide

theorem witness_CountersSaturate : (0xFFFFFFFE#32) ≠ 0xFFFFFFFF := by decide

/-- A completing ENC_SYM; the last of 16 entries is filled by the word it completes. -/
theorem witness_EncSymAppendsTheCode :
    let s : State := { enc3 with accN := 30, wordq := List.replicate 15 0 }
    s.session = .enc ∧ s.codeLength 0x61 ≠ 0 ∧ s.wordq.length + (s.accN.toNat + s.codeLength 0x61) / 32 ≤ 16 ∧
      (∀ i < 32 - s.accN.toNat, s.acc.getLsbD i = false) := by decide

theorem witness_EncSymErrors :
    (let s : State := { enc3 with codeLen := [(0x7A, 0xFFFFFF00)] }
     s.session = .enc ∧ ((s.codeLenWord 0x7A).extractLsb' 0 8).toNat = 0) ∧
    (let s : State := { enc3 with accN := 30, wordq := List.replicate 16 0 }
     let len := ((s.codeLenWord 0x61).extractLsb' 0 8).toNat
     s.session = .enc ∧ len ≠ 0 ∧ 16 < s.wordq.length + (s.accN.toNat + len) / 32) := by
  decide

theorem witness_EncSymPushes : ∃ t, enc3.session = .enc ∧ enc3.codeLength 0x61 ≠ 0 ∧
    enc3.wordq.length + (enc3.accN.toNat + enc3.codeLength 0x61) / 32 ≤ 16 ∧ exec (.encSym 0x61) enc3 = .next t :=
  ⟨_, by decide, by decide, by decide, rfl⟩

/-- A full queue with nothing held, and one free entry for a held partial word. -/
theorem witness_EncEndFinishesTheSession :
    (let s : State := { enc3 with inCnt := 16, wordq := List.replicate 16 0 }
     s.session = .enc ∧ s.inCnt ≠ 0 ∧ (s.accN ≠ 0 → s.wordq.length ≠ 16)) ∧
    (let s : State := { enc3 with inCnt := 16, accN := 1, wordq := List.replicate 15 0 }
     s.session = .enc ∧ s.inCnt ≠ 0 ∧ (s.accN ≠ 0 → s.wordq.length ≠ 16)) := by decide

theorem witness_EncEndErrors :
    enc3.session = .enc ∧ enc3.inCnt = 0 ∧
    (let s : State := { enc3 with inCnt := 16, accN := 1, wordq := List.replicate 16 0 }
     s.session = .enc ∧ s.inCnt ≠ 0 ∧ s.accN ≠ 0 ∧ s.wordq.length = 16) := by decide

theorem witness_PayloadWordsLayout : 32 < [false, true].length + 31 ∧
    (payloadWords [false, true])[0]? = some 0x40000000 ∧ [false, true].length ≤ 31 := by decide

/-- A one-symbol session; the host reads WORD_OUT after it, in a burst. -/
theorem witness_EncodeSessionLaw :
    ∃ t, t3.session = .idle ∧ [(0x62 : Sym)] ≠ [] ∧ (∀ c ∈ [(0x62 : Sym)], t3.codeLength c ≠ 0) ∧
      writesOf (encodeScript [0x62] ++ [.burst [.read 4 0x018, .read 4 0x018]]) = encodeScript [0x62] ∧
      performEvents (command .encStart :: (encodeScript [0x62] ++ [.burst [.read 4 0x018, .read 4 0x018]])) t3 =
        .next t ∧
      t.err ≠ .overflow :=
  ⟨_, by decide, by decide, by decide, by decide, rfl, by decide⟩

/-- Each of the seven cases of a walk step. -/
theorem witness_WalkStepRule :
    (t3.nodeWord 5).extractLsb' 30 2 = 0b00#2 ∧ (t3.nodeWord 1).extractLsb' 30 2 = 0b01#2 ∧
    (t3.nodeWord 0).extractLsb' 30 2 = 0b10#2 ∧ (t3.nodeWord 0).extractLsb' 0 9 = 1 ∧
    (t3.nodeWord 0).extractLsb' 16 9 = 2 ∧ (t3.nodeWord 2).extractLsb' 30 2 = 0b10#2 ∧
    ((0x80000001#32).extractLsb' 30 2 = 0b10#2 ∧ (0x80000001#32).extractLsb' 16 9 = 0) ∧
    (0xC0000000#32).extractLsb' 30 2 = 0b11#2 := by decide

/-- N = 1 and N = 32, the room exactly enough. -/
theorem witness_DecBitsWalksTheBits :
    (let s : State := { dec3 0 with symq := List.replicate 63 0 }
     s.session = .dec ∧ 1 ≤ (1 : BitVec 6).toNat ∧ (1 : BitVec 6).toNat ≤ 32 ∧
       s.symq.length + (1 : BitVec 6).toNat ≤ 64) ∧
    (let s : State := { dec3 0 with symq := List.replicate 32 0 }
     s.session = .dec ∧ 1 ≤ (32 : BitVec 6).toNat ∧ (32 : BitVec 6).toNat ≤ 32 ∧
       s.symq.length + (32 : BitVec 6).toNat ≤ 64) := by decide

theorem witness_DecBitsErrors :
    (dec3 0).session = .dec ∧ (0 : BitVec 6).toNat = 0 ∧ 32 < (33 : BitVec 6).toNat ∧
    (let s : State := { dec3 0 with symq := List.replicate 64 0 }
     s.session = .dec ∧ 1 ≤ (1 : BitVec 6).toNat ∧ 64 < s.symq.length + (1 : BitVec 6).toNat) := by decide

theorem witness_DecEndAcceptsAtTheRootOnly : (dec3 0).session = .dec ∧ (dec3 0).walk = 0 ∧
    ({ dec3 0 with walk := 2 } : State).session = .dec ∧ ({ dec3 0 with walk := 2 } : State).walk ≠ 0 ∧
    enc3.session ≠ .dec := by decide

theorem witness_SplittingDecBitsIsInvisible : ∃ t u, (dec3 0xF1000000).session = .dec ∧
    1 ≤ (5 : BitVec 6).toNat ∧ 1 ≤ (4 : BitVec 6).toNat ∧ (5 : BitVec 6).toNat + (4 : BitVec 6).toNat ≤ 32 ∧
    (dec3 0xF1000000).symq.length + ((5 : BitVec 6).toNat + (4 : BitVec 6).toNat) ≤ 64 ∧
    exec (.decBits 5) (dec3 0xF1000000) = .next t ∧
    exec (.decBits 4) { t with data := (dec3 0xF1000000).data <<< (5 : BitVec 6).toNat } = .next u :=
  ⟨_, _, by decide, by decide, by decide, by decide, by decide, rfl, rfl⟩

/-- One piece "0"; the host reads SYM_OUT after it. The walk ends at the root without a raise. -/
theorem witness_DecodeSessionLaw :
    ∃ t, t3.session = .idle ∧ (∀ p ∈ [[false]], 1 ≤ p.length ∧ p.length ≤ 32) ∧
      writesOf (decodeScript [[false]] ++ [.access (.read 4 0x014)]) = decodeScript [[false]] ∧
      performEvents (command .decStart :: (decodeScript [[false]] ++ [.access (.read 4 0x014)])) t3 = .next t ∧
      t.err ≠ .overflow :=
  ⟨_, by decide, by decide, by decide, rfl, by decide⟩

/-- The piece "1" on T3: the walk does not raise and ends off the root. -/
theorem witness_DecodeSessionLaw_off_root :
    ∃ t, t3.session = .idle ∧ (∀ p ∈ [[true]], 1 ≤ p.length ∧ p.length ≤ 32) ∧
      writesOf (decodeScript [[true]]) = decodeScript [[true]] ∧
      performEvents (command .decStart :: decodeScript [[true]]) t3 = .next t ∧ t.err ≠ .overflow ∧
      (walkStar t3.node 0 [[true]].flatten).raised = none ∧ (walkStar t3.node 0 [[true]].flatten).pos ≠ 0 :=
  ⟨_, by decide, by decide, by decide, rfl, by decide, by decide, by decide⟩

/-- The pieces "0" and "1" on the single leaf: the walk raises at the second bit. -/
theorem witness_DecodeSessionLaw_raise :
    ∃ t, t1.session = .idle ∧ (∀ p ∈ [[false], [true]], 1 ≤ p.length ∧ p.length ≤ 32) ∧
      writesOf (decodeScript [[false], [true]]) = decodeScript [[false], [true]] ∧
      performEvents (command .decStart :: decodeScript [[false], [true]]) t1 = .next t ∧ t.err ≠ .overflow ∧
      (walkStar t1.node 0 [[false], [true]].flatten).raised = some (.malformedPayload, 0x80000000) :=
  ⟨_, by decide, by decide, by decide, rfl, by decide, by decide⟩

/-- The single-leaf tree is well formed. -/
theorem t1_wellFormed : WellFormedTree t1Node := by
  have hk : kindAt t1Node 0 = .leaf := by decide
  have hf : ∀ p i, follow t1Node 0 p = some i → p = [] ∧ i = 0 := by
    intro p i h
    cases p with
    | nil => exact ⟨rfl, (Option.some.inj h).symm⟩
    | cons b bs => simp only [follow, hk] at h; simp at h
  refine ⟨.inl hk, ?_, ?_, ?_, ?_⟩
  · intro p i h hi
    obtain ⟨-, rfl⟩ := hf p i h
    rw [hk] at hi
    exact absurd hi (by decide)
  · intro p q i hp hq
    rw [(hf p i hp).1, (hf q i hq).1]
  · intro p q i j hp hq _ _ _
    rw [(hf p i hp).2, (hf q j hq).2]
  · intro p i h _
    rw [(hf p i h).1]
    decide

/-- The two-leaf tree T2 of spec/95, a root with the leaves 'a' and 'b'. -/
def t2Node : Memory := [(0, 0x80020001), (1, 0x40000061), (2, 0x40000062)]

theorem t2_follow : ∀ p i, follow t2Node 0 p = some i →
    (p = [] ∧ i = 0) ∨ (p = [false] ∧ i = 1) ∨ (p = [true] ∧ i = 2) := by
  have h0 : kindAt t2Node 0 = .internal := by decide
  have h1 : kindAt t2Node 1 = .leaf := by decide
  have h2 : kindAt t2Node 2 = .leaf := by decide
  have hl : childAt t2Node 0 false = 1 := by decide
  have hr : childAt t2Node 0 true = 2 := by decide
  intro p i h
  rcases p with _ | ⟨b, _ | ⟨b', bs⟩⟩
  · exact .inl ⟨rfl, (Option.some.inj h).symm⟩
  · cases b
    · simp only [follow, h0, hl, if_true, Option.some.injEq] at h
      exact .inr (.inl ⟨rfl, h.symm⟩)
    · simp only [follow, h0, hr, if_true, Option.some.injEq] at h
      exact .inr (.inr ⟨rfl, h.symm⟩)
  · cases b
    · simp only [follow, h0, hl, h1, if_true] at h; simp at h
    · simp only [follow, h0, hr, h2, if_true] at h; simp at h

theorem witness_WellFormedTree_internal_root : WellFormedTree t2Node ∧ kindAt t2Node 0 ≠ .leaf := by
  refine ⟨⟨.inr (by decide), ?_, ?_, ?_, ?_⟩, by decide⟩
  · intro p i h hi
    rcases t2_follow p i h with ⟨-, rfl⟩ | ⟨-, rfl⟩ | ⟨-, rfl⟩
    · intro b
      cases b
      · exact ⟨by decide, .inl (by decide)⟩
      · exact ⟨by decide, .inl (by decide)⟩
    · exact absurd hi (by decide)
    · exact absurd hi (by decide)
  · intro p q i hp hq
    rcases t2_follow p i hp with ⟨rfl, rfl⟩ | ⟨rfl, rfl⟩ | ⟨rfl, rfl⟩ <;>
      rcases t2_follow q _ hq with ⟨rfl, h⟩ | ⟨rfl, h⟩ | ⟨rfl, h⟩ <;> first | rfl | exact absurd h (by decide)
  · intro p q i j hp hq hi hj hs
    rcases t2_follow p i hp with ⟨rfl, rfl⟩ | ⟨rfl, rfl⟩ | ⟨rfl, rfl⟩ <;>
      rcases t2_follow q j hq with ⟨rfl, rfl⟩ | ⟨rfl, rfl⟩ | ⟨rfl, rfl⟩ <;>
      first | rfl | exact absurd hi (by decide) | exact absurd hj (by decide) | exact absurd hs (by decide)
  · intro p i h _
    rcases t2_follow p i h with ⟨rfl, -⟩ | ⟨rfl, -⟩ | ⟨rfl, -⟩ <;> decide

/-- A well-formed tree of either kind. -/
theorem witness_DeriveCodesRecordsThePaths :
    (WellFormedTree t1Node ∧ kindAt t1Node 0 = .leaf) ∧ (WellFormedTree t2Node ∧ kindAt t2Node 0 ≠ .leaf) :=
  ⟨⟨t1_wellFormed, by decide⟩, witness_WellFormedTree_internal_root⟩

/-- A well-formed tree, two of its codes. -/
theorem witness_DerivedCodesArePrefixFree : WellFormedTree t2Node ∧
    ((0x61 : Sym), [false]) ∈ deriveCodes t2Node ∧ ((0x62 : Sym), [true]) ∈ deriveCodes t2Node :=
  ⟨witness_WellFormedTree_internal_root.1, by decide, by decide⟩

/-- A well-formed tree of either kind, with its codes (S4, S5 of spec/95). -/
theorem witness_WellFormedTreeWalks : WellFormedTree t1Node ∧ WellFormedTree t2Node ∧
    deriveCodes t1Node = [(0x61, [false])] ∧ deriveCodes t2Node = [(0x61, [false]), (0x62, [true])] :=
  ⟨t1_wellFormed, witness_WellFormedTree_internal_root.1, by decide, by decide⟩

theorem t1_loaded : TablesLoaded t1 := by
  refine ⟨t1_wellFormed, fun c => ?_⟩
  have hd : deriveCodes t1.node = [(0x61, [false])] := by decide
  rw [hd]
  refine ⟨fun code h => ?_, fun h => ?_⟩
  · obtain ⟨rfl, rfl⟩ : c = 0x61 ∧ code = [false] := by simpa using h
    refine ⟨by decide, fun j hj => ?_⟩
    obtain rfl : j = 0 := by simpa using hj
    show t1.codeBit 0x61 0 = false
    decide
  · have hc : c ≠ 0x61 := fun hc => h [false] (by simp [hc])
    have : (0x61 : Nat) ≠ c.toNat := fun h => hc (BitVec.eq_of_toNat_eq (by rw [← h]; rfl))
    simp [State.codeLength, State.codeLenWord, t1, Memory.read, this]

/-- P1 of spec/95 with the text "a"; decoding starts in a state of its own with the same tree. -/
theorem witness_RoundTrip :
    ∃ t u, let v : State := { t1 with err := .sequence, codeLen := [] }
      t1.session = .idle ∧ TablesLoaded t1 ∧ [(0x61 : Sym)] ≠ [] ∧
      (∀ c ∈ [(0x61 : Sym)], ∃ code, (c, code) ∈ deriveCodes t1.node) ∧
      writesOf (encodeScript [0x61]) = encodeScript [0x61] ∧
      performEvents (command .encStart :: encodeScript [0x61]) t1 = .next t ∧ t.err ≠ .overflow ∧
      t.outCnt.toNat < 2 ^ 32 - 1 ∧
      (∀ p ∈ [[false]], 1 ≤ p.length ∧ p.length ≤ 32) ∧
      [[false]].flatten =
        (wordsBits (wordsTaken (command .encStart :: encodeScript [0x61]) t1 ++ t.wordq)).take t.outCnt.toNat ∧
      v.session = .idle ∧ v.node = t1.node ∧
      writesOf (decodeScript [[false]]) = decodeScript [[false]] ∧
      performEvents (command .decStart :: decodeScript [[false]]) v = .next u ∧ u.err ≠ .overflow :=
  ⟨_, _, by decide, t1_loaded, by decide,
    fun c hc => ⟨[false], List.mem_singleton.mp hc ▸ by decide⟩,
    by decide, rfl, by decide, by decide, by decide, by decide, by decide, by decide, by decide, rfl, by decide⟩

/-- R247 with R42: what a burst takes out of WORDQ is the host's. -/
theorem test_burst_reads_are_taken : wordsTaken [.burst [.read 4 0x010, .read 4 0x018, .read 4 0x018]]
    { enc3 with wordq := [1, 2, 3] } = [1, 2] := by decide

/-- R247: the output of a session holds what was read and what is queued; a session that CLR ends has none;
a reset ends no session. -/
theorem test_session_verdict :
    sessionVerdict (decodeScript [] ++ [command .decStart]) t3 = .notEnded ∧
    sessionVerdict ([.burst [commandWrite .decStart, .write 4 0x008 0x40000000, commandWrite (.decBits 2)],
      .access (.read 4 0x014), .access (.write 4 0x008 0), command (.decBits 1), command .decEnd]) t3 =
      .decoded [0x62, 0x63] ∧
    sessionVerdict [command .decStart, command .clr] t3 = .noOutput ∧
    sessionVerdict [command .decStart, .reset, command .decEnd] t3 = .notEnded := by decide

theorem witness_CodeLineLoadsTheCode : t3.session = .idle ∧ t3.TablesWf ∧
    1 ≤ (List.replicate 255 true).length ∧ (List.replicate 255 true).length ≤ 255 :=
  ⟨by decide, t3_tablesWf, by rw [List.length_replicate]; decide, by rw [List.length_replicate]⟩

theorem witness_DecFeedPresentsThePiece : 1 ≤ [true].length ∧ [true].length ≤ 32 ∧
    1 ≤ (List.replicate 32 true).length ∧ (List.replicate 32 true).length ≤ 32 := by decide

/-- P4 of spec/95: 34 bits in two words. -/
theorem witness_FeedRuleFeedsExactlyThePayload : 1 ≤ 34 ∧
    [0xFFFFFFFF#32, 0xC0000000#32].length = (34 + 31) / 32 ∧
    feedPlan [0xFFFFFFFF#32, 0xC0000000#32] 34 = [(0xFFFFFFFF#32, 32), (0xC0000000#32, 2)] := by decide

end Sys2Proof.Tests
end

section
/-! PROOFS. The words STATUS and FIFO_STATUS (R38, R39): each is an OR of fields `zext32 v <<< k` that do not
overlap, and its register reads without side effect and ignores writes. -/

namespace Sys2Proof.Machine

/-! ### Fields of a word -/

/-- A field reads back where it stands. -/
theorem extractLsb'_zext32_shiftLeft {n : Nat} (v : BitVec n) (k : Nat) (h : k + n ≤ 32) :
    (zext32 v <<< k).extractLsb' k n = v := by
  apply BitVec.eq_of_getLsbD_eq
  intro i hi
  have hk : k + i < 32 := by omega
  simp [zext32, hi, hk]

/-- A field is 0 wherever it does not stand. -/
theorem extractLsb'_zext32_shiftLeft_of_disjoint {n : Nat} (v : BitVec n) (k start len : Nat)
    (h : start + len ≤ k ∨ k + n ≤ start) : (zext32 v <<< k).extractLsb' start len = 0#len := by
  ext i hi
  rcases h with below | above
  · have hk : start + i < k := by omega
    simp [hk]
  · have hv : v.getLsbD (start + i - k) = false := BitVec.getLsbD_of_ge _ _ (by omega)
    simp [zext32, hv]

/-! ### The two status words as fields -/

/-- SESSION's code fits its two bits (R24). -/
theorem Session.code_eq_zext32 (x : Session) : x.code = zext32 (x.code.setWidth 2) := by
  cases x <;> rfl

/-- ERR's code fits its four bits (R200). -/
theorem ErrCode.code_eq_zext32 (e : ErrCode) : e.code = zext32 (e.code.setWidth 4) := by
  cases e <;> rfl

theorem doneBit_eq_zext32 (d : Bool) : doneBit d = zext32 (BitVec.ofBool d) := by
  cases d <;> rfl

/-- STATUS is five fields (R38). -/
theorem State.statusWord_eq_fields (s : State) : s.statusWord =
    zext32 s.walk <<< 16 ||| zext32 s.accN <<< 8 ||| zext32 (s.err.code.setWidth 4) <<< 4 |||
      zext32 (BitVec.ofBool s.done) <<< 2 ||| zext32 (s.session.code.setWidth 2) <<< 0 := by
  rw [State.statusWord, doneBit_eq_zext32, ← ErrCode.code_eq_zext32, ← Session.code_eq_zext32,
    BitVec.shiftLeft_zero]

/-- FIFO_STATUS is two fields, for queues within their capacities (R39). -/
theorem State.fifoStatusWord_eq_fields {s : State} (hsym : s.symq.length ≤ 64) (hword : s.wordq.length ≤ 16) :
    s.fifoStatusWord = zext32 (BitVec.ofNat 5 s.wordq.length) <<< 16 |||
      zext32 (BitVec.ofNat 7 s.symq.length) <<< 0 := by
  have hwords : zext32 (BitVec.ofNat 5 s.wordq.length) = BitVec.ofNat 32 s.wordq.length :=
    BitVec.setWidth_ofNat_of_le_of_lt (by decide) (by omega)
  have hsyms : zext32 (BitVec.ofNat 7 s.symq.length) = BitVec.ofNat 32 s.symq.length :=
    BitVec.setWidth_ofNat_of_le_of_lt (by decide) (by omega)
  rw [State.fifoStatusWord, hwords, hsyms, BitVec.shiftLeft_zero]

/-! ### Accesses to a register -/

/-- An aligned read of a register's offset is the register's read (R64). -/
theorem performAccess_read_reg {off : Offset} {r : Reg} (hoff : off.toNat % 4 = 0) (hr : region off = .reg r)
    (s : State) :
    performAccess (.read 4 off) s = .next (reply (.data (readReg r s).1) (readReg r s).2) := by
  have hadm : (Access.read 4 off).admitted = true := admitted_eq_true.mpr ⟨rfl, hoff⟩
  simp only [performAccess, hadm, memRead, hr, if_true]

/-- An aligned write of a register's offset is the register's write, answered (R65). -/
theorem performAccess_write_reg {off : Offset} {r : Reg} (hoff : off.toNat % 4 = 0) (hr : region off = .reg r)
    (v : Word) (s : State) :
    performAccess (.write 4 off v) s = andThen (writeReg r v s) fun t => .next (reply .done t) := by
  have hadm : (Access.write 4 off v).admitted = true := admitted_eq_true.mpr ⟨rfl, hoff⟩
  simp only [performAccess, hadm, memWrite, hr, if_true]

/-! ### The obligations -/

/-- Settles O16: the field asked for is the one field of STATUS that stands at those bits, or none does. -/
theorem statusFields : Obligations.StatusFields := by
  unfold Obligations.StatusFields
  intro s
  have hregion : region 0x00C = .reg .status := by decide
  refine ⟨performAccess_read_reg (by decide) hregion s,
    fun v => performAccess_write_reg (by decide) hregion v s, ?session, ?done, ?bit3, ?err, ?accN, ?bits13,
    ?walk, ?bits25⟩
  all_goals
    simp (disch := decide) only [BitVec.getLsbD_eq_extractLsb', State.statusWord_eq_fields, BitVec.extractLsb'_or,
      extractLsb'_zext32_shiftLeft, extractLsb'_zext32_shiftLeft_of_disjoint, BitVec.or_zero, BitVec.zero_or]
  case session => cases s.session <;> rfl
  case done => cases s.done <;> rfl
  case bit3 => rfl
  case err => cases s.err <;> rfl
  case bits13 => rfl
  case bits25 => rfl

/-- Settles O17: as for STATUS; a count within its queue's capacity reads back whole. -/
theorem fifoStatusFields : Obligations.FifoStatusFields := by
  unfold Obligations.FifoStatusFields
  intro s hsym hword
  have hregion : region 0x010 = .reg .fifoStatus := by decide
  refine ⟨performAccess_read_reg (by decide) hregion s,
    fun v => performAccess_write_reg (by decide) hregion v s, ?syms, ?bits7, ?words, ?bits21⟩
  all_goals
    simp (disch := decide) only [State.fifoStatusWord_eq_fields hsym hword, BitVec.extractLsb'_or,
      extractLsb'_zext32_shiftLeft, extractLsb'_zext32_shiftLeft_of_disjoint, BitVec.or_zero, BitVec.zero_or]
  case syms => exact (BitVec.toNat_ofNat ..).trans (Nat.mod_eq_of_lt (by omega))
  case bits7 => rfl
  case words => exact (BitVec.toNat_ofNat ..).trans (Nat.mod_eq_of_lt (by omega))
  case bits21 => rfl

end Sys2Proof.Machine
end

section
/-! PROOFS. The address map (R61): what an offset of each range stands for, and that an aligned offset is found
again from the register or entry it stands for; and the accesses that have no effect (R67). -/

namespace Sys2Proof.Machine

/-! ### The ranges of the window -/

theorem region_of_lt_800 {off : Offset} (h : off.toNat < 0x800) : region off = .reg (regAt off.toNat) :=
  if_pos h

theorem region_of_node_range {off : Offset} (hlo : 0x800 ≤ off.toNat) (hhi : off.toNat < 0x1000) :
    region off = .nodeE (BitVec.ofNat 9 ((off.toNat - 0x800) / 4)) := by
  rw [region, if_neg (by omega), if_pos hhi]

theorem region_of_len_range {off : Offset} (hlo : 0x1000 ≤ off.toNat) (hhi : off.toNat < 0x1400) :
    region off = .lenE (BitVec.ofNat 8 ((off.toNat - 0x1000) / 4)) := by
  rw [region, if_neg (by omega), if_neg (by omega), if_pos hhi]

theorem region_of_reserved_range {off : Offset} (hlo : 0x1400 ≤ off.toNat) (hhi : off.toNat < 0x2000) :
    region off = .reserved := by
  rw [region, if_neg (by omega), if_neg (by omega), if_neg (by omega), if_pos hhi]

theorem region_of_bits_range {off : Offset} (hlo : 0x2000 ≤ off.toNat) :
    region off = .bitsE (BitVec.ofNat 8 ((off.toNat - 0x2000) / 32))
      (BitVec.ofNat 3 ((off.toNat - 0x2000) % 32 / 4)) := by
  rw [region, if_neg (by omega), if_neg (by omega), if_neg (by omega), if_neg (by omega)]

/-- Past ERR_INFO the register block is reserved (R45). -/
theorem regAt_of_02C_le {o : Nat} (h : 0x02C ≤ o) : regAt o = .reserved := by
  rw [regAt]
  repeat rw [if_neg (by omega)]

/-! ### The entries -/

theorem region_node_entry (i : NodeIndex) : region (BitVec.ofNat 14 (0x800 + 4 * i.toNat)) = .nodeE i := by
  have hi := i.isLt
  have hoff : (BitVec.ofNat 14 (0x800 + 4 * i.toNat)).toNat = 0x800 + 4 * i.toNat :=
    (BitVec.toNat_ofNat ..).trans (Nat.mod_eq_of_lt (by omega))
  have hentry : (0x800 + 4 * i.toNat - 0x800) / 4 = i.toNat := by omega
  rw [region_of_node_range (by omega) (by omega), hoff, hentry, BitVec.ofNat_toNat, BitVec.setWidth_eq]

theorem region_len_entry (c : Sym) : region (BitVec.ofNat 14 (0x1000 + 4 * c.toNat)) = .lenE c := by
  have hc := c.isLt
  have hoff : (BitVec.ofNat 14 (0x1000 + 4 * c.toNat)).toNat = 0x1000 + 4 * c.toNat :=
    (BitVec.toNat_ofNat ..).trans (Nat.mod_eq_of_lt (by omega))
  have hentry : (0x1000 + 4 * c.toNat - 0x1000) / 4 = c.toNat := by omega
  rw [region_of_len_range (by omega) (by omega), hoff, hentry, BitVec.ofNat_toNat, BitVec.setWidth_eq]

theorem region_bits_entry (c : Sym) (k : BitVec 3) :
    region (BitVec.ofNat 14 (0x2000 + 32 * c.toNat + 4 * k.toNat)) = .bitsE c k := by
  have hc := c.isLt
  have hk := k.isLt
  have hoff : (BitVec.ofNat 14 (0x2000 + 32 * c.toNat + 4 * k.toNat)).toNat =
      0x2000 + 32 * c.toNat + 4 * k.toNat := (BitVec.toNat_ofNat ..).trans (Nat.mod_eq_of_lt (by omega))
  have hsym : (0x2000 + 32 * c.toNat + 4 * k.toNat - 0x2000) / 32 = c.toNat := by omega
  have hword : (0x2000 + 32 * c.toNat + 4 * k.toNat - 0x2000) % 32 / 4 = k.toNat := by omega
  rw [region_of_bits_range (by omega), hoff, hsym, hword]
  simp only [BitVec.ofNat_toNat, BitVec.setWidth_eq]

/-! ### From a meaning back to its offset -/

/-- Where a register stands in the block (R45); the reserved ones share no one offset. -/
def Reg.entryOffset : Reg → Nat
  | .params => 0x000
  | .cmd => 0x004
  | .data => 0x008
  | .status => 0x00C
  | .fifoStatus => 0x010
  | .symOut => 0x014
  | .wordOut => 0x018
  | .inCnt => 0x01C
  | .outCnt => 0x020
  | .acc => 0x024
  | .errInfo => 0x028
  | .reserved => 0x02C

/-- The entry address column of R61; reserved offsets share no one address. -/
def Region.entryOffset : Region → Nat
  | .reg r => r.entryOffset
  | .nodeE i => 0x800 + 4 * i.toNat
  | .lenE c => 0x1000 + 4 * c.toNat
  | .reserved => 0x1400
  | .bitsE c k => 0x2000 + 32 * c.toNat + 4 * k.toNat

theorem regAt_reserved_or_entryOffset (o : Nat) : regAt o = .reserved ∨ (regAt o).entryOffset = o := by
  unfold regAt
  repeat' split
  case isFalse => exact .inl rfl
  all_goals
    subst_vars
    exact .inr rfl

/-- `Region.entryOffset` undoes `region` on the aligned offsets that are not reserved. -/
theorem region_reserved_or_entryOffset (off : Offset) (h4 : off.toNat % 4 = 0) :
    region off = .reserved ∨ region off = .reg .reserved ∨ (region off).entryOffset = off.toNat := by
  have hoff := off.isLt
  by_cases hreg : off.toNat < 0x800
  · rw [region_of_lt_800 hreg]
    rcases regAt_reserved_or_entryOffset off.toNat with h | h
    · exact .inr (.inl (congrArg Region.reg h))
    · exact .inr (.inr h)
  by_cases hnode : off.toNat < 0x1000
  · rw [region_of_node_range (by omega) hnode]
    simp only [Region.entryOffset, BitVec.toNat_ofNat]
    omega
  by_cases hlen : off.toNat < 0x1400
  · rw [region_of_len_range (by omega) hlen]
    simp only [Region.entryOffset, BitVec.toNat_ofNat]
    omega
  by_cases hres : off.toNat < 0x2000
  · exact .inl (region_of_reserved_range (by omega) hres)
  · rw [region_of_bits_range (by omega)]
    simp only [Region.entryOffset, BitVec.toNat_ofNat]
    omega

/-- "No offset has two meanings", and no meaning but a reserved one two aligned offsets (R61). -/
theorem region_injective {off off' : Offset} (h4 : off.toNat % 4 = 0) (h4' : off'.toNat % 4 = 0)
    (h : region off = region off') : off = off' ∨ region off = .reserved ∨ region off = .reg .reserved := by
  rcases region_reserved_or_entryOffset off h4 with hres | hres | hentry
  · exact .inr (.inl hres)
  · exact .inr (.inr hres)
  rcases region_reserved_or_entryOffset off' h4' with hres | hres | hentry'
  · exact .inr (.inl (h.trans hres))
  · exact .inr (.inr (h.trans hres))
  · exact .inl (BitVec.eq_of_toNat_eq (by rw [← hentry, h, hentry']))

/-! ### Accesses without effect -/

/-- Every register but CMD and DATA ignores a write (R65). -/
theorem writeReg_ignored {r : Reg} (hcmd : r ≠ .cmd) (hdata : r ≠ .data) (v : Word) (s : State) :
    writeReg r v s = .next s := by
  cases r with
  | cmd => exact absurd rfl hcmd
  | data => exact absurd rfl hdata
  | _ => rfl

theorem performAccess_write_reg_ignored {off : Offset} {r : Reg} (h4 : off.toNat % 4 = 0)
    (hr : region off = .reg r) (hcmd : r ≠ .cmd) (hdata : r ≠ .data) (v : Word) (s : State) :
    performAccess (.write 4 off v) s = .next (reply .done s) := by
  rw [performAccess_write_reg h4 hr, writeReg_ignored hcmd hdata, andThen_next]

theorem performAccess_read_reserved {off : Offset} (h4 : off.toNat % 4 = 0) (hr : region off = .reserved)
    (s : State) : performAccess (.read 4 off) s = .next (reply (.data 0) s) := by
  have hadm : (Access.read 4 off).admitted = true := admitted_eq_true.mpr ⟨rfl, h4⟩
  simp only [performAccess, hadm, memRead, hr, if_true]

theorem performAccess_write_reserved {off : Offset} (h4 : off.toNat % 4 = 0) (hr : region off = .reserved)
    (v : Word) (s : State) : performAccess (.write 4 off v) s = .next (reply .done s) := by
  have hadm : (Access.write 4 off v).admitted = true := admitted_eq_true.mpr ⟨rfl, h4⟩
  simp only [performAccess, hadm, memWrite, hr, if_true, andThen_next]

/-! ### The obligations -/

/-- Settles O14: each range's equation, and `Region.entryOffset` as the inverse that makes `region` injective. -/
theorem addressMap : Obligations.AddressMap := by
  unfold Obligations.AddressMap
  exact ⟨fun _ => region_of_lt_800, region_node_entry, region_len_entry, fun _ => region_of_reserved_range,
    region_bits_entry, fun _ _ => region_injective⟩

/-- Settles O19: a reserved offset is a reserved register or lies in the reserved range; none of the nine
registers is CMD or DATA. -/
theorem reservedAndReadOnlyOffsets : Obligations.ReservedAndReadOnlyOffsets := by
  unfold Obligations.ReservedAndReadOnlyOffsets
  refine ⟨fun off v s h4 hres => ?reserved, fun off v s hoff => ?readOnly,
    performAccess_read_reg (by decide) (r := .cmd) (by decide)⟩
  case reserved =>
    rcases hres with ⟨hlo, hhi⟩ | ⟨hlo, hhi⟩
    · have hr : region off = .reg .reserved := by
        rw [region_of_lt_800 (by omega), regAt_of_02C_le hlo]
      exact ⟨performAccess_read_reg h4 hr s, performAccess_write_reg_ignored h4 hr (by decide) (by decide) v s⟩
    · have hr : region off = .reserved := region_of_reserved_range hlo (by omega)
      exact ⟨performAccess_read_reserved h4 hr s, performAccess_write_reserved h4 hr v s⟩
  case readOnly =>
    have hro : off.toNat % 4 = 0 ∧ off.toNat < 0x800 ∧ regAt off.toNat ≠ .cmd ∧ regAt off.toNat ≠ .data := by
      fin_cases hoff
      all_goals decide
    obtain ⟨h4, hlt, hcmd, hdata⟩ := hro
    exact performAccess_write_reg_ignored h4 (region_of_lt_800 hlt) hcmd hdata v s

end Sys2Proof.Machine
end

section
/-! PROOFS. Illegal command words (R98): each of the four illegal forms fails to decode, a word that does not
decode records ILLEGAL_COMMAND, and no command but NOP leaves every state as it is. -/

namespace Sys2Proof.Machine

/-! ### The four illegal forms do not decode -/

theorem ifReservedZero_of_ne_zero {n : Nat} {reserved : BitVec n} (h : reserved ≠ 0#n) (i : Instr) :
    ifReservedZero (reserved == 0#n) i = .error .reservedBitSet :=
  if_neg fun hzero => h (eq_of_beq hzero)

theorem decode_of_reserved_opcode {w : Word} (h : 8 ≤ (opField w).toNat) :
    decode w = .error .reservedOpcode := by
  have hne (op : BitVec 4) (hop : op.toNat < 8) : opField w ≠ op := by
    rintro rfl
    omega
  rw [decode]
  repeat rw [if_neg (hne _ (by decide))]

theorem decode_of_reserved_bit_F0 {w : Word} (hop : opField w ∈ [0x0#4, 0x1#4, 0x2#4, 0x4#4, 0x5#4, 0x7#4])
    (hset : w.extractLsb' 0 28 ≠ 0) : decode w = .error .reservedBitSet := by
  simp only [List.mem_cons, List.not_mem_nil, or_false] at hop
  rcases hop with hop | hop | hop | hop | hop | hop
  all_goals simp [decode, hop, ifReservedZero_of_ne_zero hset]

theorem decode_of_reserved_bit_FS {w : Word} (hop : opField w = 0x3#4) (hset : w.extractLsb' 8 20 ≠ 0) :
    decode w = .error .reservedBitSet := by
  simp [decode, hop, ifReservedZero_of_ne_zero hset]

theorem decode_of_reserved_bit_FN {w : Word} (hop : opField w = 0x6#4) (hset : w.extractLsb' 6 22 ≠ 0) :
    decode w = .error .reservedBitSet := by
  simp [decode, hop, ifReservedZero_of_ne_zero hset]

/-! ### What an illegal word does -/

theorem execute_of_decode_error {w : Word} {why : IllegalWord} (h : decode w = .error why) (s : State) :
    execute w s = .next (record .illegalCommand w s) := by
  rw [execute, h]

theorem performAccess_write_cmd_of_decode_error {w : Word} {why : IllegalWord} (h : decode w = .error why)
    (s : State) :
    performAccess (.write 4 cmdOffset w) s = .next (reply .done (record .illegalCommand w s)) := by
  rw [performAccess_write_reg (r := .cmd) (by decide) (by decide), writeReg, execute_of_decode_error h,
    andThen_next]

/-! ### No command but NOP is a no-op -/

theorem exec_ne_self_of_ends_session {i : Instr} {s t : State} (h : exec i s = .next t)
    (hopen : s.session ≠ .idle) (hends : t.session = .idle) : exec i s ≠ .next s := by
  rw [h]
  rintro ⟨rfl⟩
  exact hopen hends

theorem exec_ne_self_of_not_allowed {i : Instr} {s : State} (h : allowed i s.session = false)
    (hopen : s.session ≠ .idle) : exec i s ≠ .next s :=
  exec_ne_self_of_ends_session (exec_not_allowed h) hopen (record_session ..)

theorem exec_clr_ne_self {s : State} (hopen : s.session ≠ .idle) : exec .clr s ≠ .next s :=
  exec_ne_self_of_ends_session (exec_allowed rfl) hopen rfl

/-- The reset state but for a session that is open. -/
def resetWithSession (x : Session) : State := { State.reset with session := x }

/-- Every command but NOP and CLR is refused in some open session, and CLR ends any (R122, R123). -/
theorem exists_exec_ne_self {i : Instr} (h : i ≠ .nop) : ∃ s, exec i s ≠ .next s := by
  have henc : (resetWithSession .enc).session ≠ .idle := by decide
  have hdec : (resetWithSession .dec).session ≠ .idle := by decide
  cases i with
  | nop => exact absurd rfl h
  | clr => exact ⟨_, exec_clr_ne_self henc⟩
  | encStart => exact ⟨_, exec_ne_self_of_not_allowed rfl henc⟩
  | encSym c => exact ⟨_, exec_ne_self_of_not_allowed rfl hdec⟩
  | encEnd => exact ⟨_, exec_ne_self_of_not_allowed rfl hdec⟩
  | decStart => exact ⟨_, exec_ne_self_of_not_allowed rfl henc⟩
  | decBits n => exact ⟨_, exec_ne_self_of_not_allowed rfl henc⟩
  | decEnd => exact ⟨_, exec_ne_self_of_not_allowed rfl henc⟩

/-! ### The obligation -/

/-- Settles O5: none of the four forms decodes, and a word that does not decode has the effect of `record`. -/
theorem illegalWordsRaiseIllegalCommand : Obligations.IllegalWordsRaiseIllegalCommand := by
  unfold Obligations.IllegalWordsRaiseIllegalCommand
  refine ⟨fun w s hillegal => ?illegal, fun _ => exists_exec_ne_self⟩
  case illegal =>
    have hdecode : ∃ why, decode w = .error why := by
      rcases hillegal with hop | ⟨hop, hset⟩ | ⟨hop, hset⟩ | ⟨hop, hset⟩
      · exact ⟨_, decode_of_reserved_opcode hop⟩
      · exact ⟨_, decode_of_reserved_bit_F0 hop hset⟩
      · exact ⟨_, decode_of_reserved_bit_FS hop hset⟩
      · exact ⟨_, decode_of_reserved_bit_FN hop hset⟩
    obtain ⟨_, hdecode⟩ := hdecode
    exact performAccess_write_cmd_of_decode_error hdecode s

end Sys2Proof.Machine
end

section
/-! PROOFS. NOP (R121): the word 0 is the only word with OP = 0 that decodes, and NOP completes from every state
to the same state. -/

namespace Sys2Proof.Machine

/-- NOP is allowed in every session state and its pseudocode is empty (R121, R123). -/
theorem exec_nop (s : State) : exec .nop s = .next s :=
  exec_allowed rfl

/-- A word with OP = 0 other than the word 0 has a reserved bit set (R91, R92). -/
theorem operand_ne_zero_of_opField_eq_zero {w : Word} (hop : opField w = 0) (hw : w ≠ 0) :
    w.extractLsb' 0 28 ≠ 0 := by
  intro hoperand
  apply hw
  calc w = opField w ++ w.extractLsb' 0 28 := word_eq_op_append w
    _ = 0#4 ++ 0#28 := congrArg₂ (· ++ ·) hop hoperand
    _ = 0 := rfl

/-- Settles O35: a word with OP = 0 other than 0 is illegal because one of its reserved bits is set. -/
theorem nopChangesNothing : Obligations.NopChangesNothing := by
  unfold Obligations.NopChangesNothing
  refine ⟨by decide, exec_nop, fun w s hop hw => ?illegal⟩
  case illegal =>
    have hreserved : w.extractLsb' 0 28 ≠ 0 := operand_ne_zero_of_opField_eq_zero hop hw
    exact execute_of_decode_error (decode_of_reserved_bit_F0 (by simp [hop]) hreserved) s

end Sys2Proof.Machine
end

section
/-! PROOFS. ENC_START (R144): what it leaves in IDLE, and its refusal in an open session (R123). -/

namespace Sys2Proof.Machine

theorem exec_encStart_of_idle {s : State} (h : s.session = .idle) :
    exec .encStart s = .next { sessionClear s with session := .enc } :=
  exec_allowed (i := .encStart) (beq_iff_eq.mpr h)

theorem exec_encStart_of_open {s : State} (h : s.session ≠ .idle) :
    exec .encStart s = .next (record .sequence (encode .encStart) s) :=
  exec_not_allowed (i := .encStart) (beq_eq_false_iff_ne.mpr h)

/-- Settles O37: ENC_START is allowed exactly in IDLE, where it clears the session state, ERR with it. -/
theorem encStartOpensAnEncodeSession : Obligations.EncStartOpensAnEncodeSession := by
  unfold Obligations.EncStartOpensAnEncodeSession
  exact ⟨by decide, fun _ => exec_encStart_of_idle, fun _ => exec_encStart_of_open⟩

end Sys2Proof.Machine
end

section
/-! PROOFS. The derived codes (R140, R148): `visit` collects exactly the paths that end at a leaf, and no such path
goes on past its leaf. -/

namespace Sys2Proof.Machine

/-! ### Paths that end at a leaf -/

/-- The path leads from node i to a leaf that holds the symbol. -/
def LeadsToLeaf (m : Memory) (i : NodeIndex) (path : List Bool) (c : Sym) : Prop :=
  ∃ j, follow m i path = some j ∧ kindAt m j = .leaf ∧ symAt m j = c

section
variable {m : Memory} {i : NodeIndex} {c : Sym}

@[simp] theorem leadsToLeaf_nil : LeadsToLeaf m i [] c ↔ kindAt m i = .leaf ∧ symAt m i = c := by
  simp [LeadsToLeaf, follow]

@[simp] theorem leadsToLeaf_cons {b : Bool} {path : List Bool} :
    LeadsToLeaf m i (b :: path) c ↔ kindAt m i = .internal ∧ LeadsToLeaf m (childAt m i b) path c := by
  by_cases hi : kindAt m i = .internal
  · simp [LeadsToLeaf, follow, hi]
  · simp [LeadsToLeaf, follow, hi]

/-- A leaf has no path to a leaf but the empty one. -/
theorem leadsToLeaf_of_leaf {path : List Bool} (hi : kindAt m i = .leaf) :
    LeadsToLeaf m i path c ↔ path = [] ∧ symAt m i = c := by
  cases path with
  | nil => simp [hi]
  | cons b path => simp [hi]

/-- No path goes on past a leaf: of two paths to leaves, one a prefix of the other, both are the same. -/
theorem LeadsToLeaf.eq_of_prefix {p q : List Bool} {d : Sym} (hp : LeadsToLeaf m i p c)
    (hq : LeadsToLeaf m i q d) (hpq : p <+: q) : p = q ∧ c = d := by
  induction p generalizing i q with
  | nil =>
    obtain ⟨hleaf, hc⟩ := leadsToLeaf_nil.mp hp
    obtain ⟨hnil, hd⟩ := (leadsToLeaf_of_leaf hleaf).mp hq
    exact ⟨hnil.symm, hc.symm.trans hd⟩
  | cons b p ih =>
    obtain ⟨rest, rfl⟩ := hpq
    obtain ⟨-, hp⟩ := leadsToLeaf_cons.mp hp
    obtain ⟨-, hq⟩ := leadsToLeaf_cons.mp hq
    obtain ⟨htail, hsym⟩ := ih hp hq (List.prefix_append p rest)
    exact ⟨congrArg (b :: ·) htail, hsym⟩

/-! ### `visit` and `deriveCodes` -/

theorem visit_of_leaf (fuel : Nat) (p : List Bool) (hi : kindAt m i = .leaf) :
    visit m fuel i p = [(symAt m i, p)] := by
  cases fuel with
  | zero => simp [visit, hi]
  | succ fuel => simp [visit, hi]

theorem visit_succ_of_internal (fuel : Nat) (p : List Bool) (hi : kindAt m i = .internal) :
    visit m (fuel + 1) i p =
      visit m fuel (childAt m i false) (p ++ [false]) ++ visit m fuel (childAt m i true) (p ++ [true]) := by
  simp [visit, hi]

/-- `visit` gives a symbol the codes that prolong p by a path to a leaf of that symbol, at most `fuel` bits long. -/
theorem mem_visit {fuel : Nat} {p code : List Bool} :
    (c, code) ∈ visit m fuel i p ↔ ∃ q, q.length ≤ fuel ∧ LeadsToLeaf m i q c ∧ code = p ++ q := by
  induction fuel generalizing i p with
  | zero =>
    by_cases hleaf : kindAt m i = .leaf
    · simp [visit_of_leaf 0 p hleaf, hleaf, eq_comm]
    · simp [visit, hleaf]
  | succ fuel ih =>
    by_cases hleaf : kindAt m i = .leaf
    · simp [visit_of_leaf _ p hleaf, leadsToLeaf_of_leaf hleaf, and_comm, eq_comm]
    by_cases hint : kindAt m i = .internal
    · rw [visit_succ_of_internal fuel p hint, List.mem_append, ih, ih]
      constructor
      · rintro (⟨q, hlen, hq, rfl⟩ | ⟨q, hlen, hq, rfl⟩)
        · exact ⟨false :: q, Nat.succ_le_succ hlen, leadsToLeaf_cons.mpr ⟨hint, hq⟩, by simp⟩
        · exact ⟨true :: q, Nat.succ_le_succ hlen, leadsToLeaf_cons.mpr ⟨hint, hq⟩, by simp⟩
      · rintro ⟨q, hlen, hq, rfl⟩
        cases q with
        | nil => exact absurd (leadsToLeaf_nil.mp hq).1 hleaf
        | cons b q =>
          have hchild := (leadsToLeaf_cons.mp hq).2
          have hle : q.length ≤ fuel := Nat.le_of_succ_le_succ hlen
          cases b with
          | false => exact .inl ⟨q, hle, hchild, by simp⟩
          | true => exact .inr ⟨q, hle, hchild, by simp⟩
    · have hnone (q : List Bool) : ¬ LeadsToLeaf m i q c := by
        cases q with
        | nil => simp [hleaf]
        | cons b q => simp [hint]
      simp [visit, hleaf, hint, hnone]

theorem deriveCodes_of_leaf_root (h : kindAt m 0 = .leaf) : deriveCodes m = [(symAt m 0, [false])] :=
  if_pos h

/-- Below a root that is no leaf, the derived codes are the paths of at most L_MAX bits from the root to a leaf. -/
theorem mem_deriveCodes (h : kindAt m 0 ≠ .leaf) {code : List Bool} :
    (c, code) ∈ deriveCodes m ↔ code.length ≤ Config.lMax ∧ LeadsToLeaf m 0 code c := by
  rw [deriveCodes, if_neg h, mem_visit]
  simp

end

/-! ### The obligation -/

/-- Settles O54: the single leaf has one code, "0"; below any other root the codes are paths to leaves, none of
which goes on past its leaf, and the empty path does not end at one. WF is not used: `visit` is bounded in depth
and stops at a leaf in any table. -/
theorem derivedCodesArePrefixFree : Obligations.DerivedCodesArePrefixFree := by
  unfold Obligations.DerivedCodesArePrefixFree
  intro m _
  by_cases hroot : kindAt m 0 = .leaf
  case pos => simp [deriveCodes_of_leaf_root hroot]
  case neg =>
    refine ⟨fun (c, p) hp (d, q) hq hpq => ?prefixFree, fun (c, p) hp => ?notEmpty⟩
    case prefixFree =>
      have hpath := ((mem_deriveCodes hroot).mp hp).2
      have hpath' := ((mem_deriveCodes hroot).mp hq).2
      obtain ⟨rfl, rfl⟩ := hpath.eq_of_prefix hpath' (List.isPrefixOf_iff_prefix.mp hpq)
      rfl
    case notEmpty =>
      have hpath := ((mem_deriveCodes hroot).mp hp).2
      cases p with
      | nil => exact absurd (leadsToLeaf_nil.mp hpath).1 hroot
      | cons b p => simp

end Sys2Proof.Machine
end

section
/-! PROOFS. DEC_START (R172): what it leaves in IDLE, and its refusal in an open session (R123). -/

namespace Sys2Proof.Machine

theorem exec_decStart_of_idle {s : State} (h : s.session = .idle) :
    exec .decStart s = .next { sessionClear s with session := .dec } :=
  exec_allowed (i := .decStart) (beq_iff_eq.mpr h)

theorem exec_decStart_of_open {s : State} (h : s.session ≠ .idle) :
    exec .decStart s = .next (record .sequence (encode .decStart) s) :=
  exec_not_allowed (i := .decStart) (beq_eq_false_iff_ne.mpr h)

/-- Settles O38: DEC_START is allowed exactly in IDLE, where it clears the session state and reads no table. -/
theorem decStartOpensADecodeSession : Obligations.DecStartOpensADecodeSession := by
  unfold Obligations.DecStartOpensADecodeSession
  exact ⟨by decide, fun _ => exec_decStart_of_idle, fun _ => exec_decStart_of_open⟩

end Sys2Proof.Machine
end

section
/-! PROOFS. One walk step (R170): the KIND of a node word by its two bits, what a step does at each kind of node,
and below an internal node at each kind of child. -/

namespace Sys2Proof.Machine

/-! ### The KIND of a node word (R30) -/

/-- The two bits that encode a KIND. -/
def NodeKind.bits : NodeKind → BitVec 2
  | .empty => 0b00
  | .leaf => 0b01
  | .internal => 0b10
  | .reserved => 0b11

/-- Each of the four values of the two bits is the KIND it encodes. -/
theorem nodeKind_eq_iff {n : Word} {k : NodeKind} : nodeKind n = k ↔ n.extractLsb' 30 2 = k.bits := by
  rw [nodeKind]
  generalize n.extractLsb' 30 2 = bits
  revert bits
  cases k <;> decide

/-- A node word at which a walk cannot stand: its KIND is EMPTY or reserved. -/
def InvalidNode (n : Word) : Prop := nodeKind n = .empty ∨ nodeKind n = .reserved

theorem invalidNode_iff {n : Word} :
    InvalidNode n ↔ n.extractLsb' 30 2 = 0b00#2 ∨ n.extractLsb' 30 2 = 0b11#2 :=
  or_congr nodeKind_eq_iff nodeKind_eq_iff

/-! ### What a walk step does -/

section
variable {b : Bool} {s : State}

theorem walkStep_of_invalid (h : InvalidNode (s.nodeWord s.walk)) :
    walkStep b s = .raised s .treeInvalid (zext32 s.walk) := by
  rcases h with h | h
  · simp [walkStep, h]
  · simp [walkStep, h]

theorem walkStep_false_of_leaf (h : nodeKind (s.nodeWord s.walk) = .leaf) :
    walkStep false s = .completed (emit (nodeSym (s.nodeWord s.walk)) s) := by
  simp [walkStep, h]

theorem walkStep_true_of_leaf (h : nodeKind (s.nodeWord s.walk) = .leaf) :
    walkStep true s = .raised s .malformedPayload 0x80000000 := by
  simp [walkStep, h]

section
variable (h : nodeKind (s.nodeWord s.walk) = .internal)
include h

theorem walkStep_of_child_zero (hc : nodeChild (s.nodeWord s.walk) b = 0) :
    walkStep b s = .raised s .treeInvalid (0x80000000 ||| zext32 s.walk) := by
  simp [walkStep, h, hc]

variable (hc : nodeChild (s.nodeWord s.walk) b ≠ 0)
include hc

theorem walkStep_of_child_invalid (hm : InvalidNode (s.nodeWord (nodeChild (s.nodeWord s.walk) b))) :
    walkStep b s = .raised s .treeInvalid (zext32 (nodeChild (s.nodeWord s.walk) b)) := by
  rcases hm with hm | hm
  · simp only [walkStep, h, hm, if_neg hc]
  · simp only [walkStep, h, hm, if_neg hc]

theorem walkStep_of_child_leaf (hm : nodeKind (s.nodeWord (nodeChild (s.nodeWord s.walk) b)) = .leaf) :
    walkStep b s = .completed
      { emit (nodeSym (s.nodeWord (nodeChild (s.nodeWord s.walk) b))) s with walk := 0 } := by
  simp only [walkStep, h, hm, if_neg hc]

theorem walkStep_of_child_internal
    (hm : nodeKind (s.nodeWord (nodeChild (s.nodeWord s.walk) b)) = .internal) :
    walkStep b s = .completed { s with walk := nodeChild (s.nodeWord s.walk) b } := by
  simp only [walkStep, h, hm, if_neg hc]

end
end

/-! ### The obligation -/

/-- Bit 31 set above a narrower value is the sum that the rules write (R41, R170). -/
theorem bit31_or_zext32 {n : Nat} (v : BitVec n) (hn : n ≤ 31) :
    0x80000000 ||| zext32 v = 0x80000000 + v.setWidth 32 := by
  have hbit : v.getLsbD 31 = false := BitVec.getLsbD_of_ge v 31 hn
  have hdisjoint : BitVec.twoPow 32 31 &&& zext32 v = 0 := by
    simp [BitVec.twoPow_and, zext32, hbit]
  exact (BitVec.add_eq_or_of_and_eq_zero _ _ hdisjoint).symm

/-- Settles O47: each clause is a walk step's equation, with the node's KIND read from its two bits. -/
theorem walkStepRule : Obligations.WalkStepRule := by
  unfold Obligations.WalkStepRule
  intro b s
  refine ⟨fun hn => ?invalid, fun hn hb => ?leafZero, fun hn hb => ?leafOne, fun hn hc => ?childZero,
    fun hn hc hm => ?childInvalid, fun hn hc hm => ?childLeaf, fun hn hc hm => ?childInternal⟩
  case invalid => exact walkStep_of_invalid (invalidNode_iff.mpr hn)
  case leafZero => exact hb ▸ walkStep_false_of_leaf (nodeKind_eq_iff.mpr hn)
  case leafOne => exact hb ▸ walkStep_true_of_leaf (nodeKind_eq_iff.mpr hn)
  case childZero =>
    rw [← bit31_or_zext32 s.walk (by decide)]
    exact walkStep_of_child_zero (nodeKind_eq_iff.mpr hn) hc
  case childInvalid =>
    exact walkStep_of_child_invalid (nodeKind_eq_iff.mpr hn) hc (invalidNode_iff.mpr hm)
  case childLeaf =>
    exact walkStep_of_child_leaf (nodeKind_eq_iff.mpr hn) hc (nodeKind_eq_iff.mpr hm)
  case childInternal =>
    exact walkStep_of_child_internal (nodeKind_eq_iff.mpr hn) hc (nodeKind_eq_iff.mpr hm)

end Sys2Proof.Machine
end

section
/-! PROOFS. DEC_END (R174): its two outcomes in a decode session, and its refusal outside one (R123). -/

namespace Sys2Proof.Machine

theorem exec_decEnd_of_dec {s : State} (h : s.session = .dec) :
    exec .decEnd s = .next (finishDecoding s).settle :=
  exec_allowed (i := .decEnd) (beq_iff_eq.mpr h)

theorem exec_decEnd_of_not_dec {s : State} (h : s.session ≠ .dec) :
    exec .decEnd s = .next (record .sequence (encode .decEnd) s) :=
  exec_not_allowed (i := .decEnd) (beq_eq_false_iff_ne.mpr h)

theorem finishDecoding_of_root {s : State} (h : s.walk = 0) : finishDecoding s = .completed (endSession s) :=
  if_neg (not_not.mpr h)

theorem finishDecoding_of_midPath {s : State} (h : s.walk ≠ 0) :
    finishDecoding s = .raised s .malformedPayload (zext32 s.walk) :=
  if_pos h

/-- Settles O50: in a decode session only WALK decides, so that one without any DEC_BITS is accepted (C1). -/
theorem decEndAcceptsAtTheRootOnly : Obligations.DecEndAcceptsAtTheRootOnly := by
  unfold Obligations.DecEndAcceptsAtTheRootOnly
  refine ⟨by decide, fun s hdec hroot => ?root, fun s hdec hmid => ?midPath, fun _ => exec_decEnd_of_not_dec⟩
  case root => rw [exec_decEnd_of_dec hdec, finishDecoding_of_root hroot, settle_completed, endSession]
  case midPath => rw [exec_decEnd_of_dec hdec, finishDecoding_of_midPath hmid, settle_raised, zext32]

end Sys2Proof.Machine
end

section
/-! PROOFS. Command words (R90 to R97): each command has the one word `encode` gives it, that word is the one its
opcode map row selects, and the legal words are these. -/

namespace Sys2Proof

/-! ### Decoding and encoding -/

/-- Every format puts OP above its 28 operand bits (R91). -/
theorem opField_append (op : BitVec 4) (operand : BitVec 28) : opField (op ++ operand) = op :=
  BitVec.extractLsb'_append_eq_left

theorem decode_encode (i : Instr) : decode (encode i) = .ok i := by
  cases i with
  | encSym c =>
    have hreserved : (encode (.encSym c)).extractLsb' 8 20 = 0#20 := by
      rw [encode, BitVec.extractLsb'_append_eq_of_add_le (by decide)]
      exact BitVec.extractLsb'_append_eq_left
    have hsym : symField (encode (.encSym c)) = c := by
      rw [encode, symField, BitVec.extractLsb'_append_eq_of_add_le (by decide)]
      exact BitVec.extractLsb'_append_eq_right
    have hop : opField (encode (.encSym c)) = 0x3#4 := opField_append _ _
    simp [decode, ifReservedZero, hop, hreserved, hsym]
  | decBits n =>
    have hreserved : (encode (.decBits n)).extractLsb' 6 22 = 0#22 := by
      rw [encode, BitVec.extractLsb'_append_eq_of_add_le (by decide)]
      exact BitVec.extractLsb'_append_eq_left
    have hcount : countField (encode (.decBits n)) = n := by
      rw [encode, countField, BitVec.extractLsb'_append_eq_of_add_le (by decide)]
      exact BitVec.extractLsb'_append_eq_right
    have hop : opField (encode (.decBits n)) = 0x6#4 := opField_append _ _
    simp [decode, ifReservedZero, hop, hreserved, hcount]
  | _ => decide

section
variable {w : Word} {op : BitVec 4} (hop : opField w = op)
include hop

/-- A word of format F0 whose reserved bits are 0 is its opcode alone (R92). -/
theorem word_eq_of_F0 (h : (w.extractLsb' 0 28 == 0) = true) : op ++ 0#28 = w := by
  rw [word_eq_op_append w, hop, eq_of_beq h]
  rfl

/-- A word of format FS whose reserved bits are 0 is its opcode and S (R94). -/
theorem word_eq_of_FS (h : (w.extractLsb' 8 20 == 0) = true) : op ++ (0#20 ++ symField w) = w := by
  conv_rhs => rw [word_eq_op_append w, hop, operand_eq_sym w, eq_of_beq h]
  rfl

/-- A word of format FN whose reserved bits are 0 is its opcode and N (R93). -/
theorem word_eq_of_FN (h : (w.extractLsb' 6 22 == 0) = true) : op ++ (0#22 ++ countField w) = w := by
  conv_rhs => rw [word_eq_op_append w, hop, operand_eq_count w, eq_of_beq h]
  rfl

end

/-- A word that decodes is the word of its command: one case per opcode (R97). -/
theorem encode_of_decode {w : Word} {i : Instr} (h : decode w = .ok i) : encode i = w := by
  unfold decode at h
  split at h
  next hop => obtain ⟨hzero, rfl⟩ := ifReservedZero_ok h; exact word_eq_of_F0 hop hzero
  split at h
  next hop => obtain ⟨hzero, rfl⟩ := ifReservedZero_ok h; exact word_eq_of_F0 hop hzero
  split at h
  next hop => obtain ⟨hzero, rfl⟩ := ifReservedZero_ok h; exact word_eq_of_F0 hop hzero
  split at h
  next hop => obtain ⟨hzero, rfl⟩ := ifReservedZero_ok h; exact word_eq_of_FS hop hzero
  split at h
  next hop => obtain ⟨hzero, rfl⟩ := ifReservedZero_ok h; exact word_eq_of_F0 hop hzero
  split at h
  next hop => obtain ⟨hzero, rfl⟩ := ifReservedZero_ok h; exact word_eq_of_F0 hop hzero
  split at h
  next hop => obtain ⟨hzero, rfl⟩ := ifReservedZero_ok h; exact word_eq_of_FN hop hzero
  split at h
  next hop => obtain ⟨hzero, rfl⟩ := ifReservedZero_ok h; exact word_eq_of_F0 hop hzero
  · exact absurd h (by simp)

theorem decode_eq_ok_iff {w : Word} {i : Instr} : decode w = .ok i ↔ encode i = w :=
  ⟨encode_of_decode, fun h => h ▸ decode_encode i⟩

/-- Settles O1: the two directions of one equivalence. -/
theorem decodeAndEncodeAgree : Obligations.DecodeAndEncodeAgree := by
  unfold Obligations.DecodeAndEncodeAgree
  exact ⟨decode_encode, fun _ _ => encode_of_decode⟩

/-! ### The opcode map (R96) -/

theorem row_mem_opcodeRows (i : Instr) : i.row ∈ opcodeRows := by
  cases i <;> simp [opcodeRows, Instr.row]

/-- The word of a command selects the command's row. -/
theorem row_selects_encode (i : Instr) : i.row.selects (encode i) = true := by
  have hword : Laws.EncodedWord.Statement i := by
    cases i with
    | nop => exact Laws.EncodedWord.nop
    | clr => exact Laws.EncodedWord.clr
    | encStart => exact Laws.EncodedWord.encStart
    | encSym c => exact Laws.EncodedWord.encSym c
    | encEnd => exact Laws.EncodedWord.encEnd
    | decStart => exact Laws.EncodedWord.decStart
    | decBits n => exact Laws.EncodedWord.decBits n
    | decEnd => exact Laws.EncodedWord.decEnd
  exact beq_iff_eq.mpr hword

/-- A word that matches a pattern under a mask of leading ones is the pattern's leading bits and its own low bits. -/
theorem eq_append_of_and_mask {n k : Nat} {w : BitVec (n + k)} {high : BitVec n}
    (h : w &&& (BitVec.allOnes n ++ 0#k) = high ++ 0#k) : high ++ w.extractLsb' 0 k = w := by
  have hsplit : w.extractLsb' k n ++ w.extractLsb' 0 k = w := by
    rw [BitVec.extractLsb'_append_extractLsb'_eq_extractLsb' (Nat.zero_add k).symm, BitVec.extractLsb'_eq_self]
  have hhigh : w.extractLsb' k n = high := by
    rw [← hsplit, BitVec.and_append, BitVec.and_allOnes, BitVec.and_zero] at h
    exact (BitVec.append_left_inj _).mp h
  rw [← hhigh, hsplit]

/-- The words of ENC_SYM and DEC_BITS, opcode and reserved bits taken as one field. -/
theorem encode_encSym_eq_append (c : Sym) : encode (.encSym c) = 0x300000#24 ++ c :=
  BitVec.append_assoc'

theorem encode_decBits_eq_append (n : BitVec 6) : encode (.decBits n) = 0x1800000#26 ++ n :=
  BitVec.append_assoc'

/-- A word that selects a command's row is the word of a command. -/
theorem exists_encode_of_selects {i : Instr} {w : Word} (h : i.row.selects w = true) : ∃ j, encode j = w := by
  have hmatch : w &&& i.row.mask = i.row.pattern := eq_of_beq h
  have hF0 (hmask : i.row.mask = BitVec.allOnes 32) (hpattern : i.row.pattern = encode i) : ∃ j, encode j = w :=
    ⟨i, by rw [← hpattern, ← hmatch, hmask, BitVec.and_allOnes]⟩
  cases i with
  | encSym c =>
    refine ⟨.encSym (symField w), ?_⟩
    rw [encode_encSym_eq_append]
    exact eq_append_of_and_mask hmatch
  | decBits n =>
    refine ⟨.decBits (countField w), ?_⟩
    rw [encode_decBits_eq_append]
    exact eq_append_of_and_mask hmatch
  | _ => exact hF0 rfl (by decide)

theorem decode_error_iff {w : Word} : (∃ why, decode w = .error why) ↔ ∀ i, encode i ≠ w := by
  rcases hd : decode w with why | j
  · simp [← decode_eq_ok_iff, hd]
  · simpa using ⟨j, encode_of_decode hd⟩

/-- Every row of the map is a command's. -/
theorem exists_row_of_mem {r : OpcodeRow} (h : r ∈ opcodeRows) : ∃ i : Instr, i.row = r := by
  simp only [opcodeRows, List.mem_cons, List.not_mem_nil, or_false] at h
  rcases h with rfl | rfl | rfl | rfl | rfl | rfl | rfl | rfl
  all_goals exact ⟨_, rfl⟩

/-- Every row fixes the opcode of the words that select it. -/
theorem opField_of_selects {r : OpcodeRow} (hr : r ∈ opcodeRows) {w : Word} (h : r.selects w = true) :
    opField w = opField r.pattern := by
  have hmask : ∀ r ∈ opcodeRows, opField r.mask = BitVec.allOnes 4 := by decide
  calc opField w = opField w &&& opField r.mask := by rw [hmask r hr, BitVec.and_allOnes]
    _ = opField (w &&& r.mask) := BitVec.extractLsb'_and.symm
    _ = opField r.pattern := by rw [eq_of_beq h]

/-- The rows have different opcodes. -/
theorem opcodeRows_pairwise_opField : opcodeRows.Pairwise fun a b => opField a.pattern ≠ opField b.pattern := by
  decide

/-- Settles O2: a word decodes exactly when it is the word of a command, and so selects that command's row; two rows
that one word selects would have the same opcode. -/
theorem decodeFollowsTheOpcodeMap : Obligations.DecodeFollowsTheOpcodeMap := by
  unfold Obligations.DecodeFollowsTheOpcodeMap
  refine ⟨fun w i h => ?decodes, fun w => ?illegal, fun w => ?disjoint⟩
  case decodes =>
    rw [← encode_of_decode h]
    exact ⟨row_mem_opcodeRows i, row_selects_encode i⟩
  case illegal =>
    rw [decode_error_iff]
    constructor
    · intro hnone r hr
      obtain ⟨i, rfl⟩ := exists_row_of_mem hr
      by_contra hselects
      obtain ⟨j, hj⟩ := exists_encode_of_selects (Bool.not_eq_false _ ▸ hselects)
      exact hnone j hj
    · rintro hnone i rfl
      exact Bool.false_ne_true ((hnone i.row (row_mem_opcodeRows i)).symm.trans (row_selects_encode i))
  case disjoint =>
    refine opcodeRows_pairwise_opField.imp_of_mem fun ha hb hne hboth => hne ?_
    rw [← opField_of_selects ha hboth.1, opField_of_selects hb hboth.2]

/-! ### The legal words -/

/-- A field below zeros is added to what stands above it. -/
theorem append_eq_add_setWidth {n k : Nat} (high : BitVec n) (low : BitVec k) :
    high ++ low = (high ++ 0#k) + low.setWidth (n + k) := by
  have hlow : low.setWidth (n + k) = 0#n ++ low := by
    apply BitVec.eq_of_getLsbD_eq
    intro i hi
    rw [BitVec.getLsbD_setWidth, BitVec.getLsbD_append]
    split
    · simp [hi]
    · simp [BitVec.getLsbD_of_ge low i (by omega)]
  rw [hlow, BitVec.append_zero_add_zero_append]

theorem encode_encSym (c : Sym) : encode (.encSym c) = 0x30000000 + c.setWidth 32 :=
  (encode_encSym_eq_append c).trans (append_eq_add_setWidth _ _)

theorem encode_decBits (n : BitVec 6) : encode (.decBits n) = 0x60000000 + n.setWidth 32 :=
  (encode_decBits_eq_append n).trans (append_eq_add_setWidth _ _)

/-- Settles O3: a word decodes exactly when it is the word of a command, one case per command. -/
theorem legalCommandWords : Obligations.LegalCommandWords := by
  unfold Obligations.LegalCommandWords
  intro w
  simp only [decode_eq_ok_iff]
  constructor
  · rintro ⟨i, rfl⟩
    cases i with
    | encSym c => exact .inr (.inl ⟨c, encode_encSym c⟩)
    | decBits n => exact .inr (.inr ⟨n, encode_decBits n⟩)
    | _ => exact .inl (by decide)
  · rintro (hw | ⟨c, rfl⟩ | ⟨n, rfl⟩)
    · simp only [List.mem_cons, List.not_mem_nil, or_false] at hw
      rcases hw with rfl | rfl | rfl | rfl | rfl | rfl
      · exact ⟨.nop, rfl⟩
      · exact ⟨.clr, rfl⟩
      · exact ⟨.encStart, rfl⟩
      · exact ⟨.encEnd, rfl⟩
      · exact ⟨.decStart, rfl⟩
      · exact ⟨.decEnd, rfl⟩
    · exact ⟨.encSym c, encode_encSym c⟩
    · exact ⟨.decBits n, encode_decBits n⟩

/-- Settles O4: each word is evaluated. -/
theorem writtenOutWordsDecode : Obligations.WrittenOutWordsDecode := by
  unfold Obligations.WrittenOutWordsDecode
  decide

end Sys2Proof
end

section
/-! PROOFS. What DEC_BITS leaves, as one named state (R173): the walk's effects, and the walk's error on top. -/

namespace Sys2Proof.Machine

/-- The state after the walk of `bits`, an error of the walk not yet recorded (R173, R175). -/
def afterWalk (bits : List Bool) (s : State) : State :=
  { s with
    symq := s.symq ++ (walkStar s.node s.walk bits).syms
    walk := (walkStar s.node s.walk bits).pos
    inCnt := sat32 (s.inCnt.toNat + (walkStar s.node s.walk bits).walked)
    outCnt := sat32 (s.outCnt.toNat + (walkStar s.node s.walk bits).syms.length) }

/-- Record the error a walk raised, if it raised one (R173, R203). -/
def recordRaised (raised : Option (ErrCode × Word)) (s : State) : State :=
  match raised with
  | none => s
  | some (e, info) => record e info s

theorem settle_walkBits (bits : List Bool) (s : State) :
    (walkBits bits s).settle = recordRaised (walkStar s.node s.walk bits).raised (afterWalk bits s) := by
  rw [walkBits_eq]
  rcases hr : (walkStar s.node s.walk bits).raised with _ | ⟨e, info⟩
  · simp [hr, recordRaised, afterWalk]
  · simp [hr, recordRaised, afterWalk]

/-- The walk's effects stand alone, or with one of its two errors recorded on top. -/
theorem settle_walkBits_cases (bits : List Bool) (s : State) :
    (walkBits bits s).settle = afterWalk bits s ∨
    ∃ e info, (e = .treeInvalid ∨ e = .malformedPayload) ∧
      (walkBits bits s).settle = record e info (afterWalk bits s) := by
  rw [settle_walkBits]
  rcases hr : (walkStar s.node s.walk bits).raised with _ | ⟨e, info⟩
  · exact .inl rfl
  · exact .inr ⟨e, info, walkStar_raised hr, rfl⟩

end Sys2Proof.Machine
end

section
/-! PROOFS. The invariants of the state (R49): reset has them, and every event keeps them. Each of the updates an event
is made of keeps them; the tree and the tables enter only where a walk, an ENC_SYM or a table write does. -/

namespace Sys2Proof.Machine

/-! ### Facts about the accumulator, the walk and the tables -/

/-- ACC's bits below the held ones are 0 (R28). -/
theorem Accumulated.accLowZero {s : State} {before : List Word} {stream : List Bool}
    (h : Accumulated s before stream) : ∀ i < 32 - s.accN.toNat, s.acc.getLsbD i = false := by
  intro i hi
  have hheld : (stream.drop (32 * (stream.length / 32))).length = s.accN.toNat := by
    rw [h.accN, List.length_drop]
    omega
  rw [h.acc, packedWord_last, packWord_getLsbD, List.getD_eq_getElem?_getD,
    List.getElem?_eq_none (by omega)]
  simp

/-- A walk step leads to the root, to an INTERNAL node, or nowhere (R170). -/
theorem branch_next {m : Memory} {pos next : NodeIndex} {b : Bool} {out : Option Sym}
    (h : branch m pos b = .ok (next, out)) : next = pos ∨ next = 0 ∨ kindAt m next = .internal := by
  unfold branch at h
  repeat' split at h
  all_goals simp_all

/-- R49 (h) holds of every position a walk reaches. -/
theorem walkStar_pos_internal {m : Memory} {pos : NodeIndex} {bits : List Bool}
    (hpos : pos ≠ 0 → kindAt m pos = .internal) :
    (walkStar m pos bits).pos ≠ 0 → kindAt m (walkStar m pos bits).pos = .internal := by
  induction bits generalizing pos with
  | nil => exact hpos
  | cons b bs ih =>
    rw [walkStar]
    rcases hb : branch m pos b with e | ⟨next, out⟩
    · exact hpos
    · refine ih fun hnext => ?_
      rcases branch_next hb with rfl | rfl | hint
      · exact hpos hnext
      · exact absurd rfl hnext
      · exact hint

theorem codeBitsKey_lt (c : Sym) (k : BitVec 3) : codeBitsKey c k.toNat < Config.nSym * Config.codeWords := by
  have hc := c.isLt
  have hk := k.isLt
  simp only [codeBitsKey, Config.nSym, Config.codeWords]
  omega

namespace State.Inv

variable {s : State}

/-! ### The host's side of the state -/

theorem reply (h : s.Inv) (r : Response) : (reply r s).Inv := { h with }

theorem setPending (h : s.Inv) (events : List BusEvent) : State.Inv { s with pending := events } := { h with }

theorem setData (h : s.Inv) (v : Word) : State.Inv { s with data := v } := { h with }

/-- A read takes a queue's head at most. -/
theorem ofRead (h : s.Inv) {off : Offset} {t : State} (ht : ReadEffect s off t) : t.Inv := by
  cases ht with
  | none => exact h
  | sym c q _ hq =>
    have hlen := h.symqBound
    rw [hq] at hlen
    exact { h with symqBound := Nat.le_of_succ_le hlen }
  | word w q _ hq =>
    have hlen := h.wordqBound
    rw [hq] at hlen
    exact { h with wordqBound := Nat.le_of_succ_le hlen }

/-! ### The session's updates -/

/-- Recording an error closes the session, which leaves the queues and tables to speak of. -/
theorem record (h : s.Inv) {e : ErrCode} (he : e ≠ .none) (info : Word) : (record e info s).Inv where
  doneIdle hdone := by simp at hdone
  openClean hopen := by simp at hopen
  noErrNoInfo herr := by
    by_cases hs : s.err = .none
    · simp [hs, he] at herr
    · simp [hs] at herr
  accLowZero := h.accLowZero
  decAcc hdec := by simp at hdec
  encWalk henc := by simp at henc
  walkInternal hdec := by simp at hdec
  symqBound := h.symqBound
  wordqBound := h.wordqBound
  outCntAccN henc := by simp at henc
  nodeWf := h.nodeWf
  codeLenWf := h.codeLenWf
  codeBitsWf := h.codeBitsWf

/-- `session_clear()` meets the invariants whatever session is opened or closed with it. -/
theorem clear (h : s.Inv) (x : Session) : State.Inv { sessionClear s with session := x } where
  doneIdle hdone := by simp at hdone
  openClean _ := ⟨rfl, rfl⟩
  noErrNoInfo _ := rfl
  accLowZero i _ := by simp
  decAcc _ := ⟨rfl, rfl⟩
  encWalk _ := rfl
  walkInternal _ hwalk := absurd rfl hwalk
  symqBound := Nat.zero_le _
  wordqBound := Nat.zero_le _
  outCntAccN _ _ := rfl
  nodeWf := h.nodeWf
  codeLenWf := h.codeLenWf
  codeBitsWf := h.codeBitsWf

theorem endSession (h : s.Inv) (hopen : s.session ≠ .idle) : (endSession s).Inv where
  doneIdle _ := ⟨rfl, (h.openClean hopen).1⟩
  openClean hopen := absurd rfl hopen
  noErrNoInfo := h.noErrNoInfo
  accLowZero := h.accLowZero
  decAcc hdec := by simp at hdec
  encWalk henc := by simp at henc
  walkInternal hdec := by simp at hdec
  symqBound := h.symqBound
  wordqBound := h.wordqBound
  outCntAccN henc := by simp at henc
  nodeWf := h.nodeWf
  codeLenWf := h.codeLenWf
  codeBitsWf := h.codeBitsWf

/-! ### ENC_SYM and ENC_END -/

/-- ENC_SYM counts as many output bits as it appends, so OUT_CNT and ACC_N stay in step while OUT_CNT has not
saturated. -/
theorem encodeSym (h : s.Inv) {c : Sym} (henc : s.session = .enc)
    (room : s.wordq.length + s.pushes (s.codeLength c) ≤ Config.wordqDepth) :
    State.Inv (countIn (appendBits s (s.codeOf c))) := by
  have hacc := (Accumulated.of_held s h.accLowZero).appendBits (s.codeOf c)
  have hlen : (leadingBits s.acc s.accN.toNat ++ s.codeOf c).length = s.accN.toNat + s.codeLength c := by
    simp [State.codeOf]
  have hopen : s.session ≠ .idle := by simp [henc]
  obtain ⟨herr, hinfo⟩ := h.openClean hopen
  exact {
    doneIdle := fun hdone => absurd (h.doneIdle (by simpa using hdone)).1 hopen
    openClean := fun _ => by simp [herr, hinfo]
    noErrNoInfo := fun _ => by simp [hinfo]
    accLowZero := hacc.accLowZero
    decAcc := fun hdec => by simp [henc] at hdec
    encWalk := fun _ => by simp [h.encWalk henc]
    walkInternal := fun hdec => by simp [henc] at hdec
    symqBound := by simpa using h.symqBound
    wordqBound := by
      rw [countIn_wordq, hacc.wordq, List.length_append, List.length_map, List.length_range, hlen]
      exact room
    outCntAccN := fun _ hsat => by
      have hcount := h.outCntAccN henc
      rw [countIn_outCnt, appendBits_outCnt, sat32_toNat] at hsat ⊢
      rw [countIn_accN, hacc.accN, hlen]
      simp only [State.codeOf, List.length_map, List.length_range, Config.cntMax] at hsat hcount ⊢
      omega
    nodeWf := by simpa using h.nodeWf
    codeLenWf := by simpa using h.codeLenWf
    codeBitsWf := by simpa using h.codeBitsWf }

theorem finishEncoding (h : s.Inv) (henc : s.session = .enc)
    (room : s.accN ≠ 0 → s.wordq.length ≠ Config.wordqDepth) :
    State.Inv (Machine.endSession (flushPartial s)) := by
  by_cases hheld : s.accN = 0
  · rw [flushPartial, if_pos hheld]
    exact h.endSession (by simp [henc])
  · have hbound := h.wordqBound
    have hroom := room hheld
    rw [flushPartial, if_neg hheld]
    exact { h.endSession (by simp [henc]) with
      accLowZero := fun i _ => by simp
      wordqBound := by
        simp only [endSession_wordq, pushWord_wordq, List.length_append, List.length_singleton]
        omega
      decAcc := fun hdec => by simp at hdec
      outCntAccN := fun henc => by simp at henc }

/-! ### DEC_BITS -/

theorem afterWalk (h : s.Inv) {bits : List Bool} (hdec : s.session = .dec)
    (room : s.symq.length + bits.length ≤ Config.symqDepth) : (afterWalk bits s).Inv :=
  { h with
    walkInternal := fun _ => walkStar_pos_internal (h.walkInternal hdec)
    symqBound := by
      have hsyms := walkStar_syms_length s.node bits s.walk
      simp only [Machine.afterWalk, List.length_append]
      omega
    encWalk := fun henc => by simp [Machine.afterWalk, hdec] at henc
    outCntAccN := fun henc => by simp [Machine.afterWalk, hdec] at henc }

/-! ### Table writes -/

theorem storeNode (h : s.Inv) (hidle : s.session = .idle) (i : NodeIndex) (v : Word) : (storeNode i v s).Inv :=
  { h with
    walkInternal := fun hdec => by simp [hidle] at hdec
    nodeWf := Memory.wf_write _ _ h.nodeWf i.isLt }

theorem storeCodeLen (h : s.Inv) (c : Sym) (v : Word) : (storeCodeLen c v s).Inv :=
  { h with codeLenWf := Memory.wf_write _ _ h.codeLenWf c.isLt }

theorem storeCodeBits (h : s.Inv) (c : Sym) (k : BitVec 3) (v : Word) : (storeCodeBits c k.toNat v s).Inv :=
  { h with codeBitsWf := Memory.wf_write _ _ h.codeBitsWf (codeBitsKey_lt c k) }

/-! ### Commands, accesses and events -/

theorem ofCommand (h : s.Inv) {i : Instr} {t : State} (ht : CommandEffect s i t) : t.Inv := by
  cases ht with
  | refused e info he => exact h.record he info
  | nop => exact h
  | clr => exact h.clear .idle
  | encStart => exact h.clear .enc
  | encSym c henc hlen room => exact h.encodeSym henc room
  | encEnd henc hin room => exact h.finishEncoding henc room
  | decStart => exact h.clear .dec
  | decBits n hdec h1 h32 room =>
    have hwalk := h.afterWalk (bits := s.dataBits n.toNat) hdec (by simpa [State.dataBits] using room)
    rcases settle_walkBits_cases (s.dataBits n.toNat) s with hr | ⟨e, info, he, hr⟩
    · rw [hr]
      exact hwalk
    · rw [hr]
      exact hwalk.record (by rcases he with rfl | rfl <;> simp) info
  | decEnd hdec => exact h.endSession (by simp [hdec])

theorem ofWrite (h : s.Inv) {off : Offset} {v : Word} {t : State} (ht : WriteEffect s off v t) : t.Inv := by
  cases ht with
  | ignored => exact h
  | data => exact h.setData v
  | illegal => exact h.record (by simp) v
  | command _ i _ _ he => exact h.ofCommand (exec_effect he)
  | locked => exact h.record (by simp) _
  | node hidle i => exact h.storeNode hidle i v
  | codeLen _ c => exact h.storeCodeLen c v
  | codeBits _ c k => exact h.storeCodeBits c k v

theorem ofAccess (h : s.Inv) {a : Access} {t : State} (ht : AccessEffect s a t) : t.Inv := by
  cases ht with
  | refused => exact h.reply _
  | read off _ u hu => exact (h.ofRead hu).reply _
  | write off _ v u hu => exact (h.ofWrite hu).reply _

/-- Reset meets the invariants, whatever the host still has to do (R46, R230). -/
theorem resetEvent (s : State) : (resetEvent s).Inv where
  doneIdle hdone := by simp [State.reset] at hdone
  openClean _ := ⟨rfl, rfl⟩
  noErrNoInfo _ := rfl
  accLowZero i _ := by simp [State.reset]
  decAcc _ := ⟨rfl, rfl⟩
  encWalk _ := rfl
  walkInternal _ hwalk := absurd rfl hwalk
  symqBound := Nat.zero_le _
  wordqBound := Nat.zero_le _
  outCntAccN _ _ := rfl
  nodeWf := ⟨.nil, by simp [State.reset]⟩
  codeLenWf := ⟨.nil, by simp [State.reset]⟩
  codeBitsWf := ⟨.nil, by simp [State.reset]⟩

theorem ofEvent (h : s.Inv) {e : BusEvent} {t : State} (ht : performEvent e s = .next t) : t.Inv := by
  obtain ⟨u, hu, hinv⟩ := performEvent_keep (P := State.Inv) (fun _ _ _ hs ha => hs.ofAccess (access_effect ha))
    (fun _ hs => hs.reply _) (fun s _ => resetEvent s) e s h
  obtain rfl := Host.Outcome.next.inj (hu.symm.trans ht)
  exact hinv

end State.Inv

/-! ### The obligations -/

/-- Settles O33: with no event pending nothing changes; an event is one of the updates above. -/
theorem stepKeepsTheInvariants : Obligations.StepKeepsTheInvariants := by
  unfold Obligations.StepKeepsTheInvariants
  intro s t h hstep
  rw [step] at hstep
  split at hstep
  · obtain rfl := Host.Outcome.next.inj hstep
    exact h
  · exact (h.setPending _).ofEvent hstep

/-- Settles O34: the reset state is what a reset event leaves of itself. -/
theorem resetHasTheInvariants : Obligations.ResetHasTheInvariants :=
  State.Inv.resetEvent State.reset

end Sys2Proof.Machine
end

section
/-! PROOFS. Commands (R120 to R124, R143 to R146, R173): what each leaves in each of its cases, as equations for its
pseudocode, and the obligations that are read from them. -/

namespace Sys2Proof.Machine

/-! ### Dispatch, CLR and the counters -/

/-- Settles O25: the matrix is evaluated at each session state, and where it says no only `record` runs. -/
theorem commandsOutOfSessionAreRefused : Obligations.CommandsOutOfSessionAreRefused := by
  unfold Obligations.CommandsOutOfSessionAreRefused
  refine ⟨fun x c n => ?matrix, fun i s h => exec_not_allowed h⟩
  case matrix => simp [allowed]

/-- Settles O36: CLR is allowed always and is `session_clear()` and the end of the session. -/
theorem clrClearsTheSessionState : Obligations.ClrClearsTheSessionState := by
  unfold Obligations.ClrClearsTheSessionState
  exact ⟨by decide, fun s => exec_allowed rfl⟩

/-- Settles O39: a count step is `sat32` of the next number. -/
theorem countersSaturate : Obligations.CountersSaturate := by
  unfold Obligations.CountersSaturate
  refine ⟨sat32_toNat, fun x => ⟨fun hx => ?below, ?atCap⟩⟩
  case below =>
    have hlt := x.isLt
    have hne : x.toNat ≠ 0xFFFFFFFF := fun h => hx (BitVec.eq_of_toNat_eq h)
    rw [satInc_eq, sat32_toNat]
    simp only [Config.cntMax]
    omega
  case atCap =>
    rintro rfl
    decide

/-! ### ENC_SYM (R145) -/

section
variable {c : Sym} {s : State}

theorem exec_encSym_of_enc (h : s.session = .enc) :
    exec (.encSym c) s = .next (encodeSymbol c (encode (.encSym c)) s).settle :=
  exec_allowed (i := .encSym c) (beq_iff_eq.mpr h)

theorem encodeSymbol_of_no_code (h : s.codeLength c = 0) (w : Word) :
    encodeSymbol c w s = .raised s .unknownSymbol (zext32 c) :=
  if_pos h

variable (hcode : s.codeLength c ≠ 0)
include hcode

theorem encodeSymbol_of_no_room (h : Config.wordqDepth < s.wordq.length + s.pushes (s.codeLength c)) (w : Word) :
    encodeSymbol c w s = .raised s .overflow w := by
  rw [encodeSymbol, if_neg hcode, if_pos h]

theorem encodeSymbol_of_room (h : s.wordq.length + s.pushes (s.codeLength c) ≤ Config.wordqDepth) (w : Word) :
    encodeSymbol c w s = .completed (countIn (appendBits s (s.codeOf c))) := by
  rw [encodeSymbol, if_neg hcode, if_neg (Nat.not_lt.mpr h)]

end

@[simp] theorem codeOf_length (s : State) (c : Sym) : (s.codeOf c).length = s.codeLength c := by
  simp [State.codeOf]

/-- Settles O41: the two raising cases of ENC_SYM. -/
theorem encSymErrors : Obligations.EncSymErrors := by
  unfold Obligations.EncSymErrors
  intro c s henc
  refine ⟨fun hlen => ?noCode, fun hlen hroom => ?noRoom⟩
  case noCode => rw [exec_encSym_of_enc henc, encodeSymbol_of_no_code hlen, settle_raised, zext32]
  case noRoom => rw [exec_encSym_of_enc henc, encodeSymbol_of_no_room hlen hroom, settle_raised, encode_encSym]

/-- Settles O40: the completing case of ENC_SYM, with the appended bits in closed form (`appendBits_eq`). -/
theorem encSymAppendsTheCode : Obligations.EncSymAppendsTheCode := by
  unfold Obligations.EncSymAppendsTheCode
  refine ⟨fun c s => ⟨rfl, rfl⟩, fun c s henc hcode room hlow => ?_⟩
  rw [exec_encSym_of_enc henc, encodeSymbol_of_room hcode room, settle_completed, appendBits_eq s _ hlow,
    codeOf_length]
  rfl

theorem appendBit_wordq_length (s : State) (b : Bool) :
    (appendBit s b).wordq.length * 32 + (appendBit s b).accN.toNat = s.wordq.length * 32 + s.accN.toNat + 1 := by
  rw [appendBit]
  split
  next hfull =>
    have h31 : (31 : BitVec 5).toNat = 31 := rfl
    have h0 : (0 : BitVec 5).toNat = 0 := rfl
    simp only [hfull, h31, h0, pushWord_wordq, countOut_wordq, List.length_append,
      List.length_singleton]
    omega
  next hfull =>
    have hlt := s.accN.isLt
    have hne : s.accN.toNat ≠ 31 := fun h => hfull (BitVec.eq_of_toNat_eq h)
    have h1 : (1 : BitVec 5).toNat = 1 := rfl
    simp only [countOut_wordq, BitVec.toNat_add, h1]
    omega

/-- Appended bits are in WORDQ and ACC together, whatever ACC's unused bits are (R142, R143). -/
theorem appendBits_wordq_length (bits : List Bool) (s : State) :
    (appendBits s bits).wordq.length * 32 + (appendBits s bits).accN.toNat =
      s.wordq.length * 32 + s.accN.toNat + bits.length := by
  induction bits generalizing s with
  | nil => rfl
  | cons b bs ih =>
    rw [appendBits_cons, ih, appendBit_wordq_length, List.length_cons]
    omega

/-- Settles O42: the bits appended fill whole words of WORDQ and less than one word of ACC. -/
theorem encSymPushes : Obligations.EncSymPushes := by
  unfold Obligations.EncSymPushes
  intro c s t henc hcode room hexec
  rw [exec_encSym_of_enc henc, encodeSymbol_of_room hcode room, settle_completed] at hexec
  obtain rfl := Host.Outcome.next.inj hexec
  have hbits := appendBits_wordq_length (s.codeOf c) s
  have hheld := s.accN.isLt
  have hheld' := (appendBits s (s.codeOf c)).accN.isLt
  have hlen : s.codeLength c < 256 := BitVec.isLt _
  rw [codeOf_length] at hbits
  rw [countIn_wordq]
  omega

/-! ### ENC_END (R146) -/

section
variable {s : State}

theorem exec_encEnd_of_enc (h : s.session = .enc) :
    exec .encEnd s = .next (finishEncoding (encode .encEnd) s).settle :=
  exec_allowed (i := .encEnd) (beq_iff_eq.mpr h)

theorem finishEncoding_of_empty (h : s.inCnt = 0) (w : Word) :
    finishEncoding w s = .raised s .emptyInput 0 :=
  if_pos h

variable (hin : s.inCnt ≠ 0)
include hin

theorem finishEncoding_of_no_room (h : s.accN ≠ 0 ∧ s.wordq.length = Config.wordqDepth) (w : Word) :
    finishEncoding w s = .raised s .overflow w := by
  rw [finishEncoding, if_neg hin, if_pos h]

theorem finishEncoding_of_room (h : s.accN ≠ 0 → s.wordq.length ≠ Config.wordqDepth) (w : Word) :
    finishEncoding w s = .completed (endSession (flushPartial s)) := by
  rw [finishEncoding, if_neg hin, if_neg (not_and.mpr h)]

end

/-- Settles O44: the two raising cases of ENC_END. -/
theorem encEndErrors : Obligations.EncEndErrors := by
  unfold Obligations.EncEndErrors
  intro s henc
  refine ⟨fun hin => ?empty, fun hin hheld hfull => ?noRoom⟩
  case empty => rw [exec_encEnd_of_enc henc, finishEncoding_of_empty hin, settle_raised]
  case noRoom =>
    rw [exec_encEnd_of_enc henc, finishEncoding_of_no_room hin ⟨hheld, hfull⟩, settle_raised]
    rfl

/-- Settles O43: the completing case of ENC_END. -/
theorem encEndFinishesTheSession : Obligations.EncEndFinishesTheSession := by
  unfold Obligations.EncEndFinishesTheSession
  intro s henc hin room
  rw [exec_encEnd_of_enc henc, finishEncoding_of_room hin room, settle_completed, flushPartial]
  by_cases hheld : s.accN = 0
  · rw [if_pos hheld, if_pos hheld, endSession]
  · rw [if_neg hheld, if_neg hheld, endSession, pushWord]

/-! ### DEC_BITS (R173) -/

section
variable {n : BitVec 6} {s : State}

theorem exec_decBits_of_dec (h : s.session = .dec) :
    exec (.decBits n) s = .next (consumeBits n.toNat (encode (.decBits n)) s).settle :=
  exec_allowed (i := .decBits n) (beq_iff_eq.mpr h)

end

section
variable {n : Nat} {s : State}

theorem consumeBits_of_bad_count (h : n = 0 ∨ Config.nMax < n) (w : Word) :
    consumeBits n w s = .raised s .badArg w :=
  if_pos h

variable (hlo : 1 ≤ n) (hhi : n ≤ Config.nMax)
include hlo hhi

theorem consumeBits_of_no_room (h : Config.symqDepth < s.symq.length + n) (w : Word) :
    consumeBits n w s = .raised s .overflow w := by
  rw [consumeBits, if_neg (by omega), if_pos h]

theorem consumeBits_of_room (h : s.symq.length + n ≤ Config.symqDepth) (w : Word) :
    consumeBits n w s = walkBits (s.dataBits n) s := by
  rw [consumeBits, if_neg (by omega), if_neg (by omega)]

end

/-- A DEC_BITS that may walk leaves the walk's effects and records its error (R173, R203). -/
theorem exec_decBits_of_room {n : BitVec 6} {s : State} (hdec : s.session = .dec) (hlo : 1 ≤ n.toNat)
    (hhi : n.toNat ≤ Config.nMax) (room : s.symq.length + n.toNat ≤ Config.symqDepth) :
    exec (.decBits n) s = .next
      (recordRaised (walkStar s.node s.walk (s.dataBits n.toNat)).raised (afterWalk (s.dataBits n.toNat) s)) := by
  rw [exec_decBits_of_dec hdec, consumeBits_of_room hlo hhi room, settle_walkBits]

/-- Settles O49: the two raising cases of DEC_BITS. -/
theorem decBitsErrors : Obligations.DecBitsErrors := by
  unfold Obligations.DecBitsErrors
  intro n s hdec
  refine ⟨fun hn => ?badArg, fun hlo hhi room => ?noRoom⟩
  case badArg => rw [exec_decBits_of_dec hdec, consumeBits_of_bad_count hn, settle_raised, encode_decBits]
  case noRoom => rw [exec_decBits_of_dec hdec, consumeBits_of_no_room hlo hhi room, settle_raised, encode_decBits]

/-- Settles O48: `walk*` by one walk step (`walkStep_eq`), and the walking case of DEC_BITS. -/
theorem decBitsWalksTheBits : Obligations.DecBitsWalksTheBits := by
  unfold Obligations.DecBitsWalksTheBits
  refine ⟨fun s => ⟨rfl, fun b bs => ?step⟩, fun n s hdec hlo hhi room => ?walk⟩
  case step =>
    rw [walkStar, walkStep_eq]
    rcases branch s.node s.walk b with ⟨e, info⟩ | ⟨next, out⟩
    · rfl
    · simp
  case walk =>
    rw [exec_decBits_of_room hdec hlo hhi room]
    rfl

/-! ### A piece split over two DEC_BITS (R175) -/

theorem leadingBits_add (w : Word) {n m : Nat} (h : n + m ≤ 32) :
    leadingBits w (n + m) = leadingBits w n ++ leadingBits (w <<< n) m := by
  simp only [leadingBits, List.range_add, List.map_append, List.map_map]
  refine congrArg _ (List.map_congr_left fun i hi => ?_)
  have hi := List.mem_range.mp hi
  have hshift : 31 - i - n = 31 - (n + i) := by omega
  simp only [Function.comp_apply, BitVec.getLsbD_shiftLeft, hshift, Bool.eq_and_self, Bool.and_eq_true,
    decide_eq_true_eq, Bool.not_eq_eq_eq_not, Bool.not_true, decide_eq_false_iff_not, not_lt]
  omega

/-- A state that has recorded an error keeps it and stays as it is at every later one (R201). -/
theorem record_of_recorded {s : State} (hidle : s.session = .idle) (hdone : s.done = false) (herr : s.err ≠ .none)
    (e : ErrCode) (v : Word) : record e v s = s := by
  rw [record, if_neg herr, if_neg herr, ← hidle, ← hdone]

section
variable (p q : List Bool) (s : State)

theorem walkStar_append_of_raised {m : Memory} {pos : NodeIndex} {error : ErrCode × Word}
    (h : (walkStar m pos p).raised = some error) : walkStar m pos (p ++ q) = walkStar m pos p := by
  rw [walkStar_append]
  simp only [h]

theorem walkStar_append_of_not_raised {m : Memory} {pos : NodeIndex} (h : (walkStar m pos p).raised = none) :
    walkStar m pos (p ++ q) =
      ⟨(walkStar m pos p).syms ++ (walkStar m (walkStar m pos p).pos q).syms,
        (walkStar m (walkStar m pos p).pos q).pos,
        (walkStar m pos p).walked + (walkStar m (walkStar m pos p).pos q).walked,
        (walkStar m (walkStar m pos p).pos q).raised⟩ := by
  rw [walkStar_append]
  simp only [h]

/-- After a piece whose walk raised nothing, the next one is walked on from there. -/
theorem afterWalk_append_of_not_raised (h : (walkStar s.node s.walk p).raised = none) :
    afterWalk (p ++ q) s = afterWalk q (afterWalk p s) := by
  simp only [afterWalk, walkStar_append_of_not_raised p q h, List.append_assoc, List.length_append, sat32_sat32_add]

theorem afterWalk_append_of_raised {error : ErrCode × Word} (h : (walkStar s.node s.walk p).raised = some error) :
    afterWalk (p ++ q) s = afterWalk p s := by
  simp only [afterWalk, walkStar_append_of_raised p q h]

end

theorem afterWalk_symq_length_le (bits : List Bool) (s : State) :
    (afterWalk bits s).symq.length ≤ s.symq.length + bits.length := by
  have h := walkStar_syms_length s.node bits s.walk
  simp only [afterWalk, List.length_append]
  omega

@[simp] theorem dataBits_length (s : State) (n : Nat) : (s.dataBits n).length = n := by
  simp [State.dataBits]

section
variable {n m : BitVec 6} {s u : State} (hdec : s.session = .dec) (hm : 1 ≤ m.toNat) (v : Word)
include hdec hm

/-- After a walk that raised nothing, DEC_BITS on new DATA walks on (R173). -/
theorem decBits_after_walk {bits : List Bool} (hm32 : m.toNat ≤ Config.nMax)
    (room : s.symq.length + (bits.length + m.toNat) ≤ Config.symqDepth)
    (h : exec (.decBits m) { afterWalk bits s with data := v } = .next u) :
    { u with data := s.data } =
      recordRaised (walkStar s.node (walkStar s.node s.walk bits).pos (leadingBits v m.toNat)).raised
        (afterWalk (leadingBits v m.toNat) (afterWalk bits s)) := by
  have hlen := afterWalk_symq_length_le bits s
  rw [exec_decBits_of_room (s := { afterWalk bits s with data := v }) hdec hm hm32
    (by simp only [Config.symqDepth] at room ⊢; omega)] at h
  obtain rfl := Host.Outcome.next.inj h
  simp only [State.dataBits, afterWalk]
  rcases (walkStar s.node (walkStar s.node s.walk bits).pos (leadingBits v m.toNat)).raised with _ | ⟨e, info⟩
  · rfl
  · rfl

end

/-- After a walk that raised an error, DEC_BITS on new DATA is refused and changes nothing (R201). -/
theorem decBits_after_raise {m : BitVec 6} {s u : State} {e : ErrCode} (he : e ≠ .none) (info v : Word)
    (h : exec (.decBits m) { record e info s with data := v } = .next u) :
    { u with data := s.data } = record e info s := by
  have herr : (record e info s).err ≠ .none := by
    rw [record_err]
    split
    · exact he
    · assumption
  rw [exec_not_allowed (s := { record e info s with data := v }) rfl,
    record_of_recorded (s := { record e info s with data := v }) rfl rfl herr] at h
  obtain rfl := Host.Outcome.next.inj h
  rfl

/-- Settles O51: the bits of the one DEC_BITS are those of the two; after a raise the second one finds the session
ended and the error recorded, and changes nothing. -/
theorem splittingDecBitsIsInvisible : Obligations.SplittingDecBitsIsInvisible := by
  unfold Obligations.SplittingDecBitsIsInvisible
  intro n m s t u hdec hn hm hsum room hfirst hsecond
  have hnm : (n + m).toNat = n.toNat + m.toNat := by
    rw [BitVec.toNat_add]
    omega
  have hbits : s.dataBits (n + m).toNat =
      s.dataBits n.toNat ++ leadingBits (s.data <<< n.toNat) m.toNat := by
    rw [hnm, State.dataBits, leadingBits_add _ hsum, State.dataBits]
  rw [exec_decBits_of_room hdec hn (by simp only [Config.nMax]; omega) (by simp only [Config.symqDepth]; omega)]
    at hfirst
  rw [exec_decBits_of_room hdec (by omega) (by simp only [Config.nMax]; omega)
    (by simp only [Config.symqDepth]; omega), hbits]
  obtain rfl := Host.Outcome.next.inj hfirst
  rcases hr : (walkStar s.node s.walk (s.dataBits n.toNat)).raised with _ | ⟨e, info⟩
  case none =>
    rw [hr, recordRaised] at hsecond
    rw [walkStar_append_of_not_raised _ _ hr, afterWalk_append_of_not_raised _ _ _ hr,
      decBits_after_walk hdec hm _ (by simp only [Config.nMax]; omega) (by rwa [dataBits_length]) hsecond]
  case some =>
    have he : e ≠ .none := by rcases walkStar_raised hr with rfl | rfl <;> simp
    rw [hr, recordRaised] at hsecond
    have hkept := decBits_after_raise he info _ hsecond
    rw [walkStar_append_of_raised _ _ hr, afterWalk_append_of_raised _ _ _ hr, hr, recordRaised]
    exact congrArg _ hkept.symm

end Sys2Proof.Machine
end

section
/-! PROOFS. Steps and events: every event completes (R5), the two rules of a burst (R62), and that the events behind
the next one are not looked at. -/

namespace Sys2Proof.Machine

/-! ### Every event completes -/

theorem performEvent_next (e : BusEvent) (s : State) : ∃ t, performEvent e s = .next t := by
  obtain ⟨t, ht, -⟩ := performEvent_keep (P := fun _ => True) (fun _ _ _ _ _ => trivial) (fun _ _ => trivial)
    (fun _ _ => trivial) e s trivial
  exact ⟨t, ht⟩

/-- Settles O10: with an event pending the step performs it, and every event completes. -/
theorem everyStepAnswersANextState : Obligations.EveryStepAnswersANextState := by
  unfold Obligations.EveryStepAnswersANextState
  intro s
  rw [step]
  split
  · exact ⟨s, rfl⟩
  · exact performEvent_next _ _

/-- Settles O8: the two cases of `step`. -/
theorem stepPerformsTheNextEvent : Obligations.StepPerformsTheNextEvent := by
  unfold Obligations.StepPerformsTheNextEvent
  refine ⟨fun s h => ?_, fun s e rest h => ?_⟩
  · rw [step, h]
  · rw [step, h]

/-! ### Bursts -/

/-- Accesses in order are events in order (R69). -/
theorem performEvents_map_access (as : List Access) (s : State) :
    performEvents (as.map .access) s = performAccesses as s := by
  induction as generalizing s with
  | nil => rfl
  | cons a as ih =>
    rw [List.map_cons, performEvents, performAccesses, funext ih, performEvent]

/-- Settles O11: a burst that is admitted is its accesses in order. -/
theorem admittedBurstIsItsAccesses : Obligations.AdmittedBurstIsItsAccesses := by
  unfold Obligations.AdmittedBurstIsItsAccesses
  intro beats s h
  rw [performEvents_map_access, performEvent, if_pos (List.all_eq_true.mpr h)]

theorem performAccess_of_not_admitted {a : Access} (h : a.admitted = false) (s : State) :
    performAccess a s = .next (reply .busError s) :=
  if_neg (by simp [h])

/-- A burst with an access that is not admitted is refused whole (R62). -/
theorem performEvent_of_refused_burst {beats : List Access} (h : beats.all Access.admitted = false) (s : State) :
    performEvent (.burst beats) s = .next (reply .busError s) :=
  if_neg (by simp [h])

/-- Settles O12: `admitted` is R62's condition, and what it refuses gets a bus error and no more. -/
theorem refusedAccessChangesNothing : Obligations.RefusedAccessChangesNothing := by
  unfold Obligations.RefusedAccessChangesNothing
  refine ⟨fun _ _ => admitted_eq_true, fun off size s h => ?read, fun off size v s h => ?write,
    fun beats s h => ?burst, rfl⟩
  case read => exact performAccess_of_not_admitted (Bool.not_eq_true _ ▸ mt admitted_eq_true.mp h) s
  case write => exact performAccess_of_not_admitted (Bool.not_eq_true _ ▸ mt admitted_eq_true.mp h) s
  case burst => exact performEvent_of_refused_burst (by simpa using h) s

/-! ### Admitted accesses (R64, R65) -/

section
variable {off : Offset} (h4 : off.toNat % 4 = 0) (s : State)
include h4

theorem performAccess_read :
    performAccess (.read 4 off) s = .next (reply (.data (memRead off s).1) (memRead off s).2) :=
  if_pos (admitted_eq_true.mpr ⟨rfl, h4⟩)

theorem performAccess_write (v : Word) :
    performAccess (.write 4 off v) s = andThen (memWrite off v s) fun t => .next (reply .done t) :=
  if_pos (admitted_eq_true.mpr ⟨rfl, h4⟩)

end

/-! ### The write of a command -/

theorem performAccess_write_cmd_of_decode {w : Word} {i : Instr} (h : decode w = .ok i) (s : State) :
    performAccess (.write 4 cmdOffset w) s = andThen (exec i s) fun t => .next (reply .done t) := by
  rw [performAccess_write_reg (r := .cmd) (by decide) (by decide), writeReg, execute, h]

theorem performAccess_commandWrite (i : Instr) (s : State) :
    performAccess (commandWrite i) s = andThen (exec i s) fun t => .next (reply .done t) :=
  performAccess_write_cmd_of_decode (decode_encode i) s

/-- Settles O6: a CMD write executes its word (R65, R120). -/
theorem stepRunsTheDecodedCommand : Obligations.StepRunsTheDecodedCommand := by
  unfold Obligations.StepRunsTheDecodedCommand
  intro s w i rest hpending hdecode
  rw [step, hpending]
  exact performAccess_write_cmd_of_decode hdecode _

theorem decode_of_decodeTableWord {nbits w : Nat} {i : Instr} (h : decodeTableWord nbits w = some i) :
    decode (BitVec.ofNat 32 (w % 2 ^ nbits)) = .ok i := by
  rw [decodeTableWord] at h
  split at h
  · simp_all
  · simp at h

/-- Settles O7: `withFetchWord` puts the write of the word first among the events. -/
theorem fetchedWordRunsNext : Obligations.FetchedWordRunsNext := by
  unfold Obligations.FetchedWordRunsNext
  intro s w i h
  exact stepRunsTheDecodedCommand _ _ i s.pending rfl (decode_of_decodeTableWord h)

/-! ### The reads that pop a queue (R41, R42) -/

section
variable {s : State}

theorem readSymOut_of_empty (h : s.symq = []) : readSymOut s = (0, s) := by
  rw [readSymOut, h]

theorem readSymOut_of_cons {c : Sym} {q : List Sym} (h : s.symq = c :: q) :
    readSymOut s = (0x80000000 ||| zext32 c, { s with symq := q }) := by
  rw [readSymOut, h]

theorem readWordOut_of_empty (h : s.wordq = []) : readWordOut s = (0, s) := by
  rw [readWordOut, h]

theorem readWordOut_of_cons {w : Word} {q : List Word} (h : s.wordq = w :: q) :
    readWordOut s = (w, { s with wordq := q }) := by
  rw [readWordOut, h]

end

/-- Settles O15: one equation of `readReg` per register; the queues' heads are the two reads above. -/
theorem registerReads : Obligations.RegisterReads := by
  unfold Obligations.RegisterReads
  intro s
  have hread (r : Reg) (off : Offset) (h : off.toNat % 4 = 0 ∧ region off = .reg r) :
      performAccess (.read 4 off) s = .next (reply (.data (readReg r s).1) (readReg r s).2) :=
    performAccess_read_reg h.1 h.2 s
  have hsym := hread .symOut 0x014 (by decide)
  have hword := hread .wordOut 0x018 (by decide)
  dsimp only [readReg] at hsym hword
  refine ⟨hread .params _ (by decide), hread .cmd _ (by decide), hread .data _ (by decide),
    hread .status _ (by decide), hread .fifoStatus _ (by decide), fun hq => ?symEmpty, fun c q hq => ?sym,
    fun hq => ?wordEmpty, fun w q hq => ?word, hread .inCnt _ (by decide), hread .outCnt _ (by decide),
    hread .acc _ (by decide), hread .errInfo _ (by decide)⟩
  case symEmpty => rw [hsym, readSymOut_of_empty hq]
  case sym => rw [hsym, readSymOut_of_cons hq, bit31_or_zext32 c (by decide)]
  case wordEmpty => rw [hword, readWordOut_of_empty hq]
  case word => rw [hword, readWordOut_of_cons hq]

/-! ### The events still to come -/

/-- The state with other events still to come. -/
def State.withPending (p : List BusEvent) (s : State) : State := { s with pending := p }

/-- Take another state behind an outcome. -/
def mapNext (f : State → State) (o : Host.Outcome State Fault Refusal) : Host.Outcome State Fault Refusal :=
  andThen o fun t => .next (f t)

@[simp] theorem mapNext_next (f : State → State) (s : State) : mapNext f (.next s) = .next (f s) := rfl

section
variable (p : List BusEvent)

theorem appendBit_withPending (s : State) (b : Bool) :
    appendBit (s.withPending p) b = (appendBit s b).withPending p := by
  by_cases hfull : s.accN = 31
  · have hfull' : (s.withPending p).accN = 31 := hfull
    simp only [appendBit, if_pos hfull, if_pos hfull']
    rfl
  · have hfull' : (s.withPending p).accN ≠ 31 := hfull
    simp only [appendBit, if_neg hfull, if_neg hfull']
    rfl

theorem appendBits_withPending (s : State) (bits : List Bool) :
    appendBits (s.withPending p) bits = (appendBits s bits).withPending p := by
  induction bits generalizing s with
  | nil => rfl
  | cons b bs ih => rw [appendBits_cons, appendBit_withPending, ih, appendBits_cons]

theorem flushPartial_withPending (s : State) : flushPartial (s.withPending p) = (flushPartial s).withPending p := by
  by_cases hheld : s.accN = 0
  · rw [flushPartial, flushPartial, if_pos hheld, if_pos (show (s.withPending p).accN = 0 from hheld)]
  · rw [flushPartial, flushPartial, if_neg hheld, if_neg (show (s.withPending p).accN ≠ 0 from hheld)]
    rfl

theorem settle_walkBits_withPending (bits : List Bool) (s : State) :
    (walkBits bits (s.withPending p)).settle = (walkBits bits s).settle.withPending p := by
  rw [settle_walkBits, settle_walkBits]
  rcases hr : (walkStar s.node s.walk bits).raised with _ | ⟨e, info⟩
  all_goals
    simp only [State.withPending, hr]
    rfl

/-- A command does not look at the events to come: case by case of its pseudocode. -/
theorem settle_pseudocode_withPending (i : Instr) (w : Word) (s : State) :
    (pseudocode i w (s.withPending p)).settle = (pseudocode i w s).settle.withPending p := by
  cases i with
  | encSym c =>
    simp only [pseudocode]
    by_cases hcode : s.codeLength c = 0
    · rw [encodeSymbol_of_no_code hcode, encodeSymbol_of_no_code (s := s.withPending p) hcode]
      rfl
    by_cases room : s.wordq.length + s.pushes (s.codeLength c) ≤ Config.wordqDepth
    · rw [encodeSymbol_of_room hcode room, encodeSymbol_of_room (s := s.withPending p) hcode room,
        settle_completed, settle_completed, appendBits_withPending]
      rfl
    · have full := Nat.not_le.mp room
      rw [encodeSymbol_of_no_room hcode full, encodeSymbol_of_no_room (s := s.withPending p) hcode full]
      rfl
  | encEnd =>
    simp only [pseudocode]
    by_cases hin : s.inCnt = 0
    · rw [finishEncoding_of_empty hin, finishEncoding_of_empty (s := s.withPending p) hin]
      rfl
    by_cases full : s.accN ≠ 0 ∧ s.wordq.length = Config.wordqDepth
    · rw [finishEncoding_of_no_room hin full, finishEncoding_of_no_room (s := s.withPending p) hin full]
      rfl
    · have room := not_and.mp full
      rw [finishEncoding_of_room hin room, finishEncoding_of_room (s := s.withPending p) hin room,
        settle_completed, settle_completed, flushPartial_withPending]
      rfl
  | decBits n =>
    simp only [pseudocode]
    by_cases bad : n.toNat = 0 ∨ Config.nMax < n.toNat
    · rw [consumeBits_of_bad_count bad, consumeBits_of_bad_count bad]
      rfl
    have hlo : 1 ≤ n.toNat := by omega
    have hhi : n.toNat ≤ Config.nMax := by omega
    by_cases room : s.symq.length + n.toNat ≤ Config.symqDepth
    · rw [consumeBits_of_room hlo hhi room, consumeBits_of_room (s := s.withPending p) hlo hhi room]
      exact settle_walkBits_withPending p _ s
    · have full := Nat.not_le.mp room
      rw [consumeBits_of_no_room hlo hhi full, consumeBits_of_no_room (s := s.withPending p) hlo hhi full]
      rfl
  | decEnd =>
    simp only [pseudocode]
    by_cases hroot : s.walk = 0
    · rw [finishDecoding_of_root hroot, finishDecoding_of_root (s := s.withPending p) hroot]
      rfl
    · rw [finishDecoding_of_midPath hroot, finishDecoding_of_midPath (s := s.withPending p) hroot]
      rfl
  | _ => rfl

theorem exec_withPending (i : Instr) (s : State) :
    exec i (s.withPending p) = mapNext (State.withPending p) (exec i s) := by
  by_cases ha : allowed i s.session = true
  · rw [exec_allowed ha, exec_allowed (s := s.withPending p) ha, settle_pseudocode_withPending, mapNext_next]
  · have hno := Bool.not_eq_true _ ▸ ha
    rw [exec_not_allowed hno, exec_not_allowed (s := s.withPending p) hno, mapNext_next]
    rfl

theorem memRead_withPending (off : Offset) (s : State) :
    memRead off (s.withPending p) = ((memRead off s).1, (memRead off s).2.withPending p) := by
  unfold memRead
  rcases region off with r | i | c | ⟨c, k⟩ | _
  · cases r with
    | symOut =>
      dsimp only [readReg]
      rcases hq : s.symq with _ | ⟨c, q⟩
      · rw [readSymOut_of_empty hq, readSymOut_of_empty (s := s.withPending p) hq]
      · rw [readSymOut_of_cons hq, readSymOut_of_cons (s := s.withPending p) hq]
        rfl
    | wordOut =>
      dsimp only [readReg]
      rcases hq : s.wordq with _ | ⟨w, q⟩
      · rw [readWordOut_of_empty hq, readWordOut_of_empty (s := s.withPending p) hq]
      · rw [readWordOut_of_cons hq, readWordOut_of_cons (s := s.withPending p) hq]
        rfl
    | _ => rfl
  all_goals rfl

theorem tableWrite_of_idle {s : State} (h : s.session = .idle) (store : State → State) (off : Offset) :
    tableWrite store off s = store s :=
  if_pos h

theorem tableWrite_of_open {s : State} (h : s.session ≠ .idle) (store : State → State) (off : Offset) :
    tableWrite store off s = record .tableLocked (zext32 off) s :=
  if_neg h

theorem tableWrite_withPending {store : State → State}
    (hstore : ∀ s, store (s.withPending p) = (store s).withPending p) (off : Offset) (s : State) :
    tableWrite store off (s.withPending p) = (tableWrite store off s).withPending p := by
  by_cases hidle : s.session = .idle
  · rw [tableWrite_of_idle hidle, tableWrite_of_idle (s := s.withPending p) hidle, hstore]
  · rw [tableWrite_of_open hidle, tableWrite_of_open (s := s.withPending p) hidle]
    rfl

theorem memWrite_withPending (off : Offset) (v : Word) (s : State) :
    memWrite off v (s.withPending p) = mapNext (State.withPending p) (memWrite off v s) := by
  unfold memWrite
  rcases region off with r | i | c | ⟨c, k⟩ | _
  · cases r with
    | cmd =>
      simp only [writeReg, execute]
      rcases decode v with why | i
      · rfl
      · exact exec_withPending p i s
    | _ => rfl
  · exact congrArg Host.Outcome.next (tableWrite_withPending p (store := storeNode i v) (fun _ => rfl) off s)
  · exact congrArg Host.Outcome.next (tableWrite_withPending p (store := storeCodeLen c v) (fun _ => rfl) off s)
  · exact congrArg Host.Outcome.next
      (tableWrite_withPending p (store := storeCodeBits c k.toNat v) (fun _ => rfl) off s)
  · rfl

theorem performAccess_withPending (a : Access) (s : State) :
    performAccess a (s.withPending p) = mapNext (State.withPending p) (performAccess a s) := by
  rcases ha : a.admitted with _ | _
  · rw [performAccess_of_not_admitted ha, performAccess_of_not_admitted ha]
    rfl
  cases a with
  | read size off =>
    obtain ⟨rfl, h4⟩ := admitted_eq_true.mp ha
    rw [performAccess_read h4, performAccess_read h4, memRead_withPending]
    rfl
  | write size off v =>
    obtain ⟨rfl, h4⟩ := admitted_eq_true.mp ha
    obtain ⟨t, ht, -⟩ := memWrite_effect off v s
    rw [performAccess_write h4, performAccess_write h4, memWrite_withPending, ht]
    rfl

theorem performAccesses_withPending (as : List Access) (s : State) :
    performAccesses as (s.withPending p) = mapNext (State.withPending p) (performAccesses as s) := by
  induction as generalizing s with
  | nil => rfl
  | cons a as ih =>
    obtain ⟨t, ht, -⟩ := performAccess_effect a s
    rw [performAccesses, performAccesses, performAccess_withPending, ht, mapNext_next, andThen_next, andThen_next, ih]

theorem performEvent_withPending (e : BusEvent) (s : State) :
    performEvent e (s.withPending p) = mapNext (State.withPending p) (performEvent e s) := by
  cases e with
  | access a => exact performAccess_withPending p a s
  | burst beats =>
    by_cases hall : beats.all Access.admitted = true
    · simp only [performEvent, if_pos hall]
      exact performAccesses_withPending p beats s
    · simp only [performEvent, if_neg hall]
      rfl
  | reset => rfl

end

theorem core_run_succ {s t : State} (h : step s = .next t) (k : Nat) : core.run (k + 1) s = core.run k t := by
  have hstep : core.step s = .next t := h
  simp only [Host.Core.run, hstep]

/-- Settles O9: the events still to come travel along unseen while the first one is performed. -/
theorem runPerformsTheEventsInOrder : Obligations.RunPerformsTheEventsInOrder := by
  unfold Obligations.RunPerformsTheEventsInOrder
  intro events rest s
  induction events generalizing s with
  | nil => rfl
  | cons e events ih =>
    obtain ⟨t, ht⟩ := performEvent_next e s
    have hperform (p : List BusEvent) : performEvent e (s.withPending p) = .next (t.withPending p) := by
      rw [performEvent_withPending, ht, mapNext_next]
    have hstep : step (s.withPending (e :: (events ++ rest))) = .next (t.withPending (events ++ rest)) :=
      hperform (events ++ rest)
    have hevents : performEvents (e :: events) (s.withPending rest) = performEvents events (t.withPending rest) := by
      rw [performEvents, hperform, andThen_next]
    exact (core_run_succ hstep events.length).trans ((ih t).trans hevents.symm)

end Sys2Proof.Machine
end

section
/-! PROOFS. The window and the tables: addresses (R60), reads (R64), table writes in and out of IDLE (R66), and what
else leaves the tables and DATA alone (R22, R75). -/

namespace Sys2Proof.Machine

/-! ### Addresses (R60) -/

theorem offsetAt_eq_none_iff (address : Nat) :
    offsetAt address = none ↔ address < Config.base ∨ Config.base + Config.winSize ≤ address := by
  rw [offsetAt, ite_eq_right_iff]
  simp only [reduceCtorEq, imp_false, not_and, not_lt]
  omega

theorem offsetAt_addressOf (off : Offset) : offsetAt (addressOf off) = some off := by
  have hoff := off.isLt
  rw [offsetAt, addressOf, if_pos ⟨by omega, by simp only [Config.winSize]; omega⟩, Nat.add_sub_cancel_left,
    BitVec.ofNat_toNat, BitVec.setWidth_eq]

/-- Settles O13: BASE is a whole number of windows, and `offsetAt` is the subtraction of BASE within one window. -/
theorem windowAddresses : Obligations.WindowAddresses := by
  unfold Obligations.WindowAddresses
  exact ⟨Nat.mul_mod_right _ _, offsetAt_addressOf, offsetAt_eq_none_iff⟩

/-! ### The entry an offset stands for -/

/-- Is it an entry of NODE, CODE_LEN or CODE_BITS? -/
def Region.IsTable : Region → Prop
  | .reg _ => False
  | .nodeE _ => True
  | .lenE _ => True
  | .bitsE _ _ => True
  | .reserved => False

/-- The word a read of the register or entry answers (R64). -/
def Region.word (s : State) : Region → Word
  | .reg r => (readReg r s).1
  | .nodeE i => s.nodeWord i
  | .lenE c => s.codeLenWord c
  | .bitsE c k => s.codeBitsWord c k.toNat
  | .reserved => 0

/-- The state with a word stored in the entry; of no use for what is no entry. -/
def Region.store (v : Word) (s : State) : Region → State
  | .reg _ => s
  | .nodeE i => storeNode i v s
  | .lenE c => storeCodeLen c v s
  | .bitsE c k => storeCodeBits c k.toNat v s
  | .reserved => s

/-- The tables' offsets (R61). -/
theorem isTable_region_iff (off : Offset) :
    (region off).IsTable ↔ (0x800 ≤ off.toNat ∧ off.toNat < 0x1400) ∨ 0x2000 ≤ off.toNat := by
  by_cases hreg : off.toNat < 0x800
  · rw [region_of_lt_800 hreg]
    simp only [Region.IsTable, false_iff]
    omega
  by_cases hnode : off.toNat < 0x1000
  · rw [region_of_node_range (by omega) hnode]
    simp only [Region.IsTable, true_iff]
    omega
  by_cases hlen : off.toNat < 0x1400
  · rw [region_of_len_range (by omega) hlen]
    simp only [Region.IsTable, true_iff]
    omega
  by_cases hres : off.toNat < 0x2000
  · rw [region_of_reserved_range (by omega) hres]
    simp only [Region.IsTable, false_iff]
    omega
  · rw [region_of_bits_range (by omega)]
    simp only [Region.IsTable, true_iff]
    omega

/-! ### Reads (R64) -/

theorem memRead_fst (off : Offset) (s : State) : (memRead off s).1 = (region off).word s := by
  rw [memRead]
  cases region off <;> rfl

/-- Only the two queue reads have a side effect. -/
theorem memRead_snd {off : Offset} (hsym : region off ≠ .reg .symOut) (hword : region off ≠ .reg .wordOut)
    (s : State) : (memRead off s).2 = s := by
  rw [memRead]
  cases hr : region off with
  | reg r =>
    cases r with
    | symOut => exact absurd hr hsym
    | wordOut => exact absurd hr hword
    | _ => rfl
  | _ => rfl

theorem readSymOut_fst_congr {s t : State} (h : s.symq = t.symq) : (readSymOut s).1 = (readSymOut t).1 := by
  rw [readSymOut, readSymOut, h]
  cases t.symq <;> rfl

theorem readWordOut_fst_congr {s t : State} (h : s.wordq = t.wordq) : (readWordOut s).1 = (readWordOut t).1 := by
  rw [readWordOut, readWordOut, h]
  cases t.wordq <;> rfl

@[simp] theorem Region.word_reply (r : Response) (s : State) (entry : Region) :
    entry.word (reply r s) = entry.word s := by
  cases entry with
  | reg reg =>
    cases reg with
    | symOut => exact readSymOut_fst_congr rfl
    | wordOut => exact readWordOut_fst_congr rfl
    | _ => rfl
  | _ => rfl

/-- An aligned offset that stands for the register of an offset is that offset. -/
theorem eq_of_region_eq_reg {off off' : Offset} {r : Reg} (h4 : off.toNat % 4 = 0) (h4' : off'.toNat % 4 = 0)
    (hr : region off' = .reg r) (hne : r ≠ .reserved) (h : region off = .reg r) : off = off' := by
  rcases region_injective h4 h4' (h.trans hr.symm) with heq | hres | hres
  · exact heq
  · simp [h] at hres
  · rw [h] at hres
    exact absurd (Region.reg.inj hres) hne

/-- An aligned read of an entry's offset answers the entry's word and changes nothing. -/
theorem performAccess_read_table {off : Offset} {entry : Region} (h4 : off.toNat % 4 = 0) (hr : region off = entry)
    (htable : entry.IsTable) (s : State) :
    performAccess (.read 4 off) s = .next (reply (.data (entry.word s)) s) := by
  have hne (r : Reg) : region off ≠ .reg r := by
    rintro h
    rw [← hr, h] at htable
    exact htable
  rw [performAccess_read h4, memRead_fst, memRead_snd (hne _) (hne _), hr]

/-- The entries' offsets are aligned. -/
theorem entry_offset_aligned (base : Nat) (n : Nat) (h : base % 4 = 0) :
    (BitVec.ofNat 14 (base + 4 * n)).toNat % 4 = 0 := by
  rw [BitVec.toNat_ofNat]
  omega

theorem bits_offset_aligned (c : Nat) (k : Nat) :
    (BitVec.ofNat 14 (0x2000 + 32 * c + 4 * k)).toNat % 4 = 0 := by
  rw [BitVec.toNat_ofNat]
  omega

/-- Settles O18: only the offsets 0x014 and 0x018 stand for the queue reads, and an entry's offset for its entry. -/
theorem readsHaveNoSideEffect : Obligations.ReadsHaveNoSideEffect := by
  unfold Obligations.ReadsHaveNoSideEffect
  refine ⟨fun off s h4 => performAccess_read h4 s, fun off s h4 hsym hword => ?noEffect, fun i s => ?node,
    fun c s => ?len, fun c k s => ?bits⟩
  case noEffect =>
    have hsym' : region off ≠ .reg .symOut := fun h =>
      hsym (eq_of_region_eq_reg h4 (by decide) (by decide) (by decide) h)
    have hword' : region off ≠ .reg .wordOut := fun h =>
      hword (eq_of_region_eq_reg h4 (by decide) (by decide) (by decide) h)
    refine ⟨(region off).word s, ?_, ?_⟩
    · rw [performAccess_read h4, memRead_fst, memRead_snd hsym' hword']
    · rw [performAccess_read h4, memRead_fst, memRead_snd hsym' hword', Region.word_reply]
  case node => exact performAccess_read_table (entry_offset_aligned _ _ rfl) (region_node_entry i) trivial s
  case len => exact performAccess_read_table (entry_offset_aligned _ _ rfl) (region_len_entry c) trivial s
  case bits => exact performAccess_read_table (bits_offset_aligned _ _) (region_bits_entry c k) trivial s

/-! ### Table writes (R66) -/

section
variable {s : State}

theorem nodeWord_storeNode_same (h : Memory.wf Config.nNodes s.node) (i : NodeIndex) (v : Word) :
    (storeNode i v s).nodeWord i = v :=
  Memory.read_write_same _ _ _ h.1

theorem nodeWord_storeNode_other {i j : NodeIndex} (h : j ≠ i) (v : Word) :
    (storeNode i v s).nodeWord j = s.nodeWord j :=
  Memory.read_write_other _ _ _ _ fun heq => h (BitVec.eq_of_toNat_eq heq)

theorem codeLenWord_storeCodeLen_same (h : Memory.wf Config.nSym s.codeLen) (c : Sym) (v : Word) :
    (storeCodeLen c v s).codeLenWord c = v :=
  Memory.read_write_same _ _ _ h.1

theorem codeLenWord_storeCodeLen_other {c d : Sym} (h : d ≠ c) (v : Word) :
    (storeCodeLen c v s).codeLenWord d = s.codeLenWord d :=
  Memory.read_write_other _ _ _ _ fun heq => h (BitVec.eq_of_toNat_eq heq)

theorem codeBitsWord_storeCodeBits_same (h : Memory.wf (Config.nSym * Config.codeWords) s.codeBits) (c : Sym)
    (k : Nat) (v : Word) : (storeCodeBits c k v s).codeBitsWord c k = v :=
  Memory.read_write_same _ _ _ h.1

/-- Two entries of CODE_BITS, each within its symbol's eight words, have two keys (R34). -/
theorem codeBitsKey_ne {c d : Sym} {j k : Nat} (hj : j < Config.codeWords) (hk : k < Config.codeWords)
    (h : ¬(d = c ∧ j = k)) : codeBitsKey d j ≠ codeBitsKey c k := by
  intro heq
  simp only [codeBitsKey, Config.codeWords] at heq hj hk
  exact h ⟨BitVec.eq_of_toNat_eq (by omega), by omega⟩

theorem codeBitsWord_storeCodeBits_other {c d : Sym} {j k : Nat} (hj : j < Config.codeWords)
    (hk : k < Config.codeWords) (h : ¬(d = c ∧ j = k)) (v : Word) :
    (storeCodeBits c k v s).codeBitsWord d j = s.codeBitsWord d j :=
  Memory.read_write_other _ _ _ _ (codeBitsKey_ne hj hk h)

theorem Region.word_store_same {entry : Region} (h : entry.IsTable) (hwf : s.TablesWf) (v : Word) :
    entry.word (entry.store v s) = v := by
  obtain ⟨hnode, hlen, hbits⟩ := hwf
  cases entry with
  | reg r => exact h.elim
  | nodeE i => exact nodeWord_storeNode_same hnode i v
  | lenE c => exact codeLenWord_storeCodeLen_same hlen c v
  | bitsE c k => exact codeBitsWord_storeCodeBits_same hbits c k.toNat v
  | reserved => exact h.elim

/-- A register's view does not show a table (R45). -/
theorem readReg_store_fst (r : Reg) (entry : Region) (v : Word) :
    (readReg r (entry.store v s)).1 = (readReg r s).1 := by
  cases r with
  | symOut => exact readSymOut_fst_congr (by cases entry <;> rfl)
  | wordOut => exact readWordOut_fst_congr (by cases entry <;> rfl)
  | _ => cases entry <;> rfl

theorem Region.word_store_other {entry other : Region} (h : other ≠ entry) (v : Word) :
    other.word (entry.store v s) = other.word s := by
  cases other with
  | reg r => exact readReg_store_fst r entry v
  | nodeE j =>
    cases entry with
    | nodeE i => exact nodeWord_storeNode_other (fun hij => h (congrArg Region.nodeE hij)) v
    | _ => rfl
  | lenE d =>
    cases entry with
    | lenE c => exact codeLenWord_storeCodeLen_other (fun hcd => h (congrArg Region.lenE hcd)) v
    | _ => rfl
  | bitsE d j =>
    cases entry with
    | bitsE c k =>
      refine codeBitsWord_storeCodeBits_other j.isLt k.isLt (fun heq => h ?_) v
      rw [heq.1, BitVec.eq_of_toNat_eq heq.2]
    | _ => rfl
  | reserved => rfl

theorem tablesWf_store (h : s.TablesWf) (entry : Region) (v : Word) : (entry.store v s).TablesWf := by
  obtain ⟨hnode, hlen, hbits⟩ := h
  cases entry with
  | nodeE i => exact ⟨Memory.wf_write _ _ hnode i.isLt, hlen, hbits⟩
  | lenE c => exact ⟨hnode, Memory.wf_write _ _ hlen c.isLt, hbits⟩
  | bitsE c k => exact ⟨hnode, hlen, Memory.wf_write _ _ hbits (codeBitsKey_lt c k)⟩
  | _ => exact ⟨hnode, hlen, hbits⟩

/-- Storing changes the tables alone. -/
theorem store_frame (entry : Region) (v : Word) :
    { entry.store v s with node := s.node, codeLen := s.codeLen, codeBits := s.codeBits } = s := by
  cases entry <;> rfl

section
variable {off : Offset} {entry : Region} (hr : region off = entry) (htable : entry.IsTable)
include hr htable

/-- A write of an entry's offset goes through `table_write` (R66). -/
theorem memWrite_of_table (v : Word) :
    memWrite off v s = .next (tableWrite (fun t => entry.store v t) off s) := by
  rw [memWrite, hr]
  cases entry with
  | reg r => exact htable.elim
  | reserved => exact htable.elim
  | _ => rfl

variable (h4 : off.toNat % 4 = 0)
include h4

/-- In IDLE an aligned write of an entry's offset stores (R66). -/
theorem performAccess_write_table_of_idle (hidle : s.session = .idle) (v : Word) :
    performAccess (.write 4 off v) s = .next (reply .done (entry.store v s)) := by
  rw [performAccess_write h4, memWrite_of_table hr htable, tableWrite_of_idle hidle, andThen_next]

/-- In an open session it is refused with TABLE_LOCKED (R66). -/
theorem performAccess_write_table_of_open (hopen : s.session ≠ .idle) (v : Word) :
    performAccess (.write 4 off v) s = .next (reply .done (record .tableLocked (zext32 off) s)) := by
  rw [performAccess_write h4, memWrite_of_table hr htable, tableWrite_of_open hopen, andThen_next]

end

end

/-- Settles O20: the offset's entry is stored, and it is no other offset's entry. -/
theorem tableWriteInIdleIsStored : Obligations.TableWriteInIdleIsStored := by
  unfold Obligations.TableWriteInIdleIsStored
  refine ⟨fun s off v hwf hidle h4 hrange => ?window, fun s i v hwf hidle => ?node, fun s c v hwf hidle => ?len,
    fun s c k v hwf hidle => ?bits⟩
  case window =>
    have htable := (isTable_region_iff off).mpr hrange
    refine ⟨_, performAccess_write_table_of_idle rfl htable h4 hidle v, ?_, fun off' h4' hne => ?_, ?_, ?_⟩
    · rw [memRead_fst, Region.word_reply, Region.word_store_same htable hwf]
    · have hother : region off' ≠ region off := fun heq => by
        rcases region_injective h4' h4 heq with hsame | hres | hres
        · exact hne hsame
        · rw [← heq, hres] at htable
          exact htable
        · rw [← heq, hres] at htable
          exact htable
      rw [memRead_fst, memRead_fst, Region.word_reply, Region.word_store_other hother]
    · exact congrArg (reply .done) (store_frame (region off) v)
    · exact tablesWf_store hwf (region off) v
  case node =>
    have hwrite := performAccess_write_table_of_idle (region_node_entry i) trivial (entry_offset_aligned _ _ rfl)
      hidle v
    exact ⟨_, hwrite, nodeWord_storeNode_same hwf.1 i v, fun j hj => nodeWord_storeNode_other hj v, rfl⟩
  case len =>
    have hwrite := performAccess_write_table_of_idle (region_len_entry c) trivial (entry_offset_aligned _ _ rfl) hidle v
    exact ⟨_, hwrite, codeLenWord_storeCodeLen_same hwf.2.1 c v,
      fun d hd => codeLenWord_storeCodeLen_other hd v, rfl⟩
  case bits =>
    have hwrite := performAccess_write_table_of_idle (region_bits_entry c k) trivial (bits_offset_aligned _ _) hidle v
    refine ⟨_, hwrite, codeBitsWord_storeCodeBits_same hwf.2.2 c k.toNat v, fun d j hne => ?_, rfl⟩
    exact codeBitsWord_storeCodeBits_other j.isLt k.isLt (fun heq => hne ⟨heq.1, BitVec.eq_of_toNat_eq heq.2⟩) v

/-- Settles O21: TABLE_LOCKED is recorded with the offset, and nothing is stored. -/
theorem tableWriteInSessionIsLocked : Obligations.TableWriteInSessionIsLocked := by
  unfold Obligations.TableWriteInSessionIsLocked
  intro s off v hopen h4 hrange
  exact performAccess_write_table_of_open rfl ((isTable_region_iff off).mpr hrange) h4 hopen v

/-! ### What leaves the tables and DATA alone (R22, R75) -/

/-- Both states hold the same tables. -/
def SameTables (s t : State) : Prop := t.node = s.node ∧ t.codeLen = s.codeLen ∧ t.codeBits = s.codeBits

theorem SameTables.trans {s t u : State} (h : SameTables s t) (h' : SameTables t u) : SameTables s u :=
  ⟨h'.1.trans h.1, h'.2.1.trans h.2.1, h'.2.2.trans h.2.2⟩

/-- No command writes DATA or a table. -/
theorem CommandEffect.keeps {s t : State} {i : Instr} (h : CommandEffect s i t) :
    t.data = s.data ∧ SameTables s t := by
  cases h with
  | encSym c => simp [SameTables]
  | encEnd => simp [SameTables]
  | decBits n =>
    rcases settle_walkBits_cases (s.dataBits n.toNat) s with hr | ⟨e, info, -, hr⟩
    · rw [hr]
      exact ⟨rfl, rfl, rfl, rfl⟩
    · rw [hr]
      exact ⟨rfl, rfl, rfl, rfl⟩
  | _ => exact ⟨rfl, rfl, rfl, rfl⟩

/-- An aligned write of a table's offset. -/
def Access.IsTableWrite (a : Access) : Prop :=
  ∃ off v, a = .write 4 off v ∧ off.toNat % 4 = 0 ∧
    ((0x800 ≤ off.toNat ∧ off.toNat < 0x1400) ∨ 0x2000 ≤ off.toNat)

theorem access_changes_tables {a : Access} {s t : State} (h : performAccess a s = .next t)
    (hne : ¬SameTables s t) : s.session = .idle ∧ a.IsTableWrite := by
  have hsame (r : Response) : SameTables s (reply r s) := ⟨rfl, rfl, rfl⟩
  cases access_effect h with
  | refused => exact absurd (hsame _) hne
  | read off h4 u hu =>
    cases hu with
    | none => exact absurd (hsame _) hne
    | sym => exact absurd ⟨rfl, rfl, rfl⟩ hne
    | word => exact absurd ⟨rfl, rfl, rfl⟩ hne
  | write off h4 v u hu =>
    have hwrite (hr : (region off).IsTable) : (Access.write 4 off v).IsTableWrite :=
      ⟨off, v, rfl, h4, (isTable_region_iff off).mp hr⟩
    cases hu with
    | ignored => exact absurd (hsame _) hne
    | data => exact absurd ⟨rfl, rfl, rfl⟩ hne
    | illegal => exact absurd ⟨rfl, rfl, rfl⟩ hne
    | command _ i _ _ he => exact absurd (exec_effect he).keeps.2 hne
    | locked => exact absurd ⟨rfl, rfl, rfl⟩ hne
    | node hidle i hr => exact ⟨hidle, hwrite (hr ▸ trivial)⟩
    | codeLen hidle c hr => exact ⟨hidle, hwrite (hr ▸ trivial)⟩
    | codeBits hidle c k hr => exact ⟨hidle, hwrite (hr ▸ trivial)⟩

theorem accesses_change_tables {as : List Access} {s t : State} (h : performAccesses as s = .next t)
    (hne : ¬SameTables s t) : ∃ a ∈ as, a.IsTableWrite := by
  induction as generalizing s with
  | nil =>
    obtain rfl := Host.Outcome.next.inj h
    exact absurd ⟨rfl, rfl, rfl⟩ hne
  | cons a as ih =>
    obtain ⟨u, hu, -⟩ := performAccess_effect a s
    rw [performAccesses, hu, andThen_next] at h
    by_cases hfirst : SameTables s u
    · obtain ⟨b, hb, hwrite⟩ := ih h fun hrest => hne (hfirst.trans hrest)
      exact ⟨b, List.mem_cons_of_mem _ hb, hwrite⟩
    · exact ⟨a, List.mem_cons_self, (access_changes_tables hu hfirst).2⟩

/-- Settles O22: of an event's accesses, one that changes a table is a table write in IDLE. -/
theorem tablesChangeOnlyByIdleTableWritesAndReset : Obligations.TablesChangeOnlyByIdleTableWritesAndReset := by
  unfold Obligations.TablesChangeOnlyByIdleTableWritesAndReset
  refine ⟨fun a s t h hne => access_changes_tables h hne, fun i s t h => (exec_effect h).keeps.2,
    fun e s t h hne => ?event⟩
  case event =>
    cases e with
    | access a =>
      obtain ⟨-, off, v, rfl, hwrite⟩ := access_changes_tables h hne
      exact .inr ⟨off, v, .inl rfl, hwrite⟩
    | burst beats =>
      rcases hall : beats.all Access.admitted with _ | _
      · rw [performEvent_of_refused_burst hall] at h
        obtain rfl := Host.Outcome.next.inj h
        exact absurd ⟨rfl, rfl, rfl⟩ hne
      · rw [performEvent, if_pos hall] at h
        obtain ⟨a, ha, off, v, rfl, hwrite⟩ := accesses_change_tables h hne
        exact .inr ⟨off, v, .inr ⟨beats, rfl, ha⟩, hwrite⟩
    | reset => exact .inl rfl

theorem access_keeps_data {a : Access} {s t : State} (ha : ∀ v, a ≠ .write 4 dataOffset v)
    (h : performAccess a s = .next t) : t.data = s.data := by
  cases access_effect h with
  | refused => rfl
  | read off _ u hu => cases hu <;> rfl
  | write off _ v u hu =>
    cases hu with
    | data hoff => exact absurd (hoff ▸ rfl) (ha v)
    | command _ i _ _ he => exact (exec_effect he).keeps.1
    | _ => rfl

/-- Settles O23: DATA's own write stores, and no other access nor a command writes DATA. -/
theorem dataHoldsTheLastHostWrite : Obligations.DataHoldsTheLastHostWrite := by
  unfold Obligations.DataHoldsTheLastHostWrite
  exact ⟨fun v s => performAccess_write_reg (r := .data) (by decide) (by decide) v s,
    fun a s t ha h => access_keeps_data ha h⟩

/-- Settles O24: reset takes every element but the host's own two from the reset state, whose tables are empty. -/
theorem resetEventSetsEveryElement : Obligations.ResetEventSetsEveryElement := by
  unfold Obligations.ResetEventSetsEveryElement
  exact fun s => ⟨rfl, fun i => Memory.read_nil i.toNat, fun c => Memory.read_nil c.toNat,
    fun c k => Memory.read_nil (codeBitsKey c k)⟩

end Sys2Proof.Machine
end

section
/-! PROOFS. What an access can do to SESSION, DONE, ERR, ERR_INFO and WALK, said once (`ControlEffect`), and the
statements about sessions and errors that are read from it (R24 to R27, R201, R205, R244, R247). -/

namespace Sys2Proof.Machine

/-- SESSION, DONE, ERR, ERR_INFO and WALK are the same. -/
structure SameControl (s t : State) : Prop where
  session : t.session = s.session
  done : t.done = s.done
  err : t.err = s.err
  errInfo : t.errInfo = s.errInfo
  walk : t.walk = s.walk

/-- What an access does to those five, of all its effects: nothing, an error recorded by a CMD or table write, or what
the command it writes does. -/
inductive ControlEffect (s : State) : Access → State → Prop where
  | kept {a : Access} {t : State} (h : SameControl s t) : ControlEffect s a t
  | error {a : Access} {t : State} (ha : a.isCmdOrTableWrite = true) (e : ErrCode) (info : Word) (he : e ≠ .none)
      (h : SameControl (record e info s) t) : ControlEffect s a t
  | command {t : State} (i : Instr) (u : State) (hu : CommandEffect s i u) (h : SameControl u t) :
      ControlEffect s (commandWrite i) t

theorem isCmdOrTableWrite_iff {off : Offset} (h4 : off.toNat % 4 = 0) (v : Word) :
    (Access.write 4 off v).isCmdOrTableWrite = true ↔ off = cmdOffset ∨ (region off).IsTable := by
  have hadm : admitted 4 off = true := admitted_eq_true.mpr ⟨rfl, h4⟩
  have hcmd : off = cmdOffset ↔ region off = .reg .cmd := ⟨fun h => h ▸ by decide, region_eq_cmd off⟩
  rw [Access.isCmdOrTableWrite, hadm, Bool.true_and, hcmd]
  cases region off <;> simp [Region.IsTable]

theorem commandWrite_isCmdOrTableWrite (i : Instr) : (commandWrite i).isCmdOrTableWrite = true :=
  (isCmdOrTableWrite_iff (by decide) _).mpr (.inl rfl)

theorem sameControl_reply (r : Response) (s : State) : SameControl s (reply r s) := ⟨rfl, rfl, rfl, rfl, rfl⟩

theorem sameControl_store (entry : Region) (v : Word) (s : State) : SameControl s (entry.store v s) := by
  cases entry <;> exact ⟨rfl, rfl, rfl, rfl, rfl⟩

/-- The write of a register: CMD's runs a command or records ILLEGAL_COMMAND, every other one keeps the five. -/
theorem writeReg_control {off : Offset} {r : Reg} {v : Word} {s t : State} (h4 : off.toNat % 4 = 0)
    (hr : region off = .reg r) (h : performAccess (.write 4 off v) s = .next t) :
    ControlEffect s (.write 4 off v) t := by
  by_cases hcmd : r = .cmd
  · obtain rfl := region_eq_cmd off (hcmd ▸ hr)
    rcases hd : decode v with why | i
    · rw [performAccess_write_cmd_of_decode_error hd] at h
      obtain rfl := Host.Outcome.next.inj h
      exact .error ((isCmdOrTableWrite_iff h4 v).mpr (.inl rfl)) .illegalCommand v (by simp) (sameControl_reply _ _)
    · obtain ⟨u, hu⟩ := exec_next i s
      rw [performAccess_write_cmd_of_decode hd, hu, andThen_next] at h
      obtain rfl := Host.Outcome.next.inj h
      obtain rfl := encode_of_decode hd
      exact .command i u (exec_effect hu) (sameControl_reply _ _)
  by_cases hdata : r = .data
  · rw [performAccess_write_reg h4 hr, hdata, writeReg, andThen_next] at h
    obtain rfl := Host.Outcome.next.inj h
    exact .kept ⟨rfl, rfl, rfl, rfl, rfl⟩
  · rw [performAccess_write_reg_ignored h4 hr hcmd hdata] at h
    obtain rfl := Host.Outcome.next.inj h
    exact .kept (sameControl_reply _ _)

theorem access_control {a : Access} {s t : State} (h : performAccess a s = .next t) : ControlEffect s a t := by
  rcases ha : a.admitted with _ | _
  case false =>
    rw [performAccess_of_not_admitted ha] at h
    obtain rfl := Host.Outcome.next.inj h
    exact .kept (sameControl_reply _ _)
  cases a with
  | read size off =>
    obtain ⟨rfl, h4⟩ := admitted_eq_true.mp ha
    rw [performAccess_read h4] at h
    obtain rfl := Host.Outcome.next.inj h
    have hread := memRead_effect off s
    generalize (memRead off s).2 = u at hread ⊢
    cases hread with
    | none => exact .kept (sameControl_reply _ _)
    | sym => exact .kept ⟨rfl, rfl, rfl, rfl, rfl⟩
    | word => exact .kept ⟨rfl, rfl, rfl, rfl, rfl⟩
  | write size off v =>
    obtain ⟨rfl, h4⟩ := admitted_eq_true.mp ha
    rcases hr : region off with r | i | c | ⟨c, k⟩ | _
    case reg => exact writeReg_control h4 hr h
    case reserved =>
      rw [performAccess_write_reserved h4 hr] at h
      obtain rfl := Host.Outcome.next.inj h
      exact .kept (sameControl_reply _ _)
    all_goals
      have htable : (region off).IsTable := hr ▸ trivial
      by_cases hidle : s.session = .idle
      · rw [performAccess_write_table_of_idle rfl htable h4 hidle] at h
        obtain rfl := Host.Outcome.next.inj h
        have hstore := sameControl_store (region off) v s
        exact .kept ⟨hstore.session, hstore.done, hstore.err, hstore.errInfo, hstore.walk⟩
      · rw [performAccess_write_table_of_open rfl htable h4 hidle] at h
        obtain rfl := Host.Outcome.next.inj h
        exact .error ((isCmdOrTableWrite_iff h4 v).mpr (.inr htable)) .tableLocked _ (by simp) (sameControl_reply _ _)

/-! ### Errors (R201, R205) -/

/-- What a recorded error is after `record` (R201). -/
theorem record_keeps_error {s : State} (h : s.err ≠ .none) (e : ErrCode) (info : Word) :
    (record e info s).err = s.err ∧ (record e info s).errInfo = s.errInfo := by
  simp [h]

/-- After `record` an error is recorded, the new one or an earlier one. -/
theorem record_err_ne_none {e : ErrCode} (he : e ≠ .none) (info : Word) (s : State) :
    (record e info s).err ≠ .none := by
  rw [record_err]
  split
  · exact he
  · assumption

/-- DEC_BITS' walk leaves ERR, SESSION and DONE, or records an error. -/
theorem decBits_control (bits : List Bool) (s : State) :
    ((walkBits bits s).settle.session = s.session ∧ (walkBits bits s).settle.done = s.done ∧
      (walkBits bits s).settle.err = s.err ∧ (walkBits bits s).settle.errInfo = s.errInfo) ∨
    ∃ e info u, e ≠ .none ∧ e ≠ .overflow ∧ u.err = s.err ∧ u.errInfo = s.errInfo ∧
      (walkBits bits s).settle = record e info u := by
  rcases settle_walkBits_cases bits s with hr | ⟨e, info, he, hr⟩
  · rw [hr]
    exact .inl ⟨rfl, rfl, rfl, rfl⟩
  · refine .inr ⟨e, info, afterWalk bits s, ?_, ?_, rfl, rfl, hr⟩
    · rcases he with rfl | rfl <;> simp
    · rcases he with rfl | rfl <;> simp

/-- A command keeps a recorded error, or is CLR or a START in IDLE and clears it (R205). -/
theorem CommandEffect.err_kept_or_cleared {i : Instr} {s t : State} (h : CommandEffect s i t) (hs : s.err ≠ .none) :
    (t.err = s.err ∧ t.errInfo = s.errInfo) ∨
    (t.err = .none ∧ t.errInfo = 0 ∧
      (i = .clr ∨ (s.session = .idle ∧ (i = .encStart ∨ i = .decStart)))) := by
  cases h with
  | refused e info => exact .inl (record_keeps_error hs e info)
  | nop => exact .inl ⟨rfl, rfl⟩
  | clr => exact .inr ⟨rfl, rfl, .inl rfl⟩
  | encStart hidle => exact .inr ⟨rfl, rfl, .inr ⟨hidle, .inl rfl⟩⟩
  | encSym c => exact .inl ⟨by simp, by simp⟩
  | encEnd => exact .inl ⟨by simp, by simp⟩
  | decStart hidle => exact .inr ⟨rfl, rfl, .inr ⟨hidle, .inr rfl⟩⟩
  | decBits n =>
    rcases decBits_control (s.dataBits n.toNat) s with ⟨-, -, herr, hinfo⟩ | ⟨e, info, u, -, -, herr, hinfo, hr⟩
    · exact .inl ⟨herr, hinfo⟩
    · obtain ⟨herr', hinfo'⟩ := record_keeps_error (herr ▸ hs) e info
      rw [hr]
      exact .inl ⟨herr'.trans herr, hinfo'.trans hinfo⟩
  | decEnd => exact .inl ⟨rfl, rfl⟩

/-- Settles O26: only the commands that clear an error can change a recorded one. -/
theorem firstErrorIsKept : Obligations.FirstErrorIsKept := by
  unfold Obligations.FirstErrorIsKept
  intro a s t hs h
  cases access_control h with
  | kept hsame => exact .inl ⟨hsame.err, hsame.errInfo⟩
  | error _ e info _ hsame =>
    obtain ⟨herr, hinfo⟩ := record_keeps_error hs e info
    exact .inl ⟨hsame.err.trans herr, hsame.errInfo.trans hinfo⟩
  | command i u hu hsame =>
    rw [hsame.err, hsame.errInfo]
    rcases hu.err_kept_or_cleared hs with hkept | ⟨herr, hinfo, rfl | ⟨hidle, rfl | rfl⟩⟩
    · exact .inl hkept
    · exact .inr ⟨herr, hinfo, .inl rfl⟩
    · exact .inr ⟨herr, hinfo, .inr ⟨hidle, .inl rfl⟩⟩
    · exact .inr ⟨herr, hinfo, .inr ⟨hidle, .inr rfl⟩⟩

/-- A command that newly records an error ends the session with DONE = 0 (R201). -/
theorem CommandEffect.new_error_ends {i : Instr} {s t : State} (h : CommandEffect s i t) (hs : s.err = .none)
    (ht : t.err ≠ .none) : t.session = .idle ∧ t.done = false := by
  cases h with
  | refused => exact ⟨rfl, rfl⟩
  | decBits n =>
    rcases decBits_control (s.dataBits n.toNat) s with ⟨-, -, herr, -⟩ | ⟨e, info, u, -, -, -, -, hr⟩
    · exact absurd (herr.trans hs) ht
    · rw [hr]
      exact ⟨rfl, rfl⟩
  | _ => simp [hs] at ht

/-- Settles O27: an error is newly recorded by `record` alone. -/
theorem errorsEndTheSession : Obligations.ErrorsEndTheSession := by
  unfold Obligations.ErrorsEndTheSession
  refine ⟨fun e v s => rfl, fun a s t h hs ht => ?_⟩
  cases access_control h with
  | kept hsame => exact absurd (hsame.err.trans hs) ht
  | error _ e info _ hsame => exact ⟨hsame.session, hsame.done⟩
  | command i u hu hsame =>
    rw [hsame.session, hsame.done]
    exact hu.new_error_ends hs (hsame.err ▸ ht)

/-! ### Sessions (R24, R247) -/

/-- A command that leaves another session is a START in IDLE, or leaves none open. -/
theorem CommandEffect.session_cases {i : Instr} {s t : State} (h : CommandEffect s i t)
    (hne : t.session ≠ s.session) :
    (t.session = .enc ∧ s.session = .idle ∧ i = .encStart) ∨
    (t.session = .dec ∧ s.session = .idle ∧ i = .decStart) ∨ t.session = .idle := by
  cases h with
  | encStart hidle => exact .inl ⟨rfl, hidle, rfl⟩
  | decStart hidle => exact .inr (.inl ⟨rfl, hidle, rfl⟩)
  | nop => exact absurd rfl hne
  | encSym c => simp at hne
  | decBits n =>
    rcases decBits_control (s.dataBits n.toNat) s with ⟨hsession, -⟩ | ⟨e, info, u, -, -, -, -, hr⟩
    · exact absurd hsession hne
    · rw [hr]
      exact .inr (.inr rfl)
  | _ => exact .inr (.inr rfl)

/-- An access that changes SESSION is a START in IDLE, or a CMD or table write that leaves it IDLE. -/
theorem access_session_cases {a : Access} {s t : State} (h : performAccess a s = .next t)
    (hne : t.session ≠ s.session) :
    (t.session = .enc ∧ s.session = .idle ∧ a = commandWrite .encStart) ∨
    (t.session = .dec ∧ s.session = .idle ∧ a = commandWrite .decStart) ∨
    (t.session = .idle ∧ a.isCmdOrTableWrite = true) := by
  cases access_control h with
  | kept hsame => exact absurd hsame.session hne
  | error ha e info _ hsame => exact .inr (.inr ⟨hsame.session, ha⟩)
  | command i u hu hsame =>
    rw [hsame.session] at hne ⊢
    rcases hu.session_cases hne with ⟨henc, hidle, rfl⟩ | ⟨hdec, hidle, rfl⟩ | hidle
    · exact .inl ⟨henc, hidle, rfl⟩
    · exact .inr (.inl ⟨hdec, hidle, rfl⟩)
    · exact .inr (.inr ⟨hidle, commandWrite_isCmdOrTableWrite i⟩)

/-- A CMD or table write by its offset. -/
theorem exists_write_of_isCmdOrTableWrite {a : Access} (h : a.isCmdOrTableWrite = true) :
    ∃ off v, a = .write 4 off v ∧
      (off = cmdOffset ∨ (0x800 ≤ off.toNat ∧ off.toNat < 0x1400) ∨ 0x2000 ≤ off.toNat) := by
  cases a with
  | read size off => simp [Access.isCmdOrTableWrite] at h
  | write size off v =>
    have hadm : admitted size off = true := by
      rw [Access.isCmdOrTableWrite, Bool.and_eq_true] at h
      exact h.1
    obtain ⟨rfl, h4⟩ := admitted_eq_true.mp hadm
    rw [isCmdOrTableWrite_iff h4, isTable_region_iff] at h
    exact ⟨off, v, rfl, h⟩

/-- Settles O28: the three ways SESSION can change. -/
theorem onlyStartsOpenSessions : Obligations.OnlyStartsOpenSessions := by
  unfold Obligations.OnlyStartsOpenSessions
  intro a s t h hne
  rcases access_session_cases h hne with ⟨henc, hidle, ha⟩ | ⟨hdec, hidle, ha⟩ | ⟨hidle, ha⟩
  · exact ⟨fun _ => ⟨hidle, ha⟩, by simp [henc], by simp [henc]⟩
  · exact ⟨by simp [hdec], fun _ => ⟨hidle, ha⟩, by simp [hdec]⟩
  · exact ⟨by simp [hidle], by simp [hidle], fun _ => exists_write_of_isCmdOrTableWrite ha⟩

/-! ### DONE and WALK (R25, R27) -/

/-- What a command does to DONE: it is an END in its session and sets it, leaves it, or clears it. -/
theorem CommandEffect.done_cases {i : Instr} {s t : State} (h : CommandEffect s i t) :
    (t.done = true ∧ ((s.session = .enc ∧ i = .encEnd) ∨ (s.session = .dec ∧ i = .decEnd))) ∨
    t.done = s.done ∨
    (t.done = false ∧ (t.err ≠ .none ∨ i = .clr ∨ i = .encStart ∨ i = .decStart)) := by
  cases h with
  | refused e info he => exact .inr (.inr ⟨rfl, .inl (record_err_ne_none he info s)⟩)
  | nop => exact .inr (.inl rfl)
  | clr => exact .inr (.inr ⟨rfl, .inr (.inl rfl)⟩)
  | encStart => exact .inr (.inr ⟨rfl, .inr (.inr (.inl rfl))⟩)
  | encSym c => exact .inr (.inl (by simp))
  | encEnd henc => exact .inl ⟨rfl, .inl ⟨henc, rfl⟩⟩
  | decStart => exact .inr (.inr ⟨rfl, .inr (.inr (.inr rfl))⟩)
  | decBits n =>
    rcases decBits_control (s.dataBits n.toNat) s with ⟨-, hdone, -⟩ | ⟨e, info, u, he, -, -, -, hr⟩
    · exact .inr (.inl hdone)
    · rw [hr]
      exact .inr (.inr ⟨rfl, .inl (record_err_ne_none he info u)⟩)
  | decEnd hdec => exact .inl ⟨rfl, .inr ⟨hdec, rfl⟩⟩

/-- Settles O29: of the effects on DONE, only the ENDs set it, and only an error, CLR or a START clears it. -/
theorem doneIsSetByEndsOnly : Obligations.DoneIsSetByEndsOnly := by
  unfold Obligations.DoneIsSetByEndsOnly
  intro a s t h
  cases access_control h with
  | kept hsame =>
    rw [hsame.done]
    exact ⟨fun hs ht => by simp [hs] at ht, fun hs ht => by simp [hs] at ht⟩
  | error _ e info he hsame =>
    refine ⟨fun _ ht => ?_, fun _ _ => .inl ?_⟩
    · simp [hsame.done] at ht
    · exact hsame.err ▸ record_err_ne_none he info s
  | command i u hu hsame =>
    rw [hsame.done, hsame.err]
    rcases hu.done_cases with ⟨hdone, hend⟩ | hdone | ⟨hdone, hclears⟩
    · refine ⟨fun _ _ => ?_, fun _ ht => by simp [hdone] at ht⟩
      rcases hend with ⟨henc, rfl⟩ | ⟨hdec, rfl⟩
      · exact .inl ⟨henc, rfl⟩
      · exact .inr ⟨hdec, rfl⟩
    · rw [hdone]
      exact ⟨fun hs ht => by simp [hs] at ht, fun hs ht => by simp [hs] at ht⟩
    · refine ⟨fun _ ht => by simp [hdone] at ht, fun _ _ => ?_⟩
      rcases hclears with herr | rfl | rfl | rfl
      · exact .inl herr
      · exact .inr (.inl rfl)
      · exact .inr (.inr (.inl rfl))
      · exact .inr (.inr (.inr rfl))

/-- What a command does to WALK (R27). -/
theorem CommandEffect.walk_cases {i : Instr} {s t : State} (h : CommandEffect s i t) :
    t.walk = s.walk ∨ (t.walk = 0 ∧ (i = .clr ∨ i = .encStart ∨ i = .decStart)) ∨
    (s.session = .dec ∧ ∃ n, i = .decBits n) := by
  cases h with
  | clr => exact .inr (.inl ⟨rfl, .inl rfl⟩)
  | encStart => exact .inr (.inl ⟨rfl, .inr (.inl rfl)⟩)
  | decStart => exact .inr (.inl ⟨rfl, .inr (.inr rfl)⟩)
  | decBits n hdec => exact .inr (.inr ⟨hdec, n, rfl⟩)
  | _ => exact .inl (by simp)

/-- Settles O30: the commands are all that can change WALK. -/
theorem walkChangesOnlyByStartsClrAndDecBits : Obligations.WalkChangesOnlyByStartsClrAndDecBits := by
  unfold Obligations.WalkChangesOnlyByStartsClrAndDecBits
  intro a s t h hne
  cases access_control h with
  | kept hsame => exact absurd hsame.walk hne
  | error _ e info _ hsame => exact absurd hsame.walk hne
  | command i u hu hsame =>
    rw [hsame.walk] at hne ⊢
    rcases hu.walk_cases with hkept | ⟨hroot, rfl | rfl | rfl⟩ | ⟨hdec, n, rfl⟩
    · exact absurd hkept hne
    · exact .inl ⟨hroot, .inl rfl⟩
    · exact .inl ⟨hroot, .inr (.inl rfl)⟩
    · exact .inl ⟨hroot, .inr (.inr rfl)⟩
    · exact .inr ⟨hdec, n, rfl⟩

/-! ### The successful end of a session (R247) -/

/-- A command that ends a session with DONE = 1 is the session's END, executed without an error. -/
theorem CommandEffect.end_of_done {i : Instr} {s t : State} (h : CommandEffect s i t) (hopen : s.session ≠ .idle)
    (hidle : t.session = .idle) (hdone : t.done = true) :
    (i = .encEnd ∧ s.session = .enc ∧ s.inCnt ≠ 0 ∧ (s.accN ≠ 0 → s.wordq.length ≠ 16)) ∨
    (i = .decEnd ∧ s.session = .dec ∧ s.walk = 0) := by
  cases h with
  | encEnd henc hin room => exact .inl ⟨rfl, henc, hin, room⟩
  | decEnd hdec hroot => exact .inr ⟨rfl, hdec, hroot⟩
  | nop => exact absurd hidle hopen
  | encSym c => exact absurd (by simpa using hidle) hopen
  | decBits n =>
    rcases decBits_control (s.dataBits n.toNat) s with ⟨hsession, -⟩ | ⟨e, info, u, -, -, -, -, hr⟩
    · exact absurd (hsession.symm.trans hidle) hopen
    · rw [hr] at hdone
      simp at hdone
  | _ => simp at hdone

/-- Settles O31: the ENDs that execute leave DONE = 1 and ERR as it was, 0 in an open session (R49 (c)); nothing else
that ends a session leaves DONE = 1. -/
theorem onlyItsEndEndsASessionSuccessfully : Obligations.OnlyItsEndEndsASessionSuccessfully := by
  unfold Obligations.OnlyItsEndEndsASessionSuccessfully
  refine ⟨fun a s t h hopen hidle => ?ends, fun a s t hinv hended => ⟨fun hsucc => ?isEnd, fun hend => ?succeeds⟩⟩
  case ends =>
    rcases access_session_cases h (hidle ▸ hopen.symm) with ⟨-, hclosed, -⟩ | ⟨-, hclosed, -⟩ | ⟨-, ha⟩
    · exact absurd hclosed hopen
    · exact absurd hclosed hopen
    · exact ⟨h, hopen, ha, hidle⟩
  case isEnd =>
    obtain ⟨⟨h, hopen, -, hidle⟩, hdone, -⟩ := hsucc
    cases access_control h with
    | kept hsame => exact absurd (hsame.session.symm.trans hidle) hopen
    | error _ e info _ hsame => simp [hsame.done] at hdone
    | command i u hu hsame =>
      rcases hu.end_of_done hopen (hsame.session ▸ hidle) (hsame.done ▸ hdone) with ⟨rfl, hend⟩ | ⟨rfl, hend⟩
      · exact .inl ⟨rfl, hend⟩
      · exact .inr ⟨rfl, hend⟩
  case succeeds =>
    refine ⟨hended, ?_⟩
    obtain ⟨h, hopen, -, -⟩ := hended
    have herr := (hinv.openClean hopen).1
    rcases hend with ⟨rfl, henc, hin, room⟩ | ⟨rfl, hdec, hroot⟩
    · rw [performAccess_commandWrite, exec_encEnd_of_enc henc, finishEncoding_of_room hin room, settle_completed,
        andThen_next] at h
      obtain rfl := Host.Outcome.next.inj h
      simp [herr]
    · rw [performAccess_commandWrite, exec_decEnd_of_dec hdec, finishDecoding_of_root hroot, settle_completed,
        andThen_next] at h
      obtain rfl := Host.Outcome.next.inj h
      simp [herr]

/-! ### Room (R244) -/

theorem record_err_ne_overflow {s : State} (hs : s.err ≠ .overflow) {e : ErrCode} (he : e ≠ .overflow) (info : Word) :
    (record e info s).err ≠ .overflow := by
  rw [record_err]
  split
  · exact he
  · exact hs

/-- Settles O32: with the room of R244 no pseudocode takes its OVERFLOW branch, and no other branch raises it. -/
theorem roomMeansNoOverflow : Obligations.RoomMeansNoOverflow := by
  unfold Obligations.RoomMeansNoOverflow
  intro i s t room hs h
  rcases ha : allowed i s.session with _ | _
  · rw [exec_not_allowed ha] at h
    obtain rfl := Host.Outcome.next.inj h
    exact record_err_ne_overflow hs (by simp) _
  rw [exec_allowed ha] at h
  obtain rfl := Host.Outcome.next.inj h
  cases i with
  | nop => exact hs
  | clr => simp [pseudocode]
  | encStart => simp [pseudocode]
  | decStart => simp [pseudocode]
  | encSym c =>
    dsimp only [pseudocode]
    by_cases hcode : s.codeLength c = 0
    · rw [encodeSymbol_of_no_code hcode]
      exact record_err_ne_overflow hs (by simp) _
    · rw [encodeSymbol_of_room hcode room]
      simpa using hs
  | encEnd =>
    dsimp only [pseudocode]
    by_cases hin : s.inCnt = 0
    · rw [finishEncoding_of_empty hin]
      exact record_err_ne_overflow hs (by simp) _
    · have hroom (hheld : s.accN ≠ 0) (hfull : s.wordq.length = Config.wordqDepth) : False :=
        absurd (hfull ▸ room hheld : Config.wordqDepth ≤ Config.wordqDepth - 1) (by decide)
      rw [finishEncoding_of_room hin hroom]
      simpa using hs
  | decBits n =>
    dsimp only [pseudocode]
    by_cases bad : n.toNat = 0 ∨ Config.nMax < n.toNat
    · rw [consumeBits_of_bad_count bad]
      exact record_err_ne_overflow hs (by simp) _
    · rw [consumeBits_of_room (by omega) (by omega) room]
      rcases decBits_control (s.dataBits n.toNat) s with ⟨-, -, herr, -⟩ | ⟨e, info, u, -, he, herr, -, hr⟩
      · rwa [herr]
      · rw [hr]
        exact record_err_ne_overflow (herr ▸ hs) he info
  | decEnd =>
    dsimp only [pseudocode]
    by_cases hroot : s.walk = 0
    · rw [finishDecoding_of_root hroot]
      exact hs
    · rw [finishDecoding_of_midPath hroot]
      exact record_err_ne_overflow hs (by simp) _

end Sys2Proof.Machine
end

section
/-! PROOFS. Payload words and the host program's lines: the layout of a bit sequence in words (R40), the feed rule
(R246), and what NODE_LEAF, NODE_INT, NODE_CLEAR, CODE and DEC_FEED write (R30, R34, R101). -/

namespace Sys2Proof.Machine

/-! ### Payload words (R40) -/

theorem packedWord_getLsbD (P : List Bool) (k : Nat) {j : Nat} (hj : j < 32) :
    (packedWord P k).getLsbD (31 - j) = P.getD (32 * k + j) false := by
  have hsub : 31 - (31 - j) = j := by omega
  have hlt : 31 - j < 32 := by omega
  rw [packedWord, packWord_getLsbD, hsub]
  simp [hlt, hj]

@[simp] theorem payloadWords_length (P : List Bool) : (payloadWords P).length = (P.length + 31) / 32 := by
  simp [payloadWords]

theorem payloadWords_getElem? {P : List Bool} {k : Nat} {w : Word} (h : (payloadWords P)[k]? = some w) :
    w = packedWord P k := by
  obtain ⟨hk, hw⟩ := List.getElem?_eq_some_iff.mp h
  rw [← hw]
  simp [payloadWords]

theorem packedWord_getLsbD_div_mod (P : List Bool) (p : Nat) :
    (packedWord P (p / 32)).getLsbD (31 - p % 32) = P.getD p false := by
  rw [packedWord_getLsbD P _ (Nat.mod_lt p (by decide)), Nat.div_add_mod]

theorem leadingBits_getElem? {w : Word} {n i : Nat} (h : i < n) :
    (leadingBits w n)[i]? = some (w.getLsbD (31 - i)) := by
  simp [leadingBits, h]

/-- Settles O45: bit p of the sequence is bit p mod 32 of the packed word p div 32, and past its end that is 0. -/
theorem payloadWordsLayout : Obligations.PayloadWordsLayout := by
  unfold Obligations.PayloadWordsLayout
  refine ⟨fun P k j hj => packedWord_getLsbD P k hj,
    fun w n => ⟨leadingBits_length w n, fun i hi => leadingBits_getElem? hi⟩,
    fun P => ⟨payloadWords_length P, fun p hp => ?inside, fun p w hp hw => ?outside⟩⟩
  case inside =>
    refine ⟨packedWord P (p / 32), ?_, ?_⟩
    · simp only [payloadWords, List.getElem?_map, List.getElem?_range (by omega : p / 32 < (P.length + 31) / 32),
        Option.map_some]
    · simp [packedWord_getLsbD_div_mod, hp]
  case outside =>
    rw [payloadWords_getElem? hw, packedWord_getLsbD_div_mod]
    simp [hp]

/-! ### The feed rule (R246) -/

theorem leadingBits_take (w : Word) {n m : Nat} (h : n ≤ m) : (leadingBits w m).take n = leadingBits w n := by
  rw [leadingBits, ← List.map_take, List.take_range, Nat.min_eq_left h, leadingBits]

/-- The plan feeds the payload's words in order, 32 bits of each but the last (R246). -/
theorem feedPlan_spec (ws : List Word) (len : Nat) (hlen : 1 ≤ len) (hws : ws.length = (len + 31) / 32) :
    (feedPlan ws len).flatMap (fun x => leadingBits x.1 x.2) = (wordsBits ws).take len ∧
    (feedPlan ws len).map (·.1) = ws ∧
    (∀ x ∈ feedPlan ws len, 1 ≤ x.2 ∧ x.2 ≤ 32) ∧
    (∀ x ∈ (feedPlan ws len).dropLast, x.2 = 32) := by
  induction ws generalizing len with
  | nil =>
    rw [List.length_nil] at hws
    omega
  | cons w ws ih =>
    rw [List.length_cons] at hws
    rw [feedPlan]
    split
    case isTrue hlast =>
      obtain rfl : ws = [] := List.eq_nil_of_length_eq_zero (by omega)
      have hbits : (wordsBits [w]).take len = leadingBits w len := by
        rw [wordsBits, List.flatMap_singleton, leadingBits_take w hlast]
      refine ⟨by rw [hbits, List.flatMap_singleton], rfl, fun x hx => ?_, fun x hx => absurd hx (by simp)⟩
      rw [List.mem_singleton] at hx
      exact hx ▸ ⟨hlen, hlast⟩
    case isFalse hmore =>
      obtain ⟨hbits, hwords, hcounts, hfull⟩ := ih (len - 32) (by omega) (by omega)
      have hrest : feedPlan ws (len - 32) ≠ [] := fun h => by
        rw [h] at hwords
        rw [← hwords] at hws
        rw [List.map_nil, List.length_nil] at hws
        omega
      refine ⟨?_, by rw [List.map_cons, hwords], ?_, ?_⟩
      · rw [List.flatMap_cons, hbits, wordsBits, wordsBits, List.flatMap_cons, List.take_append, leadingBits_length,
          List.take_of_length_le (l := leadingBits w 32) (by rw [leadingBits_length]; omega)]
      · simpa using hcounts
      · rw [List.dropLast_cons_of_ne_nil hrest]
        simpa using hfull

/-- Settles O60: `feedPlan_spec`, by induction on the words. -/
theorem feedRuleFeedsExactlyThePayload : Obligations.FeedRuleFeedsExactlyThePayload := by
  unfold Obligations.FeedRuleFeedsExactlyThePayload
  exact feedPlan_spec

/-! ### Node words (R30, R101) -/

theorem leafWord_eq_fields (c : Sym) : leafWord c = zext32 (0b01#2) <<< 30 ||| zext32 c <<< 0 := by
  rw [leafWord, BitVec.shiftLeft_zero]
  rfl

theorem internalWord_eq_fields (l r : NodeIndex) :
    internalWord l r = zext32 (0b10#2) <<< 30 ||| zext32 r <<< 16 ||| zext32 l <<< 0 := by
  rw [internalWord, BitVec.shiftLeft_zero]
  rfl

/-- KIND is the word's value in units of 2^30. -/
theorem extractLsb'_kind_toNat (n : Word) : (n.extractLsb' 30 2).toNat = n.toNat / 2 ^ 30 := by
  have hn := n.isLt
  rw [BitVec.extractLsb'_toNat, Nat.shiftRight_eq_div_pow, Nat.mod_eq_of_lt]
  omega

/-- Settles O57: each field of the written words is read back where it stands. -/
theorem nodeWordFields : Obligations.NodeWordFields := by
  unfold Obligations.NodeWordFields
  refine ⟨fun n => ⟨nodeKind_eq_iff, nodeKind_eq_iff, nodeKind_eq_iff, nodeKind_eq_iff, rfl, rfl, rfl⟩,
    fun i l r c => ?writes, fun c => ?leaf, fun l r => ?internal, fun n => ?empty, fun n => ?reserved⟩
  case writes => simp [lineAccesses, writeNode]
  case leaf =>
    rw [nodeKind_eq_iff, nodeSym, leafWord_eq_fields]
    simp (disch := decide) only [BitVec.extractLsb'_or, extractLsb'_zext32_shiftLeft,
      extractLsb'_zext32_shiftLeft_of_disjoint, BitVec.or_zero, BitVec.zero_or]
    exact ⟨rfl, trivial⟩
  case internal =>
    rw [nodeKind_eq_iff, nodeLeft, nodeRight, internalWord_eq_fields]
    simp (disch := decide) only [BitVec.extractLsb'_or, extractLsb'_zext32_shiftLeft,
      extractLsb'_zext32_shiftLeft_of_disjoint, BitVec.or_zero, BitVec.zero_or]
    exact ⟨rfl, trivial, trivial⟩
  case empty =>
    have hbits : NodeKind.empty.bits.toNat = 0 := rfl
    rw [nodeKind_eq_iff, ← BitVec.toNat_inj, extractLsb'_kind_toNat, hbits]
    omega
  case reserved =>
    have hn := n.isLt
    have hbits : NodeKind.reserved.bits.toNat = 3 := rfl
    rw [nodeKind_eq_iff, ← BitVec.toNat_inj, extractLsb'_kind_toNat, hbits]
    omega

/-! ### DEC_FEED (R101) -/

theorem performAccess_write_data (v : Word) (s : State) :
    performAccess (.write 4 dataOffset v) s = .next (reply .done { s with data := v }) :=
  performAccess_write_reg (r := .data) (by decide) (by decide) v s

/-- Settles O59: the two writes in order; the packed piece's leading bits are the piece. -/
theorem decFeedPresentsThePiece : Obligations.DecFeedPresentsThePiece := by
  unfold Obligations.DecFeedPresentsThePiece
  intro s p hlo hhi
  refine ⟨?writes, leadingBits_packWord p hhi, fun i hi => ?bits⟩
  case writes =>
    obtain ⟨t, ht⟩ := exec_next (.decBits (BitVec.ofNat 6 p.length)) (reply .done { s with data := packWord p })
    rw [lineAccesses, feedAccesses, performAccesses, performAccess_write_data, andThen_next, performAccesses,
      performAccess_commandWrite, ht]
    rfl
  case bits =>
    have hsub : 31 - (31 - i) = i := by omega
    have hlt : 31 - i < 32 := by omega
    rw [packWord_getLsbD, hsub]
    simp [hlt]

/-! ### CODE (R101) -/

theorem performAccesses_append (as bs : List Access) (s : State) :
    performAccesses (as ++ bs) s = andThen (performAccesses as s) (performAccesses bs) := by
  induction as generalizing s with
  | nil => rfl
  | cons a as ih =>
    obtain ⟨t, ht, -⟩ := performAccess_effect a s
    rw [List.cons_append, performAccesses, performAccesses, ht, andThen_next, andThen_next, ih]

/-- What the writes of the first `m` words of a symbol's code bits leave. -/
structure CodeBitsLoaded (c : Sym) (word : Nat → Word) (m : Nat) (s t : State) : Prop where
  own : ∀ k < m, t.codeBitsWord c k = word k
  other : ∀ d ≠ c, ∀ k < Config.codeWords, t.codeBitsWord d k = s.codeBitsWord d k
  frame : { t with codeBits := s.codeBits, responses := s.responses } = s
  tablesWf : t.TablesWf

theorem performAccess_writeCodeBits {s : State} (hidle : s.session = .idle) (c : Sym) {k : Nat}
    (hk : k < Config.codeWords) (w : Word) :
    performAccess (writeCodeBits c.toNat k w) s = .next (reply .done (storeCodeBits c k w s)) := by
  have hkey : (BitVec.ofNat 3 k).toNat = k := Nat.mod_eq_of_lt hk
  have hr := region_bits_entry c (BitVec.ofNat 3 k)
  rw [hkey] at hr
  rw [writeCodeBits, performAccess_write_table_of_idle hr trivial (bits_offset_aligned _ _) hidle, Region.store, hkey]

/-- The writes of the first m words store them in order. -/
theorem performAccesses_writeCodeBits {s : State} (hidle : s.session = .idle) (hwf : s.TablesWf) (c : Sym)
    (word : Nat → Word) {m : Nat} (hm : m ≤ Config.codeWords) :
    ∃ t, performAccesses ((List.range m).map fun k => writeCodeBits c.toNat k (word k)) s = .next t ∧
      CodeBitsLoaded c word m s t := by
  induction m with
  | zero => exact ⟨s, rfl, fun k hk => absurd hk (Nat.not_lt_zero k), fun _ _ _ _ => rfl, rfl, hwf⟩
  | succ m ih =>
    obtain ⟨t, ht, hloaded⟩ := ih (Nat.le_of_succ_le hm)
    have hidle' : t.session = .idle := (congrArg State.session hloaded.frame).trans hidle
    refine ⟨reply .done (storeCodeBits c m (word m) t), ?_, fun k hk => ?_, fun d hd k hk => ?_, hloaded.frame, ?_⟩
    · rw [List.range_succ, List.map_append, performAccesses_append, ht, andThen_next, List.map_singleton,
        performAccesses, performAccess_writeCodeBits hidle' c hm, andThen_next, performAccesses]
    · rcases Nat.lt_succ_iff_lt_or_eq.mp hk with hlt | rfl
      · exact (codeBitsWord_storeCodeBits_other (Nat.lt_trans hlt hm) hm (fun h => Nat.ne_of_lt hlt h.2) _).trans
          (hloaded.own k hlt)
      · exact codeBitsWord_storeCodeBits_same hloaded.tablesWf.2.2 c k _
    · exact (codeBitsWord_storeCodeBits_other hk hm (fun h => hd h.1) _).trans (hloaded.other d hd k hk)
    · obtain ⟨hnode, hlen, hbits⟩ := hloaded.tablesWf
      refine ⟨hnode, hlen, Memory.wf_write _ _ hbits ?_⟩
      have hc := c.isLt
      simp only [codeBitsKey, Config.codeWords, Config.nSym] at hm ⊢
      omega

theorem codeLength_lt (s : State) (c : Sym) : s.codeLength c < 256 := BitVec.isLt _

/-- A symbol's code is read from its CODE_LEN entry and its eight CODE_BITS entries (R33, R34). -/
theorem codeOf_congr {s t : State} {c : Sym} (hlen : t.codeLenWord c = s.codeLenWord c)
    (hbits : ∀ k < Config.codeWords, t.codeBitsWord c k = s.codeBitsWord c k) : t.codeOf c = s.codeOf c := by
  have hlength : t.codeLength c = s.codeLength c := by rw [State.codeLength, hlen, State.codeLength]
  rw [State.codeOf, hlength, State.codeOf]
  refine List.map_congr_left fun j hj => ?_
  have hj := List.mem_range.mp hj
  have hlt := codeLength_lt s c
  rw [State.codeBit, hbits _ (by simp only [Config.codeWords]; omega), State.codeBit]

/-- Entries that hold a length and packed code bits are the code (R34, R101). -/
theorem codeOf_eq_of_packed {s : State} {c : Sym} {bits : List Bool} (hbound : bits.length ≤ Config.lMax)
    (hlen : s.codeLenWord c = BitVec.ofNat 32 bits.length)
    (hbits : ∀ k < (bits.length + 31) / 32, s.codeBitsWord c k = packedWord bits k) : s.codeOf c = bits := by
  have hlength : s.codeLength c = bits.length := by
    simp only [Config.lMax] at hbound
    rw [State.codeLength, hlen, BitVec.extractLsb'_toNat, BitVec.toNat_ofNat, Nat.shiftRight_zero]
    omega
  apply List.ext_getElem
  · rw [codeOf_length, hlength]
  · intro j hj hj'
    simp only [State.codeOf, List.getElem_map, List.getElem_range, State.codeBit]
    rw [hbits _ (by omega), packedWord_getLsbD_div_mod]
    simp [hj']

/-- Settles O58: the CODE_LEN write, then the CODE_BITS writes of the packed code. -/
theorem codeLineLoadsTheCode : Obligations.CodeLineLoadsTheCode := by
  unfold Obligations.CodeLineLoadsTheCode
  intro s c bits hidle hwf hlo hhi
  let u := reply .done (storeCodeLen c (BitVec.ofNat 32 bits.length) s)
  have hlen : performAccess (writeCodeLen c.toNat (BitVec.ofNat 32 bits.length)) s = .next u :=
    performAccess_write_table_of_idle (region_len_entry c) trivial (entry_offset_aligned _ _ rfl) hidle _
  have hwf' : u.TablesWf := tablesWf_store hwf (.lenE c) _
  obtain ⟨t, ht, hloaded⟩ := performAccesses_writeCodeBits (s := u) hidle hwf' c (packedWord bits)
    (m := (bits.length + 31) / 32) (by simp only [Config.codeWords]; omega)
  have hcodeLen (d : Sym) : t.codeLenWord d = u.codeLenWord d :=
    congrArg (fun table : Memory => table.read d.toNat) (congrArg State.codeLen hloaded.frame :)
  refine ⟨t, ?_, codeOf_eq_of_packed hhi ?_ hloaded.own, fun d hd => codeOf_congr ?_ fun k hk => ?_, ?_⟩
  · rw [lineAccesses, performAccesses, hlen, andThen_next, ht]
  · exact (hcodeLen c).trans (codeLenWord_storeCodeLen_same hwf.2.1 c _)
  · exact (hcodeLen d).trans (codeLenWord_storeCodeLen_other hd _)
  · exact hloaded.other d hd k hk
  · exact congrArg (fun x : State => { x with codeLen := s.codeLen, responses := s.responses }) hloaded.frame

end Sys2Proof.Machine
end

section
/-! PROOFS. Well-formed trees (R140, R141, R175, R177): the derived codes are the paths from the root to the leaves, and
the walk accepts exactly their concatenations. -/

namespace Sys2Proof.Machine

/-! ### The derived codes of a well-formed tree -/

section
variable {m : Memory}

/-- With R141 (e) the depth bound of `visit` loses nothing. -/
theorem mem_deriveCodes_of_wellFormed (h : WellFormedTree m) (hroot : kindAt m 0 ≠ .leaf) {c : Sym}
    {code : List Bool} : (c, code) ∈ deriveCodes m ↔ LeadsToLeaf m 0 code c := by
  rw [mem_deriveCodes hroot]
  exact ⟨And.right, fun hpath => ⟨hpath.elim fun i hi => h.depth code i hi.1 hi.2.1, hpath⟩⟩

theorem mem_deriveCodes_of_leaf_root (hroot : kindAt m 0 = .leaf) {x : Sym × List Bool} :
    x ∈ deriveCodes m ↔ x = (symAt m 0, [false]) := by
  rw [deriveCodes_of_leaf_root hroot, List.mem_singleton]

end

/-- Settles O53: a path to a leaf is what `LeadsToLeaf` says. -/
theorem deriveCodesRecordsThePaths : Obligations.DeriveCodesRecordsThePaths := by
  unfold Obligations.DeriveCodesRecordsThePaths
  exact fun m h => ⟨deriveCodes_of_leaf_root, fun hroot _ _ => mem_deriveCodes_of_wellFormed h hroot⟩

/-! ### Nodes below the root -/

section
variable {m : Memory}

/-- A path from the root leads to the node. -/
def Reached (m : Memory) (i : NodeIndex) : Prop := ∃ path, follow m 0 path = some i

theorem reached_root : Reached m 0 := ⟨[], rfl⟩

theorem follow_child {i j : NodeIndex} {path : List Bool} (h : follow m i path = some j)
    (hint : kindAt m j = .internal) (b : Bool) : follow m i (path ++ [b]) = some (childAt m j b) := by
  induction path generalizing i with
  | nil =>
    obtain rfl := Option.some.inj h
    simp [follow, hint]
  | cons d path ih =>
    rw [follow] at h
    split at h
    case isTrue hi => rw [List.cons_append, follow, if_pos hi, ih h]
    case isFalse => exact absurd h (by simp)

theorem Reached.child {i : NodeIndex} (h : Reached m i) (hint : kindAt m i = .internal) (b : Bool) :
    Reached m (childAt m i b) :=
  h.elim fun path hpath => ⟨path ++ [b], follow_child hpath hint b⟩

/-! ### One bit of the walk (R170) -/

theorem branch_of_leaf_child {i : NodeIndex} {b : Bool} (hint : kindAt m i = .internal) (hc : childAt m i b ≠ 0)
    (hleaf : kindAt m (childAt m i b) = .leaf) : branch m i b = .ok (0, some (symAt m (childAt m i b))) := by
  simp only [branch, hint, hleaf, if_neg hc]

theorem branch_of_internal_child {i : NodeIndex} {b : Bool} (hint : kindAt m i = .internal) (hc : childAt m i b ≠ 0)
    (hchild : kindAt m (childAt m i b) = .internal) : branch m i b = .ok (childAt m i b, none) := by
  simp only [branch, hint, hchild, if_neg hc]

theorem branch_false_of_leaf {i : NodeIndex} (h : kindAt m i = .leaf) :
    branch m i false = .ok (i, some (symAt m i)) := by
  simp [branch, h]

theorem branch_true_of_leaf {i : NodeIndex} (h : kindAt m i = .leaf) :
    branch m i true = .error (.malformedPayload, 0x80000000) := by
  simp [branch, h]

theorem walkStar_cons_of_ok {i next : NodeIndex} {b : Bool} {out : Option Sym} (h : branch m i b = .ok (next, out))
    (bs : List Bool) : walkStar m i (b :: bs) =
      ⟨out.toList ++ (walkStar m next bs).syms, (walkStar m next bs).pos, (walkStar m next bs).walked + 1,
        (walkStar m next bs).raised⟩ := by
  simp only [walkStar, h]

/-! ### The walk of a tree that is not a single leaf -/

section
variable (h : WellFormedTree m)
include h

/-- A bit taken at an internal node of a well-formed tree ends a code, at a leaf, or goes one level down (R141 (b)). -/
theorem branch_of_wellFormed {i : NodeIndex} (hi : Reached m i) (hint : kindAt m i = .internal) (b : Bool) :
    (kindAt m (childAt m i b) = .leaf ∧ branch m i b = .ok (0, some (symAt m (childAt m i b)))) ∨
    (kindAt m (childAt m i b) = .internal ∧ childAt m i b ≠ 0 ∧ branch m i b = .ok (childAt m i b, none)) := by
  obtain ⟨path, hpath⟩ := hi
  obtain ⟨hc, hleaf | hchild⟩ := h.children path i hpath hint b
  · exact .inl ⟨hleaf, branch_of_leaf_child hint hc hleaf⟩
  · exact .inr ⟨hchild, hc, branch_of_internal_child hint hc hchild⟩

/-- The path to a leaf emits the leaf's symbol and ends at the root. -/
theorem walkStar_of_leadsToLeaf {i : NodeIndex} (hi : Reached m i) (hint : kindAt m i = .internal) {path : List Bool}
    {c : Sym} (hpath : LeadsToLeaf m i path c) : walkStar m i path = ⟨[c], 0, path.length, none⟩ := by
  induction path generalizing i with
  | nil =>
    have hleaf := (leadsToLeaf_nil.mp hpath).1
    simp [hint] at hleaf
  | cons b path ih =>
    have hrest := (leadsToLeaf_cons.mp hpath).2
    rcases branch_of_wellFormed h hi hint b with ⟨hleaf, hb⟩ | ⟨hchild, -, hb⟩
    · obtain ⟨rfl, rfl⟩ := (leadsToLeaf_of_leaf hleaf).mp hrest
      rw [walkStar_cons_of_ok hb]
      rfl
    · rw [walkStar_cons_of_ok hb, ih (hi.child hint b) hchild hrest]
      rfl

variable (hroot : kindAt m 0 ≠ .leaf)
include hroot

theorem root_internal : kindAt m 0 = .internal := h.root.resolve_left hroot

theorem walkStar_raised_none {i : NodeIndex} (hi : Reached m i) (hint : kindAt m i = .internal) (P : List Bool) :
    (walkStar m i P).raised = none := by
  induction P generalizing i with
  | nil => rfl
  | cons b bs ih =>
    rcases branch_of_wellFormed h hi hint b with ⟨-, hb⟩ | ⟨hchild, -, hb⟩
    · rw [walkStar_cons_of_ok hb]
      exact ih reached_root (root_internal h hroot)
    · rw [walkStar_cons_of_ok hb]
      exact ih (hi.child hint b) hchild

/-- Bits whose walk ends at the root are the rest of a path to a leaf, and then paths from the root to leaves. -/
theorem paths_of_walkStar_pos {i : NodeIndex} (hi : Reached m i) (hint : kindAt m i = .internal) {P : List Bool}
    (hpos : (walkStar m i P).pos = 0) :
    (P = [] ∧ i = 0) ∨ ∃ (path : List Bool) (c : Sym) (codes : List (Sym × List Bool)),
      LeadsToLeaf m i path c ∧ (∀ x ∈ codes, LeadsToLeaf m 0 x.2 x.1) ∧ P = path ++ codes.flatMap (·.2) := by
  induction P generalizing i with
  | nil => exact .inl ⟨rfl, hpos⟩
  | cons b bs ih =>
    right
    rcases branch_of_wellFormed h hi hint b with ⟨hleaf, hb⟩ | ⟨hchild, hc, hb⟩
    · rw [walkStar_cons_of_ok hb] at hpos
      have hpath : LeadsToLeaf m i [b] (symAt m (childAt m i b)) := by simp [hint, hleaf]
      rcases ih reached_root (root_internal h hroot) hpos with ⟨rfl, -⟩ | ⟨path, c, codes, hfirst, hcodes, rfl⟩
      · exact ⟨[b], _, [], hpath, by simp, rfl⟩
      · exact ⟨[b], _, (c, path) :: codes, hpath, List.forall_mem_cons.mpr ⟨hfirst, hcodes⟩, rfl⟩
    · rw [walkStar_cons_of_ok hb] at hpos
      rcases ih (hi.child hint b) hchild hpos with ⟨-, hzero⟩ | ⟨path, c, codes, hfirst, hcodes, rfl⟩
      · exact absurd hzero hc
      · exact ⟨b :: path, c, codes, leadsToLeaf_cons.mpr ⟨hint, hfirst⟩, hcodes, rfl⟩

theorem codes_of_walkStar_pos {P : List Bool} (hpos : (walkStar m 0 P).pos = 0) :
    ∃ codes : List (Sym × List Bool), (∀ x ∈ codes, x ∈ deriveCodes m) ∧ P = codes.flatMap (·.2) := by
  rcases paths_of_walkStar_pos h hroot reached_root (root_internal h hroot) hpos with
    ⟨rfl, -⟩ | ⟨path, c, codes, hfirst, hcodes, rfl⟩
  · exact ⟨[], by simp, rfl⟩
  · have hderived : ∀ x ∈ codes, x ∈ deriveCodes m :=
      fun x hx => (mem_deriveCodes_of_wellFormed h hroot).mpr (hcodes x hx)
    exact ⟨(c, path) :: codes,
      List.forall_mem_cons.mpr ⟨(mem_deriveCodes_of_wellFormed h hroot).mpr hfirst, hderived⟩, rfl⟩

end

/-! ### The walk of a single leaf (R177) -/

section
variable (hroot : kindAt m 0 = .leaf)
include hroot

theorem walkStar_zeros_of_leaf (zeros : Nat) (rest : List Bool) :
    walkStar m 0 (List.replicate zeros false ++ true :: rest) =
      ⟨List.replicate zeros (symAt m 0), 0, zeros, some (.malformedPayload, 0x80000000)⟩ := by
  induction zeros with
  | zero =>
    rw [List.replicate_zero, List.nil_append, walkStar, branch_true_of_leaf hroot]
    rfl
  | succ zeros ih =>
    rw [List.replicate_succ, List.cons_append, walkStar_cons_of_ok (branch_false_of_leaf hroot), ih]
    rfl

/-- Bits without a 1 are the leaf's code over and over; the first 1 stops the walk. -/
theorem codes_or_malformed_of_leaf (P : List Bool) :
    (∃ codes : List (Sym × List Bool), (∀ x ∈ codes, x ∈ deriveCodes m) ∧ P = codes.flatMap (·.2)) ∨
    (walkStar m 0 P).raised = some (.malformedPayload, 0x80000000) := by
  induction P with
  | nil => exact .inl ⟨[], by simp, rfl⟩
  | cons b bs ih =>
    cases b with
    | true => exact .inr (by rw [walkStar, branch_true_of_leaf hroot])
    | false =>
      rcases ih with ⟨codes, hcodes, rfl⟩ | hraised
      · refine .inl ⟨(symAt m 0, [false]) :: codes, List.forall_mem_cons.mpr ⟨?_, hcodes⟩, rfl⟩
        exact (mem_deriveCodes_of_leaf_root hroot).mpr rfl
      · rw [walkStar_cons_of_ok (branch_false_of_leaf hroot)]
        exact .inr hraised

end

/-! ### The walk of derived codes -/

section
variable (h : WellFormedTree m)
include h

/-- A derived code emits its symbol and ends at the root, on either kind of tree. -/
theorem walkStar_code {x : Sym × List Bool} (hx : x ∈ deriveCodes m) :
    walkStar m 0 x.2 = ⟨[x.1], 0, x.2.length, none⟩ := by
  by_cases hroot : kindAt m 0 = .leaf
  · obtain rfl := (mem_deriveCodes_of_leaf_root hroot).mp hx
    rw [walkStar_cons_of_ok (branch_false_of_leaf hroot)]
    rfl
  · exact walkStar_of_leadsToLeaf h reached_root (root_internal h hroot)
      ((mem_deriveCodes_of_wellFormed h hroot).mp hx)

theorem walkStar_codes {codes : List (Sym × List Bool)} (hcodes : ∀ x ∈ codes, x ∈ deriveCodes m) :
    walkStar m 0 (codes.flatMap (·.2)) = ⟨codes.map (·.1), 0, (codes.flatMap (·.2)).length, none⟩ := by
  induction codes with
  | nil => rfl
  | cons x codes ih =>
    obtain ⟨hx, hrest⟩ := List.forall_mem_cons.mp hcodes
    have hcode := walkStar_code h hx
    rw [List.flatMap_cons, walkStar_append_of_not_raised _ _ (by rw [hcode]), hcode, ih hrest]
    simp

end
end

/-- Settles O55: the two kinds of tree are taken apart where they differ, at what stops a walk. -/
theorem wellFormedTreeWalks : Obligations.WellFormedTreeWalks := by
  unfold Obligations.WellFormedTreeWalks
  intro m h
  refine ⟨fun P info => ?neverInvalid, fun P => ⟨fun ⟨hraised, hpos⟩ => ?accepted, ?accepts⟩,
    fun codes hcodes => by rw [walkStar_codes h hcodes],
    fun hroot P => walkStar_raised_none h hroot reached_root (root_internal h hroot) P,
    fun hroot zeros rest => walkStar_zeros_of_leaf hroot zeros rest⟩
  case neverInvalid =>
    by_cases hroot : kindAt m 0 = .leaf
    · rcases codes_or_malformed_of_leaf hroot P with ⟨codes, hcodes, rfl⟩ | hraised
      · rw [walkStar_codes h hcodes]
        simp
      · rw [hraised]
        simp
    · rw [walkStar_raised_none h hroot reached_root (root_internal h hroot) P]
      simp
  case accepted =>
    by_cases hroot : kindAt m 0 = .leaf
    · rcases codes_or_malformed_of_leaf hroot P with hcodes | hmalformed
      · exact hcodes
      · rw [hmalformed] at hraised
        simp at hraised
    · exact codes_of_walkStar_pos h hroot hpos
  case accepts =>
    rintro ⟨codes, hcodes, rfl⟩
    rw [walkStar_codes h hcodes]
    exact ⟨rfl, rfl⟩

end Sys2Proof.Machine
end

section
/-! PROOFS. Runs of a session (R147, R175, R247): events one at a time, the host's reads among its writes, and what
happens after a session has ended. -/

namespace Sys2Proof.Machine

/-! ### Events one at a time -/

theorem performEvents_append (xs ys : List BusEvent) (s : State) :
    performEvents (xs ++ ys) s = andThen (performEvents xs s) (performEvents ys) := by
  induction xs generalizing s with
  | nil => rfl
  | cons e xs ih =>
    obtain ⟨t, ht⟩ := performEvent_next e s
    rw [List.cons_append, performEvents, performEvents, ht, andThen_next, andThen_next, ih]

theorem performEvents_cons {e : BusEvent} {s t : State} (h : performEvent e s = .next t) (es : List BusEvent) :
    performEvents (e :: es) s = performEvents es t := by
  rw [performEvents, h, andThen_next]

/-- An event is its single events in order (R62). -/
theorem performEvents_singles (e : BusEvent) (s : State) : performEvents e.singles s = performEvent e s := by
  obtain ⟨t, ht⟩ := performEvent_next e s
  cases e with
  | burst beats =>
    rw [BusEvent.singles]
    split
    case isTrue hall => rw [performEvents_map_access, performEvent, if_pos hall]
    case isFalse => rw [performEvents_cons ht, performEvents, ht]
  | access a => rw [singles_access, performEvents_cons ht, performEvents, ht]
  | reset => rw [singles_reset, performEvents_cons ht, performEvents, ht]

theorem performEvents_singleEvents (es : List BusEvent) (s : State) :
    performEvents (singleEvents es) s = performEvents es s := by
  induction es generalizing s with
  | nil => rfl
  | cons e es ih =>
    rw [singleEvents_cons, performEvents_append, performEvents_singles, performEvents, funext ih]

/-- The event is a single one: no admitted burst. -/
def BusEvent.IsSingle (e : BusEvent) : Prop := e.singles = [e]

theorem isSingle_of_mem_singleEvents {es : List BusEvent} {e : BusEvent} (h : e ∈ singleEvents es) : e.IsSingle := by
  obtain ⟨d, -, hd⟩ := List.mem_flatMap.mp h
  cases d with
  | access a =>
    rw [singles_access, List.mem_singleton] at hd
    exact hd ▸ rfl
  | reset =>
    rw [singles_reset, List.mem_singleton] at hd
    exact hd ▸ rfl
  | burst beats =>
    by_cases hall : beats.all Access.admitted = true
    · rw [BusEvent.singles, if_pos hall] at hd
      obtain ⟨a, -, rfl⟩ := List.mem_map.mp hd
      rfl
    · rw [BusEvent.singles, if_neg hall, List.mem_singleton] at hd
      subst hd
      exact if_neg hall

theorem refused_of_isSingle {beats : List Access} (h : (BusEvent.burst beats).IsSingle) :
    beats.all Access.admitted = false := by
  by_contra hall
  rw [Bool.not_eq_false] at hall
  rw [BusEvent.IsSingle, BusEvent.singles, if_pos hall] at h
  have hmem : BusEvent.burst beats ∈ beats.map BusEvent.access := h ▸ List.mem_singleton_self _
  simp at hmem

/-! ### What the host takes -/

theorem taken_append {α : Type} {takes : BusEvent → State → List α} {xs : List BusEvent} {s t : State}
    (h : performEvents xs s = .next t) (ys : List BusEvent) :
    taken takes (xs ++ ys) s = taken takes xs s ++ taken takes ys t := by
  induction xs generalizing s with
  | nil =>
    obtain rfl := Host.Outcome.next.inj h
    rfl
  | cons e xs ih =>
    obtain ⟨u, hu⟩ := performEvent_next e s
    rw [performEvents_cons hu] at h
    rw [List.cons_append, taken_cons hu, taken_cons hu, ih h, List.append_assoc]

theorem reads_of_not_isRead {e : BusEvent} (h : e.isRead = false) (r : Reg) : e.reads r = false := by
  cases e with
  | access a =>
    cases a with
    | read size off => simp [BusEvent.isRead] at h
    | write size off v => rfl
  | _ => rfl

theorem symTaken_of_not_reads {e : BusEvent} (h : e.reads .symOut = false) (s : State) : symTaken e s = [] := by
  rw [symTaken, h]
  rfl

theorem wordTaken_of_not_reads {e : BusEvent} (h : e.reads .wordOut = false) (s : State) : wordTaken e s = [] := by
  rw [wordTaken, h]
  rfl

/-! ### Events that only take -/

/-- The state with other DATA, queues and answers. -/
def State.served (s : State) (data : Word) (symq : List Sym) (wordq : List Word) (responses : List Response) : State :=
  { s with data := data, symq := symq, wordq := wordq, responses := responses }

/-- The event takes what it removes from the queues, and changes nothing else but the answers and, if it is no read,
DATA. -/
def OnlyTakes (e : BusEvent) (s : State) : Prop :=
  ∃ data symq wordq responses, performEvent e s = .next (s.served data symq wordq responses) ∧
    (e.isRead = true → data = s.data) ∧ symTaken e s ++ symq = s.symq ∧ wordTaken e s ++ wordq = s.wordq

theorem onlyTakes_of_reply {e : BusEvent} {s : State} {r : Response} (hsym : e.reads .symOut = false)
    (hword : e.reads .wordOut = false) (h : performEvent e s = .next (reply r s)) : OnlyTakes e s := by
  refine ⟨s.data, s.symq, s.wordq, s.responses ++ [r], h, fun _ => rfl, ?_, ?_⟩
  · rw [symTaken_of_not_reads hsym, List.nil_append]
  · rw [wordTaken_of_not_reads hword, List.nil_append]

section
variable {off : Offset} (h4 : off.toNat % 4 = 0)
include h4

theorem reads_access_iff {r : Reg} : BusEvent.reads r (.access (.read 4 off)) = true ↔ region off = .reg r := by
  have hadm : admitted 4 off = true := admitted_eq_true.mpr ⟨rfl, h4⟩
  rw [BusEvent.reads, hadm, Bool.true_and, beq_iff_eq]

/-- A read of SYM_OUT takes SYMQ's head, if there is one (R41). -/
theorem onlyTakes_symOut (hr : region off = .reg .symOut) (s : State) : OnlyTakes (.access (.read 4 off)) s := by
  have hperform := performAccess_read_reg h4 hr s
  dsimp only [readReg] at hperform
  have hsym : symTaken (.access (.read 4 off)) s = s.symq.take 1 := if_pos ((reads_access_iff h4).mpr hr)
  have hword : wordTaken (.access (.read 4 off)) s = [] := if_neg (by simp [reads_access_iff h4, hr])
  rw [OnlyTakes, hsym, hword]
  rcases hq : s.symq with _ | ⟨c, q⟩
  · rw [readSymOut_of_empty hq] at hperform
    exact ⟨s.data, [], s.wordq, _, hperform.trans (by rw [State.served, ← hq]; rfl), fun _ => rfl, rfl, rfl⟩
  · rw [readSymOut_of_cons hq] at hperform
    exact ⟨s.data, q, s.wordq, _, hperform, fun _ => rfl, rfl, rfl⟩

/-- A read of WORD_OUT takes WORDQ's head, if there is one (R42). -/
theorem onlyTakes_wordOut (hr : region off = .reg .wordOut) (s : State) : OnlyTakes (.access (.read 4 off)) s := by
  have hperform := performAccess_read_reg h4 hr s
  dsimp only [readReg] at hperform
  have hword : wordTaken (.access (.read 4 off)) s = s.wordq.take 1 := if_pos ((reads_access_iff h4).mpr hr)
  have hsym : symTaken (.access (.read 4 off)) s = [] := if_neg (by simp [reads_access_iff h4, hr])
  rw [OnlyTakes, hsym, hword]
  rcases hq : s.wordq with _ | ⟨w, q⟩
  · rw [readWordOut_of_empty hq] at hperform
    exact ⟨s.data, s.symq, [], _, hperform.trans (by rw [State.served, ← hq]; rfl), fun _ => rfl, rfl, rfl⟩
  · rw [readWordOut_of_cons hq] at hperform
    exact ⟨s.data, s.symq, q, _, hperform, fun _ => rfl, rfl, rfl⟩

end

/-- Every read only takes (R41, R42, R62, R64). -/
theorem onlyTakes_of_isRead {e : BusEvent} (hsingle : e.IsSingle) (hread : e.isRead = true) (s : State) :
    OnlyTakes e s := by
  cases e with
  | reset => simp [BusEvent.isRead] at hread
  | burst beats => exact onlyTakes_of_reply rfl rfl (performEvent_of_refused_burst (refused_of_isSingle hsingle) s)
  | access a =>
    cases a with
    | write size off v => simp [BusEvent.isRead] at hread
    | read size off =>
      rcases hadm : (Access.read size off).admitted with _ | _
      · have hreads (r : Reg) : BusEvent.reads r (.access (.read size off)) = false := by
          rw [BusEvent.reads, show admitted size off = false from hadm, Bool.false_and]
        exact onlyTakes_of_reply (hreads _) (hreads _) (performAccess_of_not_admitted hadm s)
      obtain ⟨rfl, h4⟩ := admitted_eq_true.mp hadm
      by_cases hsym : region off = .reg .symOut
      · exact onlyTakes_symOut h4 hsym s
      by_cases hword : region off = .reg .wordOut
      · exact onlyTakes_wordOut h4 hword s
      · have hperform := performAccess_read h4 s
        rw [memRead_snd hsym hword] at hperform
        exact onlyTakes_of_reply (by simp [← Bool.not_eq_true, reads_access_iff h4, hsym])
          (by simp [← Bool.not_eq_true, reads_access_iff h4, hword]) hperform

/-- A session has ended with an error, which is recorded. -/
structure Failed (s : State) : Prop where
  session : s.session = .idle
  done : s.done = false
  err : s.err ≠ .none

/-- The write of DATA, or of a command that IDLE refuses. -/
def BusEvent.RefusedInIdle (e : BusEvent) : Prop :=
  (∃ v, e = .access (.write 4 dataOffset v)) ∨ ∃ i, e = command i ∧ allowed i .idle = false

/-- Once a session has failed, the rest of its writes change nothing but DATA (R123, R201). -/
theorem onlyTakes_of_refusedInIdle {e : BusEvent} (he : e.RefusedInIdle) {s : State} (hs : Failed s) :
    OnlyTakes e s := by
  rcases he with ⟨v, rfl⟩ | ⟨i, rfl, hi⟩
  · exact ⟨v, s.symq, s.wordq, _, performAccess_write_data v s,
      fun hread => by simp [BusEvent.isRead] at hread, rfl, rfl⟩
  · refine onlyTakes_of_reply (r := .done) rfl rfl ?_
    rw [command, performEvent, performAccess_commandWrite, exec_not_allowed (by rw [hs.session, hi]),
      record_of_recorded hs.session hs.done hs.err, andThen_next]

/-! ### Runs of such events -/

/-- The run takes these symbols and words from s to t, and changes nothing else but the answers and, if not all of it
are reads, DATA. -/
structure QuietRun (es : List BusEvent) (s t : State) (syms : List Sym) (words : List Word) : Prop where
  run : performEvents es s = .next t
  syms_eq : taken symTaken es s = syms
  words_eq : taken wordTaken es s = words
  served : ∃ data symq wordq responses, t = s.served data symq wordq responses ∧
    ((∀ e ∈ es, e.isRead = true) → data = s.data) ∧ syms ++ symq = s.symq ∧ words ++ wordq = s.wordq

theorem exists_quietRun {es : List BusEvent} (hsingle : ∀ e ∈ es, e.IsSingle) {s : State}
    (hquiet : ∀ e ∈ es, e.isRead = true ∨ (e.RefusedInIdle ∧ Failed s)) :
    ∃ t syms words, QuietRun es s t syms words := by
  induction es generalizing s with
  | nil => exact ⟨s, [], [], rfl, rfl, rfl, s.data, s.symq, s.wordq, s.responses, rfl, fun _ => rfl, rfl, rfl⟩
  | cons e es ih =>
    obtain ⟨hsingle₁, hsingle⟩ := List.forall_mem_cons.mp hsingle
    obtain ⟨hquiet₁, hquiet⟩ := List.forall_mem_cons.mp hquiet
    have htakes : OnlyTakes e s := by
      rcases hquiet₁ with hread | ⟨hrefused, hfailed⟩
      · exact onlyTakes_of_isRead hsingle₁ hread s
      · exact onlyTakes_of_refusedInIdle hrefused hfailed
    obtain ⟨data, symq, wordq, responses, he, hdata, hsym, hword⟩ := htakes
    have hquiet' : ∀ d ∈ es, d.isRead = true ∨ (d.RefusedInIdle ∧ Failed (s.served data symq wordq responses)) :=
      fun d hd => (hquiet d hd).imp_right fun h => ⟨h.1, h.2.session, h.2.done, h.2.err⟩
    obtain ⟨t, syms, words, hrun, hsyms, hwords, data', symq', wordq', responses', rfl, hdata', hsym', hword'⟩ :=
      ih hsingle hquiet'
    refine ⟨_, symTaken e s ++ syms, wordTaken e s ++ words, (performEvents_cons he es).trans hrun, ?_, ?_,
      data', symq', wordq', responses', rfl, fun hreads => ?_, ?_, ?_⟩
    · rw [taken_cons he, hsyms]
    · rw [taken_cons he, hwords]
    · obtain ⟨hread₁, hread⟩ := List.forall_mem_cons.mp hreads
      exact (hdata' hread).trans (hdata hread₁)
    · rw [List.append_assoc, hsym']
      exact hsym
    · rw [List.append_assoc, hword']
      exact hword

/-- Events that leave an open session open hand its verdict on, with what they took. -/
theorem openVerdict_append {xs : List BusEvent} (hsingle : ∀ e ∈ xs, e.IsSingle) (hread : ∀ e ∈ xs, e.isRead = true)
    {s t : State} (hopen : s.session ≠ .idle) (h : performEvents xs s = .next t) (syms : List Sym) (words : List Word)
    (ys : List BusEvent) : openVerdict syms words (xs ++ ys) s =
      openVerdict (syms ++ taken symTaken xs s) (words ++ taken wordTaken xs s) ys t := by
  induction xs generalizing s syms words with
  | nil =>
    obtain rfl := Host.Outcome.next.inj h
    simp
  | cons e xs ih =>
    obtain ⟨hsingle₁, hsingle⟩ := List.forall_mem_cons.mp hsingle
    obtain ⟨hread₁, hread⟩ := List.forall_mem_cons.mp hread
    obtain ⟨data, symq, wordq, responses, he, -⟩ := onlyTakes_of_isRead hsingle₁ hread₁ s
    rw [performEvents_cons he] at h
    rw [List.cons_append, openVerdict_goes_on he hopen,
      ih (s := s.served data symq wordq responses) hsingle hread hopen h, taken_cons he, taken_cons he,
      List.append_assoc, List.append_assoc]

/-! ### The script among the reads -/

/-- Single events whose writes are the script's, in order. -/
structure HasWrites (es : List BusEvent) (script : List BusEvent) : Prop where
  singles : ∀ e ∈ es, e.IsSingle
  writes : es.filter (fun e => !e.isRead) = script

theorem hasWrites_of_writesOf {events script : List BusEvent} (h : writesOf events = script) :
    HasWrites (singleEvents events) script :=
  ⟨fun _ he => isSingle_of_mem_singleEvents he, h⟩

/-- With no write left, or none that a failed session does not refuse, the run is quiet. -/
theorem HasWrites.quietRun {es script : List BusEvent} (h : HasWrites es script) {s : State}
    (hscript : ∀ e ∈ script, e.RefusedInIdle ∧ Failed s) : ∃ t syms words, QuietRun es s t syms words := by
  refine exists_quietRun h.singles fun e he => ?_
  rcases hread : e.isRead with _ | _
  · exact .inr (hscript e (h.writes ▸ List.mem_filter.mpr ⟨he, by simp [hread]⟩))
  · exact .inl rfl

/-- Reads that take these symbols and words lead from s to t. -/
def ReadTo (s t : State) (syms : List Sym) (words : List Word) : Prop :=
  ∃ symq wordq responses, t = s.served s.data symq wordq responses ∧ syms ++ symq = s.symq ∧ words ++ wordq = s.wordq

/-- The run from s up to and past a write `x`: what comes before it leads to `before`, with these symbols and words
taken, the write leads to `after`, and `rest` is still to come. -/
structure UpToWrite (es : List BusEvent) (s : State) (x : BusEvent) (rest : List BusEvent) (before after : State)
    (syms : List Sym) (words : List Word) : Prop where
  write : performEvent x before = .next after
  run : performEvents es s = performEvents rest after
  syms_eq : taken symTaken es s = syms ++ taken symTaken rest after
  words_eq : taken wordTaken es s = words ++ taken wordTaken rest after
  verdict : s.session ≠ .idle → ∀ syms' words',
    openVerdict syms' words' es s = openVerdict (syms' ++ syms) (words' ++ words) (x :: rest) before

theorem HasWrites.firstWrite {es script : List BusEvent} {x : BusEvent} (h : HasWrites es (x :: script)) (s : State) :
    ∃ rest before after syms words, HasWrites rest script ∧ ReadTo s before syms words ∧
      UpToWrite es s x rest before after syms words := by
  obtain ⟨reads, rest, rfl, hreads, hx, hrest⟩ := List.filter_eq_cons_iff.mp h.writes
  obtain ⟨hsingles, hsingles'⟩ := List.forall_mem_append.mp h.singles
  have hread : ∀ e ∈ reads, e.isRead = true := fun e he => by simpa using hreads e he
  have hxread : x.isRead = false := by simpa using hx
  obtain ⟨before, syms, words, hquiet⟩ := exists_quietRun hsingles (s := s) fun e he => .inl (hread e he)
  obtain ⟨after, hafter⟩ := performEvent_next x before
  obtain ⟨data, symq, wordq, responses, hserved, hdata, hsym, hword⟩ := hquiet.served
  refine ⟨rest, before, after, syms, words, ⟨fun e he => hsingles' e (List.mem_cons_of_mem _ he), hrest⟩,
    ⟨symq, wordq, responses, hdata hread ▸ hserved, hsym, hword⟩,
    ⟨hafter, ?_, ?_, ?_, fun hopen syms' words' => ?_⟩⟩
  · rw [performEvents_append, hquiet.run, andThen_next, performEvents_cons hafter]
  · rw [taken_append hquiet.run, hquiet.syms_eq, taken_cons hafter,
      symTaken_of_not_reads (reads_of_not_isRead hxread _), List.nil_append]
  · rw [taken_append hquiet.run, hquiet.words_eq, taken_cons hafter,
      wordTaken_of_not_reads (reads_of_not_isRead hxread _), List.nil_append]
  · rw [openVerdict_append hsingles hread hopen hquiet.run, hquiet.syms_eq, hquiet.words_eq]

/-- One write and then another, where the first leaves the session open. -/
theorem UpToWrite.trans {es rest rest' : List BusEvent} {x y : BusEvent} {s before after before' after' : State}
    {syms syms' : List Sym} {words words' : List Word} (hx : x.isRead = false) (hopen : after.session ≠ .idle)
    (h : UpToWrite es s x rest before after syms words)
    (h' : UpToWrite rest after y rest' before' after' syms' words') :
    UpToWrite es s y rest' before' after' (syms ++ syms') (words ++ words') where
  write := h'.write
  run := h.run.trans h'.run
  syms_eq := by rw [h.syms_eq, h'.syms_eq, List.append_assoc]
  words_eq := by rw [h.words_eq, h'.words_eq, List.append_assoc]
  verdict hs syms₀ words₀ := by
    rw [h.verdict hs, openVerdict_goes_on h.write hopen, h'.verdict hopen,
      symTaken_of_not_reads (reads_of_not_isRead hx _), wordTaken_of_not_reads (reads_of_not_isRead hx _),
      List.append_nil, List.append_nil, List.append_assoc, List.append_assoc]

/-! ### The command that opens the session -/

theorem performEvent_command (i : Instr) (s : State) :
    performEvent (command i) s = andThen (exec i s) fun t => .next (reply .done t) :=
  performAccess_commandWrite i s

theorem singleEvents_command_cons (i : Instr) (body : List BusEvent) :
    singleEvents (command i :: body) = command i :: singleEvents body := rfl

/-- A START in IDLE, as an event. -/
theorem performEvent_start {i : Instr} {s : State} {x : Session}
    (h : exec i s = .next { sessionClear s with session := x }) :
    performEvent (command i) s = .next (reply .done { sessionClear s with session := x }) := by
  rw [performEvent_command, h, andThen_next]

section
variable {i : Instr} {s t : State} (h : performEvent (command i) s = .next t) (body : List BusEvent)
include h

theorem performEvents_after_command : performEvents (command i :: body) s = performEvents (singleEvents body) t := by
  rw [performEvents_cons h, performEvents_singleEvents]

theorem symsTaken_after_command : symsTaken (command i :: body) s = taken symTaken (singleEvents body) t := by
  rw [symsTaken, singleEvents_command_cons, taken_cons h, symTaken_of_not_reads rfl, List.nil_append]

theorem wordsTaken_after_command : wordsTaken (command i :: body) s = taken wordTaken (singleEvents body) t := by
  rw [wordsTaken, singleEvents_command_cons, taken_cons h, wordTaken_of_not_reads rfl, List.nil_append]

theorem sessionVerdict_after_command (hidle : s.session = .idle) (hopen : t.session ≠ .idle) :
    sessionVerdict (command i :: body) s = openVerdict [] [] (singleEvents body) t := by
  rw [sessionVerdict, singleEvents_command_cons, firstVerdict, h]
  exact if_pos ⟨hidle, hopen⟩

end

end Sys2Proof.Machine
end

section
/-! PROOFS. The encode-session law (R147, R247): the words read and queued are at every point the whole words of the
codes encoded so far, wherever the host's reads stand. -/

namespace Sys2Proof.Machine

/-! ### The words pushed, the ones read included -/

/-- The state as it were if the host had not read these words. -/
def State.logged (words : List Word) (s : State) : State := { s with wordq := words ++ s.wordq }

theorem appendBit_logged (words : List Word) (s : State) (b : Bool) :
    appendBit (s.logged words) b = (appendBit s b).logged words := by
  by_cases hfull : s.accN = 31
  · simp only [appendBit, if_pos hfull, State.logged, pushWord_wordq, countOut_wordq, List.append_assoc]
    rfl
  · have hfull' : (s.logged words).accN ≠ 31 := hfull
    simp only [appendBit, if_neg hfull, if_neg hfull']
    rfl

theorem appendBits_logged (words : List Word) (s : State) (bits : List Bool) :
    appendBits (s.logged words) bits = (appendBits s bits).logged words := by
  induction bits generalizing s with
  | nil => rfl
  | cons b bs ih => rw [appendBits_cons, appendBit_logged, ih, appendBits_cons]

/-- With the held bits pushed, WORDQ holds the payload words of the whole stream (R40, R146). -/
theorem Accumulated.flushPartial_wordq {s : State} {before : List Word} {stream : List Bool}
    (h : Accumulated s before stream) : (flushPartial s).wordq = before ++ payloadWords stream := by
  have hn := h.accN
  by_cases hheld : s.accN = 0
  · rw [hheld] at hn
    have hlen : (stream.length + 31) / 32 = stream.length / 32 := by
      have h0 : (0 : BitVec 5).toNat = 0 := rfl
      rw [h0] at hn
      omega
    rw [flushPartial, if_pos hheld, h.wordq, payloadWords, hlen]
  · have hne : s.accN.toNat ≠ 0 := fun h0 => hheld (BitVec.eq_of_toNat_eq h0)
    have hlen : (stream.length + 31) / 32 = stream.length / 32 + 1 := by omega
    rw [flushPartial, if_neg hheld, payloadWords, hlen, List.range_succ, List.map_append, List.map_singleton, ← h.acc,
      ← List.append_assoc, ← h.wordq]
    rfl

theorem flushPartial_logged_wordq (words : List Word) (s : State) :
    (flushPartial (s.logged words)).wordq = words ++ (flushPartial s).wordq := by
  by_cases hheld : s.accN = 0
  · rw [flushPartial, if_pos (show (s.logged words).accN = 0 from hheld), flushPartial, if_pos hheld]
    rfl
  · rw [flushPartial, if_neg (show (s.logged words).accN ≠ 0 from hheld), flushPartial, if_neg hheld]
    exact List.append_assoc ..

theorem sat32_add (n m : Nat) : sat32 ((sat32 n).toNat + m) = sat32 (n + m) := by
  simpa using sat32_sat32_add 0 n m

theorem sat32_ne_zero {n : Nat} (h : n ≠ 0) : sat32 n ≠ 0 := by
  intro hzero
  have hnat := congrArg BitVec.toNat hzero
  rw [sat32_toNat] at hnat
  simp [h] at hnat

/-- A code is read from the two code tables. -/
theorem codeOf_of_tables {s t : State} (hlen : t.codeLen = s.codeLen) (hbits : t.codeBits = s.codeBits) (c : Sym) :
    t.codeOf c = s.codeOf c :=
  codeOf_congr (by rw [State.codeLenWord, hlen, State.codeLenWord])
    fun k _ => by rw [State.codeBitsWord, hbits, State.codeBitsWord]

/-! ### The state of an encode session -/

/-- The state after the symbols `before`, the host having read `words` (R142, R145). -/
structure EncState (code : Sym → List Bool) (before : List Sym) (words : List Word) (s : State) : Prop where
  session : s.session = .enc
  err : s.err = .none
  codes : ∀ c, s.codeOf c = code c
  inCnt : s.inCnt = sat32 before.length
  outCnt : s.outCnt = sat32 (before.flatMap code).length
  held : Accumulated (s.logged words) [] (before.flatMap code)

section
variable {code : Sym → List Bool} {before : List Sym} {words : List Word} {s : State}

theorem encState_start (s : State) : EncState s.codeOf [] [] (reply .done { sessionClear s with session := .enc }) where
  session := rfl
  err := rfl
  codes _ := rfl
  inCnt := rfl
  outCnt := rfl
  held := ⟨rfl, by simp [State.logged, packedWord], by simp [State.logged]⟩

theorem EncState.served (h : EncState code before words s) {data : Word} {symq : List Sym} {words' wordq : List Word}
    {responses : List Response} (hwords : words' ++ wordq = s.wordq) :
    EncState code before (words ++ words') (s.served data symq wordq responses) :=
  { h with
    codes := h.codes
    held := ⟨h.held.accN, h.held.acc, by
      rw [← h.held.wordq, State.logged, State.logged, ← hwords]
      exact List.append_assoc ..⟩ }

/-- One more symbol (R145). -/
theorem EncState.encodeSym (h : EncState code before words s) (c : Sym) :
    EncState code (before ++ [c]) words (reply .done (countIn (appendBits s (s.codeOf c)))) where
  session := by simp [h.session]
  err := by simp [h.err]
  codes d := (codeOf_of_tables (by simp) (by simp) d).trans (h.codes d)
  inCnt := by
    rw [reply_inCnt, countIn_inCnt, appendBits_inCnt, h.inCnt, satInc_sat32, List.length_append, List.length_singleton]
  outCnt := by
    rw [reply_outCnt, countIn_outCnt, appendBits_outCnt, h.outCnt, sat32_add, h.codes, List.flatMap_append,
      List.length_append, List.flatMap_singleton]
  held := by
    have hheld := h.held.appendBits (s.codeOf c)
    rw [appendBits_logged] at hheld
    rw [List.flatMap_append, List.flatMap_singleton, ← h.codes c]
    exact ⟨hheld.accN, hheld.acc, hheld.wordq⟩

/-- The session's words with the held bits pushed (R146). -/
theorem EncState.flushed_words (h : EncState code before words s) :
    words ++ (flushPartial s).wordq = payloadWords (before.flatMap code) := by
  rw [← flushPartial_logged_wordq, h.held.flushPartial_wordq, List.nil_append]

end

/-! ### After an error -/

/-- The failed session's error is the one recorded at the end, whatever of its script is still to come (R201). -/
theorem HasWrites.err_of_failed {es script : List BusEvent} (h : HasWrites es script)
    (hscript : ∀ e ∈ script, e.RefusedInIdle) {s t : State} (hs : Failed s) (hrun : performEvents es s = .next t) :
    t.err = s.err := by
  obtain ⟨u, syms, words, hquiet⟩ := h.quietRun fun e he => ⟨hscript e he, hs⟩
  obtain ⟨data, symq, wordq, responses, hserved, -⟩ := hquiet.served
  obtain rfl := Host.Outcome.next.inj (hquiet.run.symm.trans hrun)
  rw [hserved]
  rfl

theorem failed_record {e : ErrCode} (he : e ≠ .none) (info : Word) (r : Response) (s : State) :
    Failed (reply r (record e info s)) :=
  ⟨rfl, rfl, record_err_ne_none he info s⟩

theorem encodeScript_refusedInIdle (text : List Sym) : ∀ e ∈ encodeScript text, e.RefusedInIdle := by
  intro e he
  rw [encodeScript, List.mem_append, List.mem_map, List.mem_singleton] at he
  rcases he with ⟨c, -, rfl⟩ | rfl
  · exact .inr ⟨.encSym c, rfl, rfl⟩
  · exact .inr ⟨.encEnd, rfl, rfl⟩

theorem encodeScript_cons (c : Sym) (text : List Sym) :
    encodeScript (c :: text) = command (.encSym c) :: encodeScript text := rfl

/-! ### The law -/

/-- The output of an encode session that ended successfully (R247). -/
theorem verdictAt_enc {t : State} (hdone : t.done = true) (herr : t.err = .none) (syms : List Sym) (words : List Word) :
    verdictAt .enc syms words t = .encoded (words ++ t.wordq) :=
  if_pos ⟨hdone, herr⟩

/-- How an encode session of `text` ends, `words` being all it has pushed (R147, R247). -/
structure EncodeOutcome (code : Sym → List Bool) (text : List Sym) (words : List Word) (verdict : SessionVerdict)
    (t : State) : Prop where
  done : t.done = true
  err : t.err = .none
  words_eq : words = payloadWords (text.flatMap code)
  verdict_eq : verdict = .encoded (payloadWords (text.flatMap code))
  outCnt : t.outCnt = sat32 (text.flatMap code).length
  inCnt : t.inCnt = sat32 text.length

section
variable {code : Sym → List Bool} {before : List Sym} {words : List Word} {es : List BusEvent} {s t : State}

/-- The last write, ENC_END, and the reads after it (R146). -/
theorem encode_end (hes : HasWrites es [command .encEnd]) (hs : EncState code before words s) (hne : before ≠ [])
    (hrun : performEvents es s = .next t) (hover : t.err ≠ .overflow) (syms : List Sym) :
    EncodeOutcome code before (words ++ taken wordTaken es s ++ t.wordq) (openVerdict syms words es s) t := by
  obtain ⟨rest, v, v', syms₁, words₁, hrest, ⟨symq, wordq, responses, hv, -, hwords⟩, hfirst⟩ :=
    hes.firstWrite s
  have hstate : EncState code before (words ++ words₁) v := hv ▸ hs.served hwords
  have hin : v.inCnt ≠ 0 := hstate.inCnt ▸ sat32_ne_zero (by simpa using hne)
  have hwrite := hfirst.write
  rw [hfirst.run] at hrun
  rw [performEvent_command, exec_encEnd_of_enc hstate.session] at hwrite
  by_cases hfull : v.accN ≠ 0 ∧ v.wordq.length = Config.wordqDepth
  · rw [finishEncoding_of_no_room hin hfull, andThen_next] at hwrite
    obtain rfl := Host.Outcome.next.inj hwrite
    refine absurd ?_ hover
    rw [hrest.err_of_failed (by simp) (failed_record (by simp) _ _ _) hrun]
    simp [hstate.err]
  rw [finishEncoding_of_room hin (not_and.mp hfull), andThen_next, settle_completed] at hwrite
  obtain rfl := Host.Outcome.next.inj hwrite
  obtain ⟨t', syms₂, words₂, hquiet⟩ := hrest.quietRun (by simp)
  obtain rfl := Host.Outcome.next.inj (hquiet.run.symm.trans hrun)
  obtain ⟨data, symq', wordq', responses', rfl, -, -, hwords'⟩ := hquiet.served
  refine ⟨rfl, ?_, ?_, ?_, ?_, ?_⟩
  · simpa [State.served] using hstate.err
  · rw [hfirst.words_eq, hquiet.words_eq, ← hstate.flushed_words, List.append_assoc, List.append_assoc,
      List.append_assoc]
    exact congrArg _ (congrArg _ hwords')
  · rw [hfirst.verdict (by simp [hs.session]), openVerdict_ends hfirst.write rfl, command_isCmdOrTableWrite, if_pos rfl,
      hstate.session, verdictAt_enc rfl (by simpa using hstate.err), ← hstate.flushed_words]
    rfl
  · simpa [State.served] using hstate.outCnt
  · simpa [State.served] using hstate.inCnt

/-- The writes of the text still to come, from any point of the session: one ENC_SYM, then the rest. -/
theorem encode_run (text : List Sym) (hes : HasWrites es (encodeScript text)) (hs : EncState code before words s)
    (hcode : ∀ c ∈ text, code c ≠ []) (hne : before ++ text ≠ []) (hrun : performEvents es s = .next t)
    (hover : t.err ≠ .overflow) (syms : List Sym) :
    EncodeOutcome code (before ++ text) (words ++ taken wordTaken es s ++ t.wordq) (openVerdict syms words es s) t := by
  induction text generalizing es before words s syms with
  | nil =>
    rw [List.append_nil] at hne ⊢
    exact encode_end hes hs hne hrun hover syms
  | cons c text ih =>
    obtain ⟨hcode₁, hcode⟩ := List.forall_mem_cons.mp hcode
    rw [encodeScript_cons] at hes
    obtain ⟨rest, v, v', syms₁, words₁, hrest, ⟨symq, wordq, responses, hv, -, hwords⟩, hfirst⟩ :=
      hes.firstWrite s
    have hstate : EncState code before (words ++ words₁) v := hv ▸ hs.served hwords
    have hlen : v.codeLength c ≠ 0 := by
      rw [← codeOf_length, hstate.codes]
      simpa using hcode₁
    have hwrite := hfirst.write
    rw [hfirst.run] at hrun
    rw [performEvent_command, exec_encSym_of_enc hstate.session] at hwrite
    by_cases room : v.wordq.length + v.pushes (v.codeLength c) ≤ Config.wordqDepth
    · rw [encodeSymbol_of_room hlen room, andThen_next, settle_completed] at hwrite
      obtain rfl := Host.Outcome.next.inj hwrite
      have hnext := hstate.encodeSym c
      have hopen : (reply .done (countIn (appendBits v (v.codeOf c)))).session ≠ .idle := by
        rw [hnext.session]
        simp
      have hout := ih hrest hnext hcode (by simp) hrun (syms ++ syms₁ ++ [])
      rw [hfirst.words_eq, hfirst.verdict (by simp [hs.session]), openVerdict_goes_on hfirst.write hopen,
        symTaken_of_not_reads rfl, wordTaken_of_not_reads rfl, List.append_nil (words ++ words₁), ← List.append_assoc]
      rwa [List.append_assoc before] at hout
    · rw [encodeSymbol_of_no_room hlen (Nat.not_le.mp room), andThen_next] at hwrite
      obtain rfl := Host.Outcome.next.inj hwrite
      refine absurd ?_ hover
      rw [hrest.err_of_failed (encodeScript_refusedInIdle text) (failed_record (by simp) _ _ _) hrun]
      simp [hstate.err]

/-- From ENC_START in IDLE on (R147). -/
theorem encode_session (text : List Sym) (body : List BusEvent) (hidle : s.session = .idle) (htext : text ≠ [])
    (hcode : ∀ c ∈ text, s.codeLength c ≠ 0) (hbody : writesOf body = encodeScript text)
    (hrun : performEvents (command .encStart :: body) s = .next t) (hover : t.err ≠ .overflow) :
    EncodeOutcome s.codeOf text (wordsTaken (command .encStart :: body) s ++ t.wordq)
      (sessionVerdict (command .encStart :: body) s) t := by
  have hstart := performEvent_start (exec_encStart_of_idle hidle)
  rw [performEvents_after_command hstart] at hrun
  rw [wordsTaken_after_command hstart, sessionVerdict_after_command hstart body hidle (by simp)]
  have hcode' : ∀ c ∈ text, s.codeOf c ≠ [] := fun c hc hnil => hcode c hc (by rw [← codeOf_length, hnil]; rfl)
  exact encode_run text (hasWrites_of_writesOf hbody) (encState_start s) hcode' (by simpa using htext) hrun hover []

end

/-! ### The code table and the tree (R140) -/

/-- A table that matches the tree holds exactly the derived code of a symbol that has one in it. -/
theorem mem_deriveCodes_iff_of_match {s : State} (h : TablesMatch s) {c : Sym} (hc : s.codeLength c ≠ 0)
    (code : List Bool) : (c, code) ∈ deriveCodes s.node ↔ code = s.codeOf c := by
  obtain ⟨hcodes, hnone⟩ := h c
  have hunique (code : List Bool) (hmem : (c, code) ∈ deriveCodes s.node) : code = s.codeOf c := by
    obtain ⟨hlen, hbits⟩ := hcodes code hmem
    apply List.ext_getElem
    · rw [codeOf_length, hlen]
    · intro j hj hj'
      simp [State.codeOf, hbits j hj]
  refine ⟨hunique code, ?_⟩
  rintro rfl
  obtain ⟨code, hmem⟩ := not_forall_not.mp fun hno => hc (hnone hno)
  exact hunique code hmem ▸ hmem

/-- Settles O46: the run of the session, and what Match says of a symbol with a code. -/
theorem encodeSessionLaw : Obligations.EncodeSessionLaw := by
  unfold Obligations.EncodeSessionLaw
  intro s t text body hidle htext hcode hbody hrun hover
  obtain ⟨hdone, herr, hwords, hverdict, hout, hin⟩ := encode_session text body hidle htext hcode hbody hrun hover
  exact ⟨hdone, herr, hwords, hverdict, hout, hin,
    fun hmatch c hc code => mem_deriveCodes_iff_of_match hmatch (hcode c hc) code⟩

end Sys2Proof.Machine
end

section
/-! PROOFS. The decode-session law (R175, R247): the symbols read and queued are at every point those the walk of the
bits presented so far emits, however they were split and wherever the host's reads stand. -/

namespace Sys2Proof.Machine

/-! ### The state of a decode session -/

/-- The state shows the walk of the bits `P` from the root, the host having read `syms` (R173, R175). -/
structure Walked (m : Memory) (P : List Bool) (syms : List Sym) (s : State) : Prop where
  symq : syms ++ s.symq = (walkStar m 0 P).syms
  walk : s.walk = (walkStar m 0 P).pos
  inCnt : s.inCnt = sat32 (walkStar m 0 P).walked
  outCnt : s.outCnt = sat32 (walkStar m 0 P).syms.length

/-- A decode session is open, and nothing has raised an error so far. -/
structure DecState (m : Memory) (P : List Bool) (syms : List Sym) (s : State) : Prop where
  session : s.session = .dec
  err : s.err = .none
  node : s.node = m
  raised : (walkStar m 0 P).raised = none
  walked : Walked m P syms s

section
variable {m : Memory} {P p : List Bool} {syms : List Sym} {s : State}

theorem decState_start (s : State) : DecState s.node [] [] (reply .done { sessionClear s with session := .dec }) :=
  ⟨rfl, rfl, rfl, rfl, rfl, rfl, rfl, rfl⟩

theorem DecState.served (h : DecState m P syms s) {data : Word} {syms' symq : List Sym} {wordq : List Word}
    {responses : List Response} (hsyms : syms' ++ symq = s.symq) :
    DecState m P (syms ++ syms') (s.served data symq wordq responses) :=
  { h with
    walked := ⟨by rw [← h.walked.symq, ← hsyms]; exact List.append_assoc .., h.walked.walk, h.walked.inCnt,
      h.walked.outCnt⟩ }

/-- The walk of one more piece (R173, R175). -/
theorem DecState.walked_append (h : DecState m P syms s) (p : List Bool) : Walked m (P ++ p) syms (afterWalk p s) := by
  obtain ⟨hsymq, hwalk, hin, hout⟩ := h.walked
  have happend := walkStar_append_of_not_raised P p h.raised
  rw [← hwalk, ← h.node] at happend
  constructor
  · rw [← h.node, happend, h.node, ← hsymq, List.append_assoc]
    simp only [afterWalk, h.node]
  · rw [← h.node, happend]
    rfl
  · rw [← h.node, happend, h.node, ← sat32_add, ← hin]
    simp only [afterWalk, h.node]
  · rw [← h.node, happend, h.node, List.length_append, ← sat32_add, ← hout]
    simp only [afterWalk, h.node]

theorem DecState.raised_append (h : DecState m P syms s) (p : List Bool) :
    (walkStar m 0 (P ++ p)).raised = (walkStar s.node s.walk p).raised := by
  rw [walkStar_append_of_not_raised P p h.raised, h.node, h.walked.walk]

end

/-! ### How the session ends -/

/-- How a decode session whose pieces hold `total` bits ends, `r` being the walk of them and `syms` all it has pushed
(R175, R247). -/
structure DecodeOutcome (r : WalkRun) (total : Nat) (syms : List Sym) (verdict : SessionVerdict) (t : State) :
    Prop where
  session : t.session = .idle
  syms_eq : syms = r.syms
  inCnt : t.inCnt = sat32 r.walked
  outCnt : t.outCnt = sat32 r.syms.length
  raised : ∀ e info, r.raised = some (e, info) →
    t.err = e ∧ t.errInfo = info ∧ t.done = false ∧ verdict = .noOutput
  midPath : r.raised = none → r.pos ≠ 0 →
    t.err = .malformedPayload ∧ t.errInfo = r.pos.setWidth 32 ∧ t.done = false ∧ verdict = .noOutput
  accepted : r.raised = none → r.pos = 0 →
    t.done = true ∧ t.err = .none ∧ r.walked = total ∧ verdict = .decoded r.syms

theorem verdictAt_failed {t : State} (h : Failed t) (x : Session) (syms : List Sym) (words : List Word) :
    verdictAt x syms words t = .noOutput :=
  if_neg (by simp [h.done])

theorem verdictAt_dec {t : State} (hdone : t.done = true) (herr : t.err = .none) (syms : List Sym) (words : List Word) :
    verdictAt .dec syms words t = .decoded (syms ++ t.symq) :=
  if_pos ⟨hdone, herr⟩

theorem decodeScript_cons (p : List Bool) (pieces : List (List Bool)) :
    decodeScript (p :: pieces) = .access (.write 4 dataOffset (packWord p)) ::
      command (.decBits (BitVec.ofNat 6 p.length)) :: decodeScript pieces := rfl

theorem decodeScript_refusedInIdle (pieces : List (List Bool)) : ∀ e ∈ decodeScript pieces, e.RefusedInIdle := by
  induction pieces with
  | nil =>
    intro e he
    obtain rfl := List.mem_singleton.mp he
    exact .inr ⟨.decEnd, rfl, rfl⟩
  | cons p pieces ih =>
    rw [decodeScript_cons]
    exact List.forall_mem_cons.mpr ⟨.inl ⟨_, rfl⟩, List.forall_mem_cons.mpr ⟨.inr ⟨_, rfl, rfl⟩, ih⟩⟩

/-- What is left once an error has been recorded: the error, and the symbols and counts at that point (R201, R203). -/
theorem HasWrites.after_error {es script : List BusEvent} (h : HasWrites es script)
    (hscript : ∀ e ∈ script, e.RefusedInIdle) {s t : State} {e : ErrCode} (he : e ≠ .none) {info : Word}
    (hs : s.err = .none) (hrun : performEvents es (reply .done (record e info s)) = .next t) :
    t.session = .idle ∧ t.err = e ∧ t.errInfo = info ∧ t.done = false ∧ t.inCnt = s.inCnt ∧ t.outCnt = s.outCnt ∧
      taken symTaken es (reply .done (record e info s)) ++ t.symq = s.symq := by
  obtain ⟨u, syms, words, hquiet⟩ := h.quietRun fun d hd => ⟨hscript d hd, failed_record he info .done s⟩
  obtain ⟨data, symq, wordq, responses, hserved, -, hsyms, -⟩ := hquiet.served
  obtain rfl := Host.Outcome.next.inj (hquiet.run.symm.trans hrun)
  rw [hquiet.syms_eq, hserved]
  exact ⟨rfl, if_pos hs, if_pos hs, rfl, rfl, rfl, hsyms⟩

/-! ### The law -/

section
variable {m : Memory} {P : List Bool} {syms : List Sym} {es : List BusEvent} {s t : State}

/-- The last write, DEC_END, and the reads after it (R174). -/
theorem decode_end (hes : HasWrites es [command .decEnd]) (hs : DecState m P syms s)
    (hrun : performEvents es s = .next t) (words : List Word) :
    DecodeOutcome (walkStar m 0 P) P.length (syms ++ taken symTaken es s ++ t.symq)
      (openVerdict syms words es s) t := by
  obtain ⟨rest, v, v', syms₁, words₁, hrest, ⟨symq, wordq, responses, hv, hsyms, -⟩, hfirst⟩ := hes.firstWrite s
  have hstate : DecState m P (syms ++ syms₁) v := hv ▸ hs.served hsyms
  have hwrite := hfirst.write
  have hverdict := hfirst.verdict (by simp [hs.session]) syms words
  rw [hfirst.run] at hrun
  rw [performEvent_command, exec_decEnd_of_dec hstate.session] at hwrite
  rw [hfirst.syms_eq, hverdict]
  by_cases hroot : v.walk = 0
  · rw [finishDecoding_of_root hroot, andThen_next, settle_completed] at hwrite
    obtain rfl := Host.Outcome.next.inj hwrite
    rw [openVerdict_ends hfirst.write rfl, command_isCmdOrTableWrite, if_pos rfl, hstate.session,
      verdictAt_dec rfl (by simpa using hstate.err)]
    obtain ⟨t', syms₂, words₂, hquiet⟩ := hrest.quietRun (by simp)
    obtain rfl := Host.Outcome.next.inj (hquiet.run.symm.trans hrun)
    obtain ⟨data, symq', wordq', responses', rfl, -, hsyms', -⟩ := hquiet.served
    have hpos : (walkStar m 0 P).pos = 0 := hstate.walked.walk.symm.trans hroot
    refine ⟨rfl, ?_, hstate.walked.inCnt, hstate.walked.outCnt, fun e info hr => ?_, fun _ hne => absurd hpos hne,
      fun hr _ => ⟨rfl, hstate.err, walkStar_walked m P 0 hr, ?_⟩⟩
    · rw [hquiet.syms_eq, ← hstate.walked.symq, List.append_assoc, List.append_assoc, List.append_assoc]
      exact congrArg _ (congrArg _ hsyms')
    · rw [hstate.raised] at hr
      simp at hr
    · rw [← hstate.walked.symq]
      rfl
  · rw [finishDecoding_of_midPath hroot, andThen_next, settle_raised] at hwrite
    obtain rfl := Host.Outcome.next.inj hwrite
    rw [openVerdict_ends hfirst.write rfl, command_isCmdOrTableWrite, if_pos rfl,
      verdictAt_failed (failed_record (by simp) _ _ _)]
    obtain ⟨hidle, herr, hinfo, hdone, hin, hout, hsymq⟩ := hrest.after_error (by simp) (by simp) hstate.err hrun
    have hpos : (walkStar m 0 P).pos ≠ 0 := fun h0 => hroot (hstate.walked.walk.trans h0)
    refine ⟨hidle, ?_, hin.trans hstate.walked.inCnt, hout.trans hstate.walked.outCnt, fun e info hr => ?_,
      fun _ _ => ⟨herr, hinfo.trans ?_, hdone, rfl⟩, fun _ h0 => absurd h0 hpos⟩
    · rw [List.append_assoc, List.append_assoc, hsymq, ← List.append_assoc, hstate.walked.symq]
    · rw [hstate.raised] at hr
      simp at hr
    · rw [hstate.walked.walk, zext32]

/-- The two writes of one piece: DATA, and DEC_BITS on it (R101). -/
theorem HasWrites.piece {script : List BusEvent} {p : List Bool}
    (hes : HasWrites es (.access (.write 4 dataOffset (packWord p)) ::
      command (.decBits (BitVec.ofNat 6 p.length)) :: script)) (hs : DecState m P syms s) :
    ∃ rest before after syms' words', HasWrites rest script ∧ DecState m P (syms ++ syms') before ∧
      before.data = packWord p ∧
      UpToWrite es s (command (.decBits (BitVec.ofNat 6 p.length))) rest before after syms' words' := by
  obtain ⟨rest, v, v', syms₁, words₁, hrest, ⟨symq, wordq, responses, hv, hsyms, -⟩, hfirst⟩ := hes.firstWrite s
  obtain rfl := Host.Outcome.next.inj ((performAccess_write_data (packWord p) v).symm.trans hfirst.write)
  have hstate : DecState m P (syms ++ syms₁) (v.served (packWord p) v.symq v.wordq (v.responses ++ [.done])) := by
    have hserved := (hv ▸ hs.served hsyms : DecState m P (syms ++ syms₁) v).served (syms' := []) (symq := v.symq)
      (data := packWord p) (wordq := v.wordq) (responses := v.responses ++ [.done]) rfl
    rwa [List.append_nil] at hserved
  obtain ⟨rest', u, u', syms₂, words₂, hrest', ⟨symq', wordq', responses', hu, hsyms', -⟩, hsecond⟩ :=
    hrest.firstWrite (reply .done { v with data := packWord p })
  refine ⟨rest', u, u', _, _, hrest', ?_, hu ▸ rfl, hfirst.trans rfl ?_ hsecond⟩
  · rw [← List.append_assoc, hu]
    exact hstate.served hsyms'
  · simp [show v.session = .dec from hstate.session]

/-- What DEC_BITS leaves when its walk raised an error, with the rest of the script refused (R203). -/
theorem decode_error {P Q : List Bool} {script : List BusEvent} {e : ErrCode} {info : Word}
    (hes : HasWrites es script) (hscript : ∀ e ∈ script, e.RefusedInIdle) (hs : Walked m P syms s)
    (hr : (walkStar m 0 P).raised = some (e, info)) (herr : s.err = .none)
    (hrun : performEvents es (reply .done (record e info s)) = .next t) (x : Session) (total : Nat)
    (words : List Word) :
    DecodeOutcome (walkStar m 0 (P ++ Q)) total
      (syms ++ taken symTaken es (reply .done (record e info s)) ++ t.symq)
      (verdictAt x syms words (reply .done (record e info s))) t := by
  have he : e ≠ .none := by rcases walkStar_raised hr with rfl | rfl <;> simp
  rw [verdictAt_failed (failed_record he _ _ _), walkStar_append_of_raised _ _ hr]
  obtain ⟨hidle, herr, hinfo, hdone, hin, hout, hsymq⟩ := hes.after_error hscript he herr hrun
  have hraised : (walkStar m 0 P).raised ≠ none := Option.isSome_iff_ne_none.mp (hr ▸ rfl)
  refine ⟨hidle, ?_, hin.trans hs.inCnt, hout.trans hs.outCnt, fun e' info' hr' => ?_, fun hr' => absurd hr' hraised,
    fun hr' => absurd hr' hraised⟩
  · rw [List.append_assoc, hsymq, hs.symq]
  · obtain ⟨rfl, rfl⟩ := Prod.mk.inj (Option.some.inj (hr.symm.trans hr'))
    exact ⟨herr, hinfo, hdone, rfl⟩

/-- The writes of the pieces still to come, from any point of the session between two pieces: one piece, then the
rest. -/
theorem decode_run (pieces : List (List Bool)) (hes : HasWrites es (decodeScript pieces)) (hs : DecState m P syms s)
    (hpieces : ∀ p ∈ pieces, 1 ≤ p.length ∧ p.length ≤ 32) (hrun : performEvents es s = .next t)
    (hover : t.err ≠ .overflow) (words : List Word) :
    DecodeOutcome (walkStar m 0 (P ++ pieces.flatten)) (P ++ pieces.flatten).length
      (syms ++ taken symTaken es s ++ t.symq) (openVerdict syms words es s) t := by
  induction pieces generalizing es P syms s words with
  | nil =>
    rw [List.flatten_nil, List.append_nil]
    exact decode_end hes hs hrun words
  | cons p pieces ih =>
    obtain ⟨⟨hlo, hhi⟩, hpieces⟩ := List.forall_mem_cons.mp hpieces
    rw [decodeScript_cons] at hes
    obtain ⟨rest, v, v', syms₁, words₁, hrest, hstate, hdata, hupTo⟩ := hes.piece hs
    have hcount : (BitVec.ofNat 6 p.length).toNat = p.length := by
      rw [BitVec.toNat_ofNat]
      omega
    have hbits : v.dataBits (BitVec.ofNat 6 p.length).toNat = p := by
      rw [State.dataBits, hcount, hdata, leadingBits_packWord p hhi]
    have hwrite := hupTo.write
    rw [hupTo.run] at hrun
    rw [performEvent_command] at hwrite
    rw [hupTo.syms_eq, hupTo.verdict (by simp [hs.session]), List.flatten_cons, ← List.append_assoc P,
      ← List.append_assoc syms]
    by_cases room : v.symq.length + p.length ≤ Config.symqDepth
    case neg =>
      rw [exec_decBits_of_dec hstate.session, hcount, consumeBits_of_no_room hlo hhi (Nat.not_le.mp room),
        andThen_next] at hwrite
      obtain rfl := Host.Outcome.next.inj hwrite
      refine absurd ?_ hover
      rw [hrest.err_of_failed (decodeScript_refusedInIdle pieces) (failed_record (by simp) _ _ _) hrun]
      simp [hstate.err]
    rw [exec_decBits_of_room hstate.session (by rwa [hcount]) (by rwa [hcount]) (by rwa [hcount]), hbits,
      andThen_next, ← hstate.raised_append] at hwrite
    obtain rfl := Host.Outcome.next.inj hwrite
    have hwalked := hstate.walked_append p
    rcases hr : (walkStar m 0 (P ++ p)).raised with _ | ⟨e, info⟩
    case none =>
      rw [hr, recordRaised] at hrun hupTo
      have hnext : DecState m (P ++ p) (syms ++ syms₁) (reply .done (afterWalk p v)) :=
        ⟨hstate.session, hstate.err, hstate.node, hr, hwalked.symq, hwalked.walk, hwalked.inCnt, hwalked.outCnt⟩
      rw [openVerdict_goes_on hupTo.write (by rw [hnext.session]; simp), symTaken_of_not_reads rfl,
        wordTaken_of_not_reads rfl, List.append_nil, List.append_nil]
      exact ih hrest hnext hpieces hrun _
    case some =>
      rw [hr, recordRaised] at hrun hupTo
      rw [recordRaised, openVerdict_ends hupTo.write rfl, command_isCmdOrTableWrite, if_pos rfl]
      exact decode_error hrest (decodeScript_refusedInIdle pieces) hwalked hr hstate.err hrun _ _ _

/-- From DEC_START in IDLE on (R175). -/
theorem decode_session (pieces : List (List Bool)) (body : List BusEvent) (hidle : s.session = .idle)
    (hpieces : ∀ p ∈ pieces, 1 ≤ p.length ∧ p.length ≤ 32) (hbody : writesOf body = decodeScript pieces)
    (hrun : performEvents (command .decStart :: body) s = .next t) (hover : t.err ≠ .overflow) :
    DecodeOutcome (walkStar s.node 0 pieces.flatten) pieces.flatten.length
      (symsTaken (command .decStart :: body) s ++ t.symq) (sessionVerdict (command .decStart :: body) s) t := by
  have hstart := performEvent_start (exec_decStart_of_idle hidle)
  rw [performEvents_after_command hstart] at hrun
  rw [symsTaken_after_command hstart, sessionVerdict_after_command hstart body hidle (by simp)]
  exact decode_run pieces (hasWrites_of_writesOf hbody) (decState_start s) hpieces hrun hover []

end

/-- Settles O52: DEC_START opens the session in the state of an empty walk, and `decode_run` does the rest. -/
theorem decodeSessionLaw : Obligations.DecodeSessionLaw := by
  unfold Obligations.DecodeSessionLaw
  intro s t pieces body hidle hpieces hbody hrun hover
  obtain ⟨hsession, hsyms, hin, hout, hraised, hmid, haccepted⟩ :=
    decode_session pieces body hidle hpieces hbody hrun hover
  exact ⟨hsession, hsyms, hin, hout, hraised, hmid, haccepted⟩

/-! ### The round trip (R176) -/

theorem wordsBits_getElem? (ws : List Word) (p : Nat) :
    (wordsBits ws)[p]? = ws[p / 32]?.map fun w => w.getLsbD (31 - p % 32) := by
  induction ws generalizing p with
  | nil => rfl
  | cons w ws ih =>
    rw [wordsBits, List.flatMap_cons]
    rcases Nat.lt_or_ge p 32 with hp | hp
    · rw [List.getElem?_append_left (by simpa using hp), leadingBits_getElem? hp, Nat.div_eq_of_lt hp,
        Nat.mod_eq_of_lt hp]
      rfl
    · obtain ⟨q, rfl⟩ := Nat.exists_eq_add_of_le' hp
      rw [List.getElem?_append_right (by simp), leadingBits_length, Nat.add_sub_cancel, Nat.add_div_right q (by decide),
        Nat.add_mod_right]
      exact ih q

/-- The bits of the payload words, padding cut off, are the bits that were packed (R40). -/
theorem wordsBits_payloadWords (P : List Bool) : (wordsBits (payloadWords P)).take P.length = P := by
  apply List.ext_getElem?
  intro p
  rcases Nat.lt_or_ge p P.length with hp | hp
  · obtain ⟨w, hw, hbit⟩ := (payloadWordsLayout.2.2 P).2.1 p hp
    rw [List.getElem?_take_of_lt hp, wordsBits_getElem?, hw, List.getElem?_eq_getElem hp, ← hbit]
    rfl
  · rw [List.getElem?_eq_none hp, List.getElem?_eq_none (by simp; omega)]

/-- The symbols of a loaded tree have their derived codes in the code table (R140, R148). -/
theorem codeOf_mem_deriveCodes {s : State} (h : TablesLoaded s) {c : Sym}
    (hc : ∃ code, (c, code) ∈ deriveCodes s.node) :
    s.codeLength c ≠ 0 ∧ (c, s.codeOf c) ∈ deriveCodes s.node := by
  obtain ⟨htree, hmatch⟩ := h
  obtain ⟨code, hmem⟩ := hc
  have hlo : 1 ≤ code.length := (derivedCodesArePrefixFree s.node htree).2 _ hmem
  have hlen : s.codeLength c ≠ 0 := by
    rw [((hmatch c).1 code hmem).1]
    omega
  exact ⟨hlen, (mem_deriveCodes_iff_of_match hmatch hlen _).mpr rfl⟩

/-- Settles O56: below saturation OUT_CNT is the number of bits, so the bits fed are the concatenated codes, and their
walk emits the text and ends at the root. -/
theorem roundTrip : Obligations.RoundTrip := by
  unfold Obligations.RoundTrip
  intro s t v u text encBody decBody pieces hidle hloaded htext hcodes hencBody hencRun hencOver hsat hpieces hfed
    hvidle hnode hdecBody hdecRun hdecOver
  have hderived : ∀ c ∈ text, s.codeLength c ≠ 0 ∧ (c, s.codeOf c) ∈ deriveCodes s.node :=
    fun c hc => codeOf_mem_deriveCodes hloaded (hcodes c hc)
  have henc := encode_session text encBody hidle htext (fun c hc => (hderived c hc).1) hencBody hencRun hencOver
  have hdec := decode_session pieces decBody hvidle hpieces hdecBody hdecRun hdecOver
  have hcount : t.outCnt.toNat = (text.flatMap s.codeOf).length := by
    rw [henc.outCnt, sat32_toNat] at hsat ⊢
    simp only [Config.cntMax] at hsat ⊢
    omega
  have hbits : pieces.flatten = (text.map fun c => (c, s.codeOf c)).flatMap (·.2) := by
    rw [hfed, henc.words_eq, hcount, wordsBits_payloadWords, List.flatMap_map]
  have hwalk := walkStar_codes hloaded.1 (codes := text.map fun c => (c, s.codeOf c))
    (by simpa using fun c hc => (hderived c hc).2)
  rw [hnode, hbits, hwalk] at hdec
  obtain ⟨hdone, herr, -, -⟩ := hdec.accepted rfl rfl
  refine ⟨hdone, herr, hdec.syms_eq.trans ?_⟩
  rw [List.map_map]
  exact List.map_id' text

end Sys2Proof.Machine
end
